-- ==== Sys2Proof/Word.lean ====
section
/-! DEFINITION. The widths of rule R9: a transferred byte, a nibble, a DDRAM address, a command word. -/

namespace Sys2Proof

/-- A transferred value is 8 bits (rule R9). -/
abbrev Byte := BitVec 8

/-- A nibble is 4 bits (rule R9). -/
abbrev Nibble := BitVec 4

/-- A DDRAM address is 7 bits (rule R52). -/
abbrev Address := BitVec 7

/-- A host command word `CW` is 16 bits (rule R96). -/
abbrev CommandWord := BitVec 16

end Sys2Proof
end

