-- ==== Sys2Proof/Syntax.lean ====
section
/-! DEFINITION. The instructions: one constructor for each row of `spec/opcode_table.json`, and the words they are
carried in. -/

namespace Sys2Proof

/-- The 18 rows of the opcode table. The first eight are the host operations of rule R97, the next four the cycle
kinds of rule R81, the last six the controller instruction bytes of rule R90. -/
inductive Instr where
  /-- `INIT`: `initialize(attributes)`, rule R160. -/
  | init (attributes : Byte)
  /-- `CLEAR`: `clear()`, rule R164. -/
  | clear
  /-- `HOME`: `home()`, rule R165. -/
  | home
  /-- `GOTOXY`: `gotoXY(col, row)`, rule R166; `row` is the line number, one of 0 and 1 (rule R9). -/
  | gotoxy (col : Byte) (row : Nat)
  /-- `PUTC`: `printChar(ch)`, rule R168. -/
  | putc (ch : Byte)
  /-- `WRCMD`: write command, rule R148. -/
  | wrcmd (b : Byte)
  /-- `WRDATA`: write character, rule R149. -/
  | wrdata (b : Byte)
  /-- `RDSTAT`: read status, rule R150. -/
  | rdstat
  /-- `BUS.WI`: the write-instruction transaction `WriteByte(0, b)`, rule R120. -/
  | busWi (b : Byte)
  /-- `BUS.WD`: the write-data transaction `WriteByte(1, b)`, rule R120. -/
  | busWd (b : Byte)
  /-- `BUS.RS`: the read-busy/address transaction `ReadByte(0)`, rule R122. -/
  | busRs
  /-- `BUS.RD`: the read-data transaction `ReadByte(1)`, rule R122. -/
  | busRd
  /-- `LCD.CLEAR`: the byte `CMD_CLEAR`, rule R90. -/
  | lcdClear
  /-- `LCD.HOME`: the byte `CMD_HOME`, rule R90. -/
  | lcdHome
  /-- `LCD.ENTRY`: the byte `CMD_ENTRY_DEFAULT`, rule R90. -/
  | lcdEntry
  /-- `LCD.DISPLAY`: the byte `00001dcb`, rules R90 and R91. -/
  | lcdDisplay (d c b : Bool)
  /-- `LCD.FUNCTION`: the byte `CMD_FUNCTION_DEFAULT`, rule R90. -/
  | lcdFunction
  /-- `LCD.SETDDRAM`: the byte `(CMD_SET_DDRAM + a) mod 256`, rule R92. -/
  | lcdSetddram (a : Address)
  deriving DecidableEq, Repr

/-- What the sequencer takes to start an instruction, in one of the table's three formats (rule R80). Only `cw` is
a word of the host's command port (rule R95); the other two enter the sequencer below it (DESIGN CHOICE, log 7). -/
inductive Request where
  /-- `CW`: a host command word, rule R96. -/
  | cw (w : CommandWord)
  /-- `CYCLE`: the cycle kind with `RS` in bit 1 and `RW` in bit 0, rule R81, and the byte to write (zero for a
  read). -/
  | cycle (kind : BitVec 2) (operand : Byte)
  /-- `LCDI`: a controller instruction byte, rule R90. -/
  | lcdi (byte : Byte)
  deriving DecidableEq, Repr

/-- The expansion of the pseudo-instruction `print "c1 … ck"` (rule R102): one `PUTC` for each character, in order. The
terminator is no element of the text and is not sent. Its run, which a failure ends (rule R173), is `execPrint`. -/
def Instr.print (text : List Byte) : List Instr := text.map .putc

/-- The pseudo-instruction `newline` (rule R102): `putc 0x0A`. -/
def Instr.newline : Instr := .putc 0x0A

end Sys2Proof
end

