-- ==== Sys2Proof/WellFormed.lean ====
section
/-! DEFINITION. Which terms of `Instr` are instructions: every operand has its width by its type, but the line number
of `GOTOXY`, which rule R9 limits to 0 and 1. -/

namespace Sys2Proof

/-- A line number is 0 or 1 (rule R9: "`row` is one of 0 and 1"; rule R96: it has the one bit `CW[8]`). -/
def lineNumberOk (row : Nat) : Bool := row < 2

/-- The instruction's operands are in range. -/
def Instr.wellFormed : Instr → Bool
  | .init _ => true
  | .clear => true
  | .home => true
  | .gotoxy _ row => lineNumberOk row
  | .putc _ => true
  | .wrcmd _ => true
  | .wrdata _ => true
  | .rdstat => true
  | .busWi _ => true
  | .busWd _ => true
  | .busRs => true
  | .busRd => true
  | .lcdClear => true
  | .lcdHome => true
  | .lcdEntry => true
  | .lcdDisplay _ _ _ => true
  | .lcdFunction => true
  | .lcdSetddram _ => true

end Sys2Proof
end

