-- ==== Sys2Proof/Decode.lean ====
section
/-! DEFINITION. Decoding a request to an instruction, total and rejecting by name; the encoder; and the opcode table's
masks and patterns. -/

namespace Sys2Proof

/-- Why a request is no instruction. Each is safe: the block refuses it (rule R98). -/
inductive DecodeError where
  /-- `op` is 0x0 or 0x9 to 0xF (rule R98). -/
  | reservedOp
  /-- `CW[11:9]` is not 0 (rule R98). -/
  | reservedZero
  /-- `row` is 1 with an operation other than `GOTOXY` (rule R98). -/
  | reservedRow
  /-- `arg` is not 0 with `CLEAR`, `HOME` or `RDSTAT` (rule R98). -/
  | reservedArg
  /-- A byte to write is given with a read cycle (log 24). -/
  | operandOnRead
  /-- A controller instruction byte the block never forms itself (rule R94). -/
  | notFormed
  deriving DecidableEq, Repr

/-- The result of decoding. -/
inductive Decoded where
  | instr (i : Instr)
  | reject (why : DecodeError)
  deriving DecidableEq, Repr

/-! ### The fields of a command word (rule R96) -/

/-- `CW[15:12]` -/
def CommandWord.op (w : CommandWord) : Nat := (w.extractLsb' 12 4).toNat

/-- `CW[11:9]`, which must be 0 -/
def CommandWord.zero (w : CommandWord) : BitVec 3 := w.extractLsb' 9 3

/-- `CW[8]` -/
def CommandWord.row (w : CommandWord) : Nat := (w.extractLsb' 8 1).toNat

/-- `CW[7:0]` -/
def CommandWord.arg (w : CommandWord) : Byte := w.extractLsb' 0 8

/-- `{op, 000, row, arg}` (rule R96). -/
def commandWord (op : Nat) (row : Nat) (arg : Byte) : CommandWord :=
  BitVec.ofNat 4 op ++ (0 : BitVec 3) ++ BitVec.ofNat 1 row ++ arg

/-- An operation with a byte operand and no row. -/
def decodeWithArg (w : CommandWord) (i : Byte → Instr) : Decoded :=
  if w.row = 0 then .instr (i w.arg) else .reject .reservedRow

/-- An operation without operand. -/
def decodePlain (w : CommandWord) (i : Instr) : Decoded :=
  if w.row = 0 then
    if w.arg = 0 then .instr i else .reject .reservedArg
  else .reject .reservedRow

/-- Decoding a command word: the operation by `CW[15:12]`, then the must-be-zero fields (rules R97, R98, R100,
R103). -/
def decodeCommand (w : CommandWord) : Decoded :=
  if w.zero = 0 then
    match w.op with
    | 0x1 => decodeWithArg w .init
    | 0x2 => decodePlain w .clear
    | 0x3 => decodePlain w .home
    | 0x4 => .instr (.gotoxy w.arg w.row)
    | 0x5 => decodeWithArg w .putc
    | 0x6 => decodeWithArg w .wrcmd
    | 0x7 => decodeWithArg w .wrdata
    | 0x8 => decodePlain w .rdstat
    | _ => .reject .reservedOp
  else .reject .reservedZero

/-- Decoding a cycle kind `(RS, RW)` (rule R81): all four combinations are legal. -/
def decodeCycle (kind : BitVec 2) (operand : Byte) : Decoded :=
  match kind.toNat with
  | 0 => .instr (.busWi operand)
  | 2 => .instr (.busWd operand)
  | 1 => if operand = 0 then .instr .busRs else .reject .operandOnRead
  | _ => if operand = 0 then .instr .busRd else .reject .operandOnRead

/-- The display-control byte `00001dcb` (rule R91). -/
def displayByte (d c b : Bool) : Byte :=
  (1 : BitVec 5) ++ BitVec.ofBool d ++ BitVec.ofBool c ++ BitVec.ofBool b

/-- The set-address pattern `1aaaaaaa` of the table. -/
def setDdramPattern (a : Address) : Byte := (1 : BitVec 1) ++ a

/-- Decoding a controller instruction byte by the table of rule R90 (default byte values, log 23). A byte of no row is
rejected, and the machine answers a rejected request `Illegal` (DESIGN CHOICE, log 26: the rules give `Illegal` to command
words only). -/
def decodeLcdi (byte : Byte) : Decoded :=
  if byte.getLsbD 7 then .instr (.lcdSetddram (byte.extractLsb' 0 7))
  else if byte.extractLsb' 3 5 = 1 then
    .instr (.lcdDisplay (byte.getLsbD 2) (byte.getLsbD 1) (byte.getLsbD 0))
  else if byte = 0x01 then .instr .lcdClear
  else if byte = 0x02 then .instr .lcdHome
  else if byte = 0x06 then .instr .lcdEntry
  else if byte = 0x28 then .instr .lcdFunction
  else .reject .notFormed

/-- The decoder. -/
def decode : Request → Decoded
  | .cw w => decodeCommand w
  | .cycle kind operand => decodeCycle kind operand
  | .lcdi byte => decodeLcdi byte

/-- The encoder, from the same tables (rules R81, R90, R97). -/
def encode : Instr → Request
  | .init attributes => .cw (commandWord 0x1 0 attributes)
  | .clear => .cw (commandWord 0x2 0 0)
  | .home => .cw (commandWord 0x3 0 0)
  | .gotoxy col row => .cw (commandWord 0x4 row col)
  | .putc ch => .cw (commandWord 0x5 0 ch)
  | .wrcmd b => .cw (commandWord 0x6 0 b)
  | .wrdata b => .cw (commandWord 0x7 0 b)
  | .rdstat => .cw (commandWord 0x8 0 0)
  | .busWi b => .cycle 0b00 b
  | .busWd b => .cycle 0b10 b
  | .busRs => .cycle 0b01 0
  | .busRd => .cycle 0b11 0
  | .lcdClear => .lcdi 0x01
  | .lcdHome => .lcdi 0x02
  | .lcdEntry => .lcdi 0x06
  | .lcdDisplay d c b => .lcdi (displayByte d c b)
  | .lcdFunction => .lcdi 0x28
  | .lcdSetddram a => .lcdi (setDdramPattern a)

/-! ### The opcode table -/

/-- One row of `spec/opcode_table.json`: its format's width, its mask and its match value. -/
structure OpcodeRow where
  mnemonic : String
  width : Nat
  mask : Nat
  value : Nat
  deriving DecidableEq, Repr

/-- The bits of the row's word in a request; an operand byte of a cycle is no bit of the table's. -/
def Request.tableBits : Request → Nat
  | .cw w => w.toNat
  | .cycle kind _ => kind.toNat
  | .lcdi byte => byte.toNat

/-- The width the table gives the request's format. -/
def Request.width : Request → Nat
  | .cw _ => 16
  | .cycle _ _ => 2
  | .lcdi _ => 8

/-- The request's word has the row's format and its fixed bits. -/
def OpcodeRow.hits (row : OpcodeRow) (r : Request) : Bool :=
  r.width == row.width && r.tableBits &&& row.mask == row.value

/-- The eight host command words (rule R97). -/
def commandRows : List OpcodeRow :=
  [⟨"INIT", 16, 0xFF00, 0x1000⟩, ⟨"CLEAR", 16, 0xFFFF, 0x2000⟩, ⟨"HOME", 16, 0xFFFF, 0x3000⟩,
    ⟨"GOTOXY", 16, 0xFE00, 0x4000⟩, ⟨"PUTC", 16, 0xFF00, 0x5000⟩, ⟨"WRCMD", 16, 0xFF00, 0x6000⟩,
    ⟨"WRDATA", 16, 0xFF00, 0x7000⟩, ⟨"RDSTAT", 16, 0xFFFF, 0x8000⟩]

/-- The four cycle kinds (rule R81). -/
def cycleRows : List OpcodeRow :=
  [⟨"BUS.WI", 2, 0x3, 0x0⟩, ⟨"BUS.WD", 2, 0x3, 0x2⟩, ⟨"BUS.RS", 2, 0x3, 0x1⟩, ⟨"BUS.RD", 2, 0x3, 0x3⟩]

/-- The six controller instruction bytes (rule R90). -/
def lcdiRows : List OpcodeRow :=
  [⟨"LCD.CLEAR", 8, 0xFF, 0x01⟩, ⟨"LCD.HOME", 8, 0xFF, 0x02⟩, ⟨"LCD.ENTRY", 8, 0xFF, 0x06⟩,
    ⟨"LCD.DISPLAY", 8, 0xF8, 0x08⟩, ⟨"LCD.FUNCTION", 8, 0xFF, 0x28⟩, ⟨"LCD.SETDDRAM", 8, 0x80, 0x80⟩]

/-- The whole table, in its order. -/
def opcodeTable : List OpcodeRow := commandRows ++ cycleRows ++ lcdiRows

/-- The instruction's mnemonic in the table. -/
def Instr.mnemonic : Instr → String
  | .init _ => "INIT"
  | .clear => "CLEAR"
  | .home => "HOME"
  | .gotoxy _ _ => "GOTOXY"
  | .putc _ => "PUTC"
  | .wrcmd _ => "WRCMD"
  | .wrdata _ => "WRDATA"
  | .rdstat => "RDSTAT"
  | .busWi _ => "BUS.WI"
  | .busWd _ => "BUS.WD"
  | .busRs => "BUS.RS"
  | .busRd => "BUS.RD"
  | .lcdClear => "LCD.CLEAR"
  | .lcdHome => "LCD.HOME"
  | .lcdEntry => "LCD.ENTRY"
  | .lcdDisplay _ _ _ => "LCD.DISPLAY"
  | .lcdFunction => "LCD.FUNCTION"
  | .lcdSetddram _ => "LCD.SETDDRAM"

/-! ### A word of the table as a request -/

/-- The bits `w` of a row of `nbits` bits as a request. Sixteen bits are a command word and fewer than eight a cycle
kind. Eight bits are a controller byte, or the 2-bit cycle kind in a whole byte where no controller byte has that
value: 0 and 3 are cycle kinds, while 1 and 2 stay `LCD.CLEAR` and `LCD.HOME` (DESIGN CHOICE, log 8). -/
def requestOf (nbits w : Nat) : Request :=
  if nbits < 8 then .cycle (BitVec.ofNat 2 w) 0
  else if nbits = 8 then
    if w = 0 ∨ w = 3 then .cycle (BitVec.ofNat 2 w) 0 else .lcdi (BitVec.ofNat 8 w)
  else .cw (BitVec.ofNat 16 w)

/-- The instruction the decoder reads from the bits of a table row. -/
def decodeTableWord (nbits w : Nat) : Option Instr :=
  match decode (requestOf nbits w) with
  | .instr i => some i
  | .reject _ => none

end Sys2Proof
end

