-- ==== Sys2Proof/Config.lean ====
section
/-! DEFINITION. The configuration record of rules R8 and R34, the seven logical pins of rule R11, and the free
values: what the spec leaves open and no proof may know. -/

namespace Sys2Proof

/-- The seven logical pins, named by role (rule R11). -/
inductive Pin where
  | e | rs | rw | db7 | db6 | db5 | db4
  deriving DecidableEq, Repr

/-- One value for each of the seven logical pins. -/
structure Bank (α : Type) where
  e : α
  rs : α
  rw : α
  db7 : α
  db6 : α
  db5 : α
  db4 : α
  deriving DecidableEq, Repr

/-- The configuration: the fields of rule R34 with the parameters of rule R8. -/
structure Configuration where
  /-- `PIN_E` … `PIN_DB4`: the physical GPIO identifier of each logical pin. -/
  wiring : Bank Nat
  /-- `LINE_LENGTH` -/
  lineLength : Nat
  /-- `LINES` -/
  lines : Nat
  /-- `LINE1_BASE` -/
  line1Base : Address
  /-- `LINE2_BASE` -/
  line2Base : Address
  /-- `WRAP` -/
  wrap : Bool
  /-- `T_STROBE`, microseconds -/
  tStrobe : Nat
  /-- `T_SETTLE`, microseconds -/
  tSettle : Nat
  /-- `T_POWERON`, microseconds -/
  tPowerOn : Nat
  /-- `RESET_SEQ`: nibbles of the controller reset sequence, each with the delay after it -/
  resetSeq : List (Nibble × Nat)
  /-- `MAX_POLL`: none is the unbounded wait -/
  maxPoll : Option Nat
  /-- `CHECK_BOUNDS` -/
  checkBounds : Bool
  /-- `CMD_CLEAR` -/
  cmdClear : Byte
  /-- `CMD_HOME` -/
  cmdHome : Byte
  /-- `CMD_ENTRY_DEFAULT` -/
  cmdEntry : Byte
  /-- `CMD_FUNCTION_DEFAULT` -/
  cmdFunction : Byte
  /-- `CMD_SET_DDRAM` -/
  cmdSetDdram : Byte
  /-- `CH_NEWLINE` -/
  chNewline : Byte
  /-- `CLK_HZ`: read by no rule but R251 -/
  clkHz : Nat
  deriving DecidableEq, Repr

namespace Config

/-- FREE VALUE (rule R62, log 3): the level the environment answers to the `n`-th `Rd` event when State holds no
answer for it. -/
opaque rdLevel : Nat → Bool

/-- FREE VALUE (rule R8, log 12): how the board numbers its pins. A permutation of the numbers, so that the seven
identifiers it gives are pairwise distinct and any seven distinct ones are possible. -/
opaque boardNumbering : Equiv.Perm Nat

/-- FREE VALUE (rule R8, log 12): the clock frequency of a clocked realisation. -/
opaque clkHz : Nat

/-- The board's wiring: seven distinct identifiers, OPEN in the spec (rule R8). -/
def boardWiring : Bank Nat :=
  ⟨boardNumbering 0, boardNumbering 1, boardNumbering 2, boardNumbering 3, boardNumbering 4, boardNumbering 5,
    boardNumbering 6⟩

/-- `RESET_SEQ` as rule R8 gives it (PRESUMED by the spec itself, K3; log 13). -/
def defaultResetSeq : List (Nibble × Nat) := [(0x3, 4100), (0x3, 100), (0x3, 100), (0x2, 100)]

/-- The default configuration of rule R8. -/
def default : Configuration where
  wiring := boardWiring
  lineLength := 16
  lines := 2
  line1Base := 0x00
  line2Base := 0x40
  wrap := false
  tStrobe := 1
  tSettle := 2
  tPowerOn := 15000
  resetSeq := defaultResetSeq
  maxPoll := none
  checkBounds := false
  cmdClear := 0x01
  cmdHome := 0x02
  cmdEntry := 0x06
  cmdFunction := 0x28
  cmdSetDdram := 0x80
  chNewline := 0x0A
  clkHz := clkHz

end Config

/-- The legal values of rule R34: distinct pins, the geometry as given, every delay at least one microsecond,
`MAX_POLL` none or at least 1. -/
structure Configuration.Legal (c : Configuration) : Prop where
  pins : [c.wiring.e, c.wiring.rs, c.wiring.rw, c.wiring.db7, c.wiring.db6, c.wiring.db5, c.wiring.db4].Nodup
  lineLength : c.lineLength = 16
  lines : c.lines = 2
  line1Base : c.line1Base = 0x00
  line2Base : c.line2Base = 0x40
  strobe : 1 ≤ c.tStrobe
  settle : 1 ≤ c.tSettle
  powerOn : 1 ≤ c.tPowerOn
  resetDelays : ∀ x ∈ c.resetSeq, 1 ≤ x.2
  maxPoll : ∀ n, c.maxPoll = some n → 1 ≤ n

end Sys2Proof
end

