-- ==== Sys2Proof/Machine/State.lean ====
section
/-! DEFINITION. The state of the machine as plain data (rule R20), its reset value (rules R40, R220), and the reasons a
step can stop. -/

namespace Sys2Proof.Machine

/-- The direction of a pin: "one of `out`, `in`, `unspecified`" (rule R21). -/
inductive Dir where
  | out | inp | unspecified
  deriving DecidableEq, Repr

/-- The last level the block set on a pin: "one of `0`, `1`, `unspecified`" (rule R22). -/
inductive Level where
  | low | high | unspecified
  deriving DecidableEq, Repr

/-- The events: the block acts on the world only by these (rule R12). -/
inductive Event where
  /-- `Out(p)`: `configureAsOutput` -/
  | out (p : Pin)
  /-- `In(p)`: `configureAsInput` -/
  | inp (p : Pin)
  /-- `Hi(p)`: `setHigh` -/
  | hi (p : Pin)
  /-- `Lo(p)`: `setLow` -/
  | lo (p : Pin)
  /-- `Rd(p)=v`: `readLevel`, with its answer -/
  | rd (p : Pin) (v : Bool)
  /-- `Dly(n)`: `delayMicroseconds` -/
  | dly (n : Nat)
  deriving DecidableEq, Repr

/-- The response codes (rules R99, R191). -/
inductive Code where
  | ok | notReady | invalidAddress | illegal
  deriving DecidableEq, Repr

/-- The response `RSP` (rule R99). -/
structure Response where
  code : Code
  data : Byte
  deriving DecidableEq, Repr

/-- The routines that have a frame of their own on `SEQ`, with their operands (rules R30, R31). The routines of level
L0, `ControllerReset`, `NewlinePath` and `WrapPath` are steps of their caller's frame (log 10). -/
inductive Routine where
  | init (attributes : Byte)
  | clear
  | home
  | gotoXY (col : Byte) (row : Nat)
  | printChar (ch : Byte)
  | writeCommand (b : Byte)
  | writeData (b : Byte)
  | readStatus
  | waitReady
  | writeByte (rs : Bool) (b : Byte)
  | readByte (rs : Bool)
  deriving DecidableEq, Repr

/-- One frame of `SEQ`: a routine and the number of its next step (rule R30). -/
structure Frame where
  routine : Routine
  step : Nat
  deriving DecidableEq, Repr

/-- Why the machine stops with a fault. The spec has no such stop (rule R190); this one closes the step function. -/
inductive Fault where
  /-- Raised by the sequencer when the top frame of `SEQ` names a step its routine does not have. Safe: no run reaches
  such a state (log 17). -/
  | noSuchStep
  deriving DecidableEq, Repr

/-- Why an instruction is refused. -/
inductive Refusal where
  /-- Raised by `exec` for an instruction that has no meaning yet; safe. No arm raises it now. -/
  | notModelled (mnemonic : String)
  deriving DecidableEq, Repr

/-- The state: the four parts of rule R20 (configuration, pins, transient registers, sequencer), the command port of
rule R95, and the model's own record of a `Print` in progress, of what the environment answers and of the events
emitted. -/
structure State where
  /-- the configuration, never written (rule R34) -/
  cfg : Configuration
  /-- `DIR` (rule R21) -/
  dir : Bank Dir
  /-- `LAT` (rule R22) -/
  lat : Bank Level
  /-- `DREG` (rule R26) -/
  dreg : Byte
  /-- `SREG` (rule R27); bit 7 is the busy flag (rule R33) -/
  sreg : Byte
  /-- `POS` (rule R28) -/
  pos : Byte
  /-- `PCNT` (rule R29, log 11) -/
  pcnt : Nat
  /-- `SEQ`, top frame first; empty is `IDLE` (rule R30) -/
  seq : List Frame
  /-- `RSP` while `rsp_valid` (rule R95, log 5) -/
  rsp : Option Response
  /-- the words the host presents, in order; `cmd_valid` while there is one (rule R95, log 5) -/
  cmds : List Request
  /-- the model's own: the characters a `Print` in progress has still to send (rule R173, log 22) -/
  text : List Byte
  /-- the model's own: the answers to the next `Rd` events (rule R62, log 3) -/
  answers : List Bool
  /-- the model's own: how many `Rd` events have been answered (log 3) -/
  draws : Nat
  /-- the model's own: the events emitted, oldest first (rules R12, R13, log 4) -/
  trace : List Event
  deriving DecidableEq, Repr

/-- The same value for every pin. -/
def allPins {α : Type} (a : α) : Bank α := ⟨a, a, a, a, a, a, a⟩

/-- The machine right after its reset, which is construction (rules R40, R220): `SEQ` is `IDLE`, pins unspecified, no
event, default configuration. The transient registers are unspecified in the spec and zero here (DESIGN CHOICE,
log 1). -/
def State.reset : State where
  cfg := Config.default
  dir := allPins .unspecified
  lat := allPins .unspecified
  dreg := 0
  sreg := 0
  pos := 0
  pcnt := 0
  seq := []
  rsp := none
  cmds := []
  text := []
  answers := []
  draws := 0
  trace := []

end Sys2Proof.Machine
end

