-- ==== Sys2Proof/Machine/Flags.lean ====
section
/-! DEFINITION. The fields of a status byte: the one condition the block tests (rules R33, R86, R151). -/

namespace Sys2Proof.Machine

/-- `BF`: bit 7 of a status byte (rule R86). -/
def busyFlag (s : Byte) : Bool := s.getLsbD 7

/-- `AC`: bits 6 to 0 of a status byte, "the current address" (rules R86, R151). -/
def currentAddress (s : Byte) : Address := s.extractLsb' 0 7

end Sys2Proof.Machine
end

