-- ==== Sys2Proof/Machine/Operands.lean ====
section
/-! DEFINITION. Operand assembly: nibbles and bytes (rules R82 to R85), the set-address byte (rule R92), line bases and
the boundaries of the newline and wrap tests (rules R169, R171, R174). -/

namespace Sys2Proof.Machine

/-- `b[7:4]` (rule R85). -/
def highNibble (b : Byte) : Nibble := b.extractLsb' 4 4

/-- `b[3:0]` (rule R85). -/
def lowNibble (b : Byte) : Nibble := b.extractLsb' 0 4

/-- `{hi, lo}` (rule R85). -/
def joinNibbles (hi lo : Nibble) : Byte := hi ++ lo

/-- `{v3, v2, v1, v0}`: the levels of `DB7`, `DB6`, `DB5`, `DB4` as a nibble (rule R82). -/
def nibbleOf (v3 v2 v1 v0 : Bool) : Nibble :=
  BitVec.ofBool v3 ++ BitVec.ofBool v2 ++ BitVec.ofBool v1 ++ BitVec.ofBool v0

/-- `r[i] <- v` on a byte. -/
def withBit (r : Byte) (i : Nat) (v : Bool) : Byte :=
  if v then r ||| (1 : Byte) <<< i else r &&& ~~~((1 : Byte) <<< i)

/-- The level of a bit value: high is 1, low is 0 (rule R82). -/
def levelOf (v : Bool) : Level := if v then .high else .low

/-- `Set(p, v)` abbreviates `Hi(p)` or `Lo(p)` (rule R12). -/
def setEvent (p : Pin) (v : Bool) : Event := if v then .hi p else .lo p

/-- The set-address byte `(CMD_SET_DDRAM + a) mod 256`, an 8-bit sum, neither masked nor checked (rule R92). -/
def setAddressByte (cfg : Configuration) (a : Byte) : Byte := cfg.cmdSetDdram + a

/-- The line base as a byte: `row = 0` is line 1, any other row line 2 (rule R166). -/
def lineBase (cfg : Configuration) (row : Nat) : Byte :=
  if row = 0 then cfg.line1Base.zeroExtend 8 else cfg.line2Base.zeroExtend 8

/-- The byte `GotoXY` sends: `(CMD_SET_DDRAM + base + col) mod 256` (rule R166). -/
def gotoByte (cfg : Configuration) (col : Byte) (row : Nat) : Byte :=
  cfg.cmdSetDdram + lineBase cfg row + col

/-- The bounds test of the hardened `GotoXY`: `col >= LINE_LENGTH` (rule R167). -/
def outOfBounds (cfg : Configuration) (col : Byte) : Bool :=
  cfg.checkBounds && decide (cfg.lineLength ≤ col.toNat)

/-- The line test of the newline path: "current address is before line-2's base" (rule R169). -/
def beforeLine2 (cfg : Configuration) (a : Address) : Bool := decide (a.toNat < cfg.line2Base.toNat)

/-- The byte the newline path sends: to line 2 from before its base, else to line 1 (rule R169). -/
def newlineByte (cfg : Configuration) (a : Address) : Byte :=
  setAddressByte cfg (lineBase cfg (if beforeLine2 cfg a then 1 else 0))

/-- What the wrap test finds: no boundary, the end of line 1, or the end of line 2 (rule R171). -/
inductive WrapCase where
  | noWrap | endOfLine1 | endOfLine2
  deriving DecidableEq, Repr

/-- The wrap test: equality with `LINE1_BASE + LINE_LENGTH`, then with `LINE2_BASE + LINE_LENGTH`, the sums as natural
numbers (rule R171, C2, log 14); no test with `WRAP` off (rule R168). -/
def wrapCase (cfg : Configuration) (a : Address) : WrapCase :=
  if cfg.wrap then
    if a.toNat = cfg.line1Base.toNat + cfg.lineLength then .endOfLine1
    else if a.toNat = cfg.line2Base.toNat + cfg.lineLength then .endOfLine2
    else .noWrap
  else .noWrap

/-- The number of a response code (rule R99). -/
def Code.bits : Code → BitVec 2
  | .ok => 0
  | .notReady => 1
  | .invalidAddress => 2
  | .illegal => 3

/-- `RSP[9:0] = {code, data}` (rule R99). -/
def Response.bits (r : Response) : BitVec 10 := r.code.bits ++ r.data

end Sys2Proof.Machine
end

