-- ==== Sys2Proof/Machine/Ops.lean ====
section
/-! DEFINITION. The shared operations over the state: emitting events, drawing answers, frames of `SEQ`, ending an
operation with a response, and raising a failure. -/

namespace Sys2Proof

/-- The value of one pin. -/
def Bank.get {α : Type} (b : Bank α) : Pin → α
  | .e => b.e
  | .rs => b.rs
  | .rw => b.rw
  | .db7 => b.db7
  | .db6 => b.db6
  | .db5 => b.db5
  | .db4 => b.db4

/-- One pin set to a value. -/
def Bank.set {α : Type} (b : Bank α) (p : Pin) (a : α) : Bank α :=
  match p with
  | .e => { b with e := a }
  | .rs => { b with rs := a }
  | .rw => { b with rw := a }
  | .db7 => { b with db7 := a }
  | .db6 => { b with db6 := a }
  | .db5 => { b with db5 := a }
  | .db4 => { b with db4 := a }

namespace Machine

/-! ### Events (rules R12, R21, R22) -/

/-- `DIR` after an event: only `Out` and `In` change it (rule R21). -/
def Event.dirAfter (ev : Event) (d : Bank Dir) : Bank Dir :=
  match ev with
  | .out p => d.set p .out
  | .inp p => d.set p .inp
  | .hi _ => d
  | .lo _ => d
  | .rd _ _ => d
  | .dly _ => d

/-- `LAT` after an event: only `Hi` and `Lo` change it (rule R22). -/
def Event.latAfter (ev : Event) (l : Bank Level) : Bank Level :=
  match ev with
  | .out _ => l
  | .inp _ => l
  | .hi p => l.set p .high
  | .lo p => l.set p .low
  | .rd _ _ => l
  | .dly _ => l

/-- `emit X`: the event takes effect on the pins and is appended to the trace (rule R14). -/
def State.emit (s : State) (ev : Event) : State :=
  { s with dir := ev.dirAfter s.dir, lat := ev.latAfter s.lat, trace := s.trace ++ [ev] }

/-- Several events in order. -/
def State.emitAll (s : State) (evs : List Event) : State := evs.foldl State.emit s

/-! ### Draws (rule R62) -/

/-- The answer to the next `Rd` event: the next one State holds, else a free value (log 3). -/
def State.answer (s : State) : Bool :=
  match s.answers with
  | v :: _ => v
  | [] => Config.rdLevel s.draws

/-- `emit Rd(p)`: the event with its answer, which is used up (rules R12, R62). -/
def State.rd (s : State) (p : Pin) : State :=
  State.emit { s with answers := s.answers.tail, draws := s.draws + 1 } (.rd p s.answer)

/-! ### Frames of `SEQ`, responses and failures (rules R30, R32, R95, R99, R191) -/

/-- `cmd_ready`: the block is `IDLE` (rules R30, R95). -/
def State.idle (s : State) : Bool := s.seq.isEmpty

/-- The next step of a frame (rule R32). -/
def Frame.next (f : Frame) : Frame := { f with step := f.step + 1 }

/-- A call step pushes the frame `(callee, 0)` (rule R32); `WriteByte` takes its byte into `DREG` at its start (rule
R26). -/
def State.call (s : State) (r : Routine) (callers : List Frame) : State :=
  { s with
    seq := ⟨r, 0⟩ :: callers
    dreg := match r with
      | .writeByte _ b => b
      | _ => s.dreg }

/-- The block accepts an operation: the response of the last one is withdrawn (rule R95, log 5). -/
def State.accept (s : State) : State := { s with rsp := none }

/-- An accepted operation whose outermost frame is pushed and whose first step is next (rules R30, R32). -/
def State.start (s : State) (r : Routine) : State := s.accept.call r []

/-- `RSP.data`: the status byte for `RDSTAT`, otherwise 0x00 (rule R99). -/
def State.responseData (s : State) (r : Routine) : Byte :=
  match r with
  | .readStatus => s.sreg
  | _ => 0

/-- The outermost routine is done: the block is `IDLE` and gives its answer to the host (rule R32). -/
def State.complete (s : State) (r : Routine) : State :=
  { s with seq := [], rsp := some ⟨.ok, s.responseData r⟩ }

/-- `raise K`: the running operation and every frame under it end at once, no further event, and the host gets the
code with `RSP.data = 0x00` (rule R191). Every failure of the block is taken through this one operation. -/
def State.raise (s : State) (k : Code) : State := { s with seq := [], rsp := some ⟨k, 0⟩ }

/-- `PCNT <- 0`, only if `MAX_POLL` is a number (rule R143 step G0). -/
def State.zeroCount (s : State) : State :=
  { s with pcnt := match s.cfg.maxPoll with
      | none => s.pcnt
      | some _ => 0 }

/-- `PCNT <- PCNT + 1`, only if `MAX_POLL` is a number (rule R146). -/
def State.countPoll (s : State) : State :=
  { s with pcnt := match s.cfg.maxPoll with
      | none => s.pcnt
      | some _ => s.pcnt + 1 }

/-- The timeout test after a busy poll: `PCNT == N` (rule R146); never with `MAX_POLL = none`. -/
def State.timedOut (s : State) : Bool := s.cfg.maxPoll == some s.pcnt

/-- What running an operation to its end on the answers State holds comes to. -/
inductive Progress where
  /-- the routine ended -/
  | done (s : State)
  /-- the routine raised a failure -/
  | failed (k : Code) (s : State)
  /-- the answers State holds do not say how a gate ends -/
  | undetermined
  deriving DecidableEq, Repr

/-- The next routine of a straight line (rule R14). -/
def Progress.andThen (p : Progress) (f : State → Progress) : Progress :=
  match p with
  | .done s => f s
  | .failed k s => .failed k s
  | .undetermined => .undetermined

/-- Running an operation of routine `r` (rules R59, R70, log 6). In `IDLE` it runs to its end, or to its failure, where
the answers State holds determine every gate; where they do not, it is accepted and `SEQ` then steps through it one
event at a time. Outside `IDLE` no command is accepted and nothing changes (log 16). -/
def State.operate (s : State) (r : Routine) (p : State → Progress) : Host.Outcome State Fault Refusal :=
  if s.idle then
    match p s.accept with
    | .done t => .next (t.complete r)
    | .failed k t => .next (t.raise k)
    | .undetermined => .next (s.start r)
  else .next s

end Machine

end Sys2Proof
end

