-- ==== Sys2Proof/Machine/Acceptance.lean ====
section
/-! DEFINITION. The command port, which stands where instruction fetch stands (rules R70, R95). -/

namespace Sys2Proof.Machine

/-- The presented word is accepted and gone from the port. -/
def State.takeCommand (s : State) : State := { s with cmds := s.cmds.tail }

/-- A word is presented and the block is `IDLE`: `cmd_valid` and `cmd_ready` are both true (rule R95). The host presents a
word only in `IDLE` (rule R208), so no rule says what this does to a block that still runs: the model empties `SEQ` and
drops the rest of a `Print`, so that the very next step takes the word (DESIGN CHOICE, log 25). -/
def State.present (s : State) (r : Request) : State := { s with seq := [], text := [], cmds := r :: s.cmds }

/-- The block refuses a reserved word: "it emits no event, changes no state and answers `RSP.code = 3`" (rule R98). -/
def State.refuse (s : State) : State := s.takeCommand.raise .illegal

end Sys2Proof.Machine
end

