-- ==== Sys2Proof/Machine/BusPrimitives.lean ====
section
/-! DEFINITION. Levels L0 and L1 (`spec/40_bus_primitives.md`): nibble framing, the enable strobe, whole bytes; and the
four cycle kinds of the opcode table. -/

namespace Sys2Proof.Machine

/-! ### Level L0 -/

/-- `Select(rs)` (rule R111). -/
def select (rs : Bool) (s : State) : State := s.emit (setEvent .rs rs)

/-- `DataOut()` (rule R112). -/
def dataOut (s : State) : State := s.emitAll [.out .db7, .out .db6, .out .db5, .out .db4]

/-- `DataIn()` (rule R113). -/
def dataIn (s : State) : State := s.emitAll [.inp .db7, .inp .db6, .inp .db5, .inp .db4]

/-- `Strobe()` (rule R114). -/
def strobe (s : State) : State := s.emitAll [.hi .e, .dly s.cfg.tStrobe, .lo .e, .dly s.cfg.tStrobe]

/-- `DriveNibble(n)` (rule R115). -/
def driveNibble (n : Nibble) (s : State) : State :=
  s.emitAll [setEvent .db7 (n.getLsbD 3), setEvent .db6 (n.getLsbD 2), setEvent .db5 (n.getLsbD 1),
    setEvent .db4 (n.getLsbD 0)]

/-- `PutNibble(n)` (rule R116). -/
def putNibble (n : Nibble) (s : State) : State := strobe (driveNibble n s)

/-- `IdleHigh()` (rule R117). -/
def idleHigh (s : State) : State := s.emitAll [.hi .db7, .hi .db6, .hi .db5, .hi .db4]

/-- `GetNibble()` (rule R118): the nibble sampled and the state after. -/
def getNibble (s : State) : Nibble × State :=
  let s0 := s.emitAll [.hi .e, .dly s.cfg.tStrobe]
  let s1 := s0.rd .db7
  let s2 := s1.rd .db6
  let s3 := s2.rd .db5
  let s4 := s3.rd .db4
  (nibbleOf s0.answer s1.answer s2.answer s3.answer, s4.emitAll [.lo .e, .dly s.cfg.tStrobe])

/-! ### Level L1 -/

/-- `WriteByte(rs, b)` (rule R120). -/
def writeByte (rs : Bool) (b : Byte) (s : State) : State :=
  let s := { s with dreg := b }
  let s := select rs s
  let s := s.emit (.lo .rw)
  let s := dataOut s
  let s := putNibble (highNibble s.dreg) s
  let s := putNibble (lowNibble s.dreg) s
  idleHigh s

/-- `ReadByte(rs)` (rule R122); its result is `SREG`. -/
def readByte (rs : Bool) (s : State) : State :=
  let s := select rs s
  let s := dataIn s
  let s := s.emit (.hi .rw)
  let (hi, s) := getNibble s
  let s := { s with sreg := joinNibbles hi (lowNibble s.sreg) }
  let (lo, s) := getNibble s
  { s with sreg := joinNibbles (highNibble s.sreg) lo }

/-! ### The cycle kinds of rule R81 as instructions (log 7) -/

/-- `BUS.WI`: `WriteByte(0, b)` (rule R120). -/
def execBusWi (b : Byte) (s : State) : Host.Outcome State Fault Refusal :=
  s.operate (.writeByte false b) fun s => .done (writeByte false b s)

/-- `BUS.WD`: `WriteByte(1, b)` (rule R120). -/
def execBusWd (b : Byte) (s : State) : Host.Outcome State Fault Refusal :=
  s.operate (.writeByte true b) fun s => .done (writeByte true b s)

/-- `BUS.RS`: `ReadByte(0)` (rule R122). -/
def execBusRs (s : State) : Host.Outcome State Fault Refusal :=
  s.operate (.readByte false) fun s => .done (readByte false s)

/-- `BUS.RD`: `ReadByte(1)` (rule R122). -/
def execBusRd (s : State) : Host.Outcome State Fault Refusal :=
  s.operate (.readByte true) fun s => .done (readByte true s)

end Sys2Proof.Machine
end

