-- ==== Sys2Proof/Machine/ControllerBytes.lean ====
section
/-! DEFINITION. The controller instruction bytes of rule R90 as instructions: "Every row is a write-instruction
transaction `W(0, byte)`" (log 7). The byte is the configured one (log 23). -/

namespace Sys2Proof.Machine

/-- `LCD.CLEAR`: `W(0, CMD_CLEAR)` (rule R90). -/
def execLcdClear (s : State) : Host.Outcome State Fault Refusal :=
  s.operate (.writeByte false s.cfg.cmdClear) fun s => .done (writeByte false s.cfg.cmdClear s)

/-- `LCD.HOME`: `W(0, CMD_HOME)` (rule R90). -/
def execLcdHome (s : State) : Host.Outcome State Fault Refusal :=
  s.operate (.writeByte false s.cfg.cmdHome) fun s => .done (writeByte false s.cfg.cmdHome s)

/-- `LCD.ENTRY`: `W(0, CMD_ENTRY_DEFAULT)` (rule R90). -/
def execLcdEntry (s : State) : Host.Outcome State Fault Refusal :=
  s.operate (.writeByte false s.cfg.cmdEntry) fun s => .done (writeByte false s.cfg.cmdEntry s)

/-- `LCD.DISPLAY`: `W(0, 00001dcb)` (rules R90, R91). -/
def execLcdDisplay (d c b : Bool) (s : State) : Host.Outcome State Fault Refusal :=
  s.operate (.writeByte false (displayByte d c b)) fun s => .done (writeByte false (displayByte d c b) s)

/-- `LCD.FUNCTION`: `W(0, CMD_FUNCTION_DEFAULT)` (rule R90). -/
def execLcdFunction (s : State) : Host.Outcome State Fault Refusal :=
  s.operate (.writeByte false s.cfg.cmdFunction) fun s => .done (writeByte false s.cfg.cmdFunction s)

/-- `LCD.SETDDRAM`: `W(0, (CMD_SET_DDRAM + a) mod 256)` (rule R92). -/
def execLcdSetddram (a : Address) (s : State) : Host.Outcome State Fault Refusal :=
  s.operate (.writeByte false (setAddressByte s.cfg (a.zeroExtend 8))) fun s =>
    .done (writeByte false (setAddressByte s.cfg (a.zeroExtend 8)) s)

end Sys2Proof.Machine
end

