-- ==== Sys2Proof/Machine/BusyGate.lean ====
section
/-! DEFINITION. Level L2 (`spec/41_busy_gate.md`): the busy-flag poll, the settle and the re-read, and the three gated
operations. -/

namespace Sys2Proof.Machine

/-- The answers State holds cover a whole status read. -/
def State.holdsStatus (s : State) : Bool := decide (8 ≤ s.answers.length)

/-- A status read on the answers State holds. -/
def readHeldStatus (s : State) : Progress :=
  if s.holdsStatus then .done (readByte false s) else .undetermined

/-- Steps G3 to G5: the settle delay and the one re-read, whose busy flag is not tested (rules R142, R143). -/
def settleAndReread (s : State) : Progress := readHeldStatus (s.emit (.dly s.cfg.tSettle))

/-- Steps G1 and G2: poll until `BF` is 0 (rule R141), with the timeout of rule R146. `fuel` bounds the polls by the
answers State holds, never by a rule (rule R152): where they run out the gate is undetermined. -/
def pollLoop : Nat → State → Progress
  | 0, _ => .undetermined
  | fuel + 1, s =>
    (readHeldStatus s).andThen fun s =>
      if busyFlag s.sreg then
        if s.countPoll.timedOut then .failed .notReady s.countPoll else pollLoop fuel s.countPoll
      else settleAndReread s

/-- `WaitReady()` (rule R143); its result is `SREG`. -/
def waitReady (s : State) : Progress := pollLoop s.answers.length s.zeroCount

/-- `WriteCommand(b)` (rule R148). -/
def writeCommand (b : Byte) (s : State) : Progress :=
  (waitReady s).andThen fun s => .done (writeByte false b s)

/-- `WriteData(b)` (rule R149). -/
def writeData (b : Byte) (s : State) : Progress :=
  (waitReady s).andThen fun s => .done (writeByte true b s)

/-- `WRCMD` (rule R148). -/
def execWrcmd (b : Byte) (s : State) : Host.Outcome State Fault Refusal :=
  s.operate (.writeCommand b) (writeCommand b)

/-- `WRDATA` (rule R149). -/
def execWrdata (b : Byte) (s : State) : Host.Outcome State Fault Refusal :=
  s.operate (.writeData b) (writeData b)

/-- `RDSTAT` (rule R150): the response carries the status byte of the re-read. -/
def execRdstat (s : State) : Host.Outcome State Fault Refusal :=
  s.operate .readStatus waitReady

end Sys2Proof.Machine
end

