-- ==== Sys2Proof/Machine/TextApi.lean ====
section
/-! DEFINITION. Level L3 (`spec/42_text_api.md`): the API operations. -/

namespace Sys2Proof.Machine

/-! ### Initialize (rules R160, R161) -/

/-- Step I1: the seven pins become outputs. -/
def pinsOut (s : State) : State :=
  s.emitAll [.out .e, .out .rs, .out .rw, .out .db7, .out .db6, .out .db5, .out .db4]

/-- Step I2: the control pins go low. -/
def controlLow (s : State) : State := s.emitAll [.lo .e, .lo .rs, .lo .rw]

/-- `ControllerReset()`: single half-cycles, ungated, each followed by its delay (rule R161). -/
def controllerReset : List (Nibble × Nat) → State → State
  | [], s => s
  | (n, d) :: rest, s => controllerReset rest ((putNibble n s).emit (.dly d))

/-- Steps I1 to I4, which never look at the bus (rule R163). -/
def initPins (s : State) : State :=
  let s := pinsOut s
  let s := controlLow s
  let s := s.emit (.dly s.cfg.tPowerOn)
  controllerReset s.cfg.resetSeq s

/-- `Initialize(attributes)` (rule R160). -/
def initAll (attributes : Byte) (s : State) : Progress :=
  (Progress.done (initPins s)).andThen fun s =>
  (writeCommand s.cfg.cmdFunction s).andThen fun s =>
  (writeCommand s.cfg.cmdClear s).andThen fun s =>
  (writeCommand s.cfg.cmdEntry s).andThen fun s =>
  writeCommand attributes s

/-- `INIT` (rule R160). -/
def execInit (attributes : Byte) (s : State) : Host.Outcome State Fault Refusal :=
  s.operate (.init attributes) (initAll attributes)

/-! ### Clear, Home, GotoXY -/

/-- `CLEAR` (rule R164). -/
def execClear (s : State) : Host.Outcome State Fault Refusal :=
  s.operate .clear fun s => writeCommand s.cfg.cmdClear s

/-- `HOME` (rule R165). -/
def execHome (s : State) : Host.Outcome State Fault Refusal :=
  s.operate .home fun s => writeCommand s.cfg.cmdHome s

/-- `GotoXY(col, row)` with the optional bounds check (rules R166, R167). -/
def gotoXY (col : Byte) (row : Nat) (s : State) : Progress :=
  if outOfBounds s.cfg col then .failed .invalidAddress s
  else writeCommand (gotoByte s.cfg col row) s

/-- `GOTOXY` (rules R166, R167). -/
def execGotoxy (col : Byte) (row : Nat) (s : State) : Host.Outcome State Fault Refusal :=
  s.operate (.gotoXY col row) (gotoXY col row)

/-! ### PrintChar -/

/-- `NewlinePath(a)`: a gated set-address (rule R169). -/
def newlinePath (a : Address) (s : State) : Progress := writeCommand (newlineByte s.cfg a) s

/-- `WrapPath(a)`: on a boundary a silent set-address to the other line and then a gate (rule R171). -/
def wrapPath (a : Address) (s : State) : Progress :=
  match wrapCase s.cfg a with
  | .noWrap => .done s
  | .endOfLine1 => waitReady (writeByte false (setAddressByte s.cfg (lineBase s.cfg 1)) s)
  | .endOfLine2 => waitReady (writeByte false (setAddressByte s.cfg (lineBase s.cfg 0)) s)

/-- `POS <- call WaitReady()`'s assignment (rule R168 step P0). -/
def State.takePosition (s : State) : State := { s with pos := s.sreg }

/-- `PrintChar(ch)` (rule R168). -/
def printChar (ch : Byte) (s : State) : Progress :=
  (waitReady s).andThen fun s =>
    let s := s.takePosition
    let a := currentAddress s.pos
    if ch = s.cfg.chNewline then newlinePath a s
    else (wrapPath a s).andThen fun s => .done (writeByte true ch s)

/-- `PUTC` (rule R168). -/
def execPutc (ch : Byte) (s : State) : Host.Outcome State Fault Refusal :=
  s.operate (.printChar ch) (printChar ch)

/-! ### Print (rule R173), a pseudo-instruction -/

/-- The last operation ended with `Ok`. -/
def State.answeredOk (s : State) : Bool :=
  s.idle && match s.rsp with
    | some r => r.code == .ok
    | none => false

/-- `Print(text)`: `PrintChar` for every character in order; the first failure ends the sequence and "the remaining
characters are not sent" (rule R173). Where the answers State holds do not determine a character's gate, its operation
runs in `SEQ` and the rest of the text waits in `text` for its end (log 22). A block that is not `IDLE` takes no
operation (rule R70, log 16). An idle block in which the text of an earlier `Print` still waits is between two characters of
it, and a second operation there has no meaning in the spec (rule R239): the model runs the new text at once; if a character
of it only starts, the rest of the new text takes the place of the waiting one, else the waiting one goes on after an `Ok`
or is dropped after a failure (DESIGN CHOICE, log 28). -/
def execPrint : List Byte → State → Host.Outcome State Fault Refusal
  | [], s => .next s
  | ch :: rest, s =>
    if s.idle then
      match execPutc ch s with
      | .next t =>
        if t.answeredOk then execPrint rest t
        else if t.idle then .next t
        else .next { t with text := rest }
      | .fault r => .fault r
      | .refused r => .refused r
    else .next s

/-- The next character of a `Print` in progress, once the block is `IDLE` again: sent after an `Ok`; after a failure the
remaining characters are not sent (rule R173). -/
def State.printNext (s : State) : Host.Outcome State Fault Refusal :=
  match s.text with
  | [] => .next s
  | ch :: rest => if s.answeredOk then execPutc ch { s with text := rest } else .next { s with text := [] }

end Sys2Proof.Machine
end

