-- ==== Sys2Proof/Machine/Dispatch.lean ====
section
/-! DEFINITION. One arm for each instruction. -/

namespace Sys2Proof.Machine

def exec (i : Instr) (s : State) : Host.Outcome State Fault Refusal :=
  match i with
  | .init attributes => Sys2Proof.Machine.execInit attributes s
  | .clear => Sys2Proof.Machine.execClear s
  | .home => Sys2Proof.Machine.execHome s
  | .gotoxy col row => Sys2Proof.Machine.execGotoxy col row s
  | .putc ch => Sys2Proof.Machine.execPutc ch s
  | .wrcmd b => Sys2Proof.Machine.execWrcmd b s
  | .wrdata b => Sys2Proof.Machine.execWrdata b s
  | .rdstat => Sys2Proof.Machine.execRdstat s
  | .busWi b => Sys2Proof.Machine.execBusWi b s
  | .busWd b => Sys2Proof.Machine.execBusWd b s
  | .busRs => Sys2Proof.Machine.execBusRs s
  | .busRd => Sys2Proof.Machine.execBusRd s
  | .lcdClear => Sys2Proof.Machine.execLcdClear s
  | .lcdHome => Sys2Proof.Machine.execLcdHome s
  | .lcdEntry => Sys2Proof.Machine.execLcdEntry s
  | .lcdDisplay d c b => Sys2Proof.Machine.execLcdDisplay d c b s
  | .lcdFunction => Sys2Proof.Machine.execLcdFunction s
  | .lcdSetddram a => Sys2Proof.Machine.execLcdSetddram a s

end Sys2Proof.Machine
end

