-- ==== Sys2Proof/Machine/Sequencer.lean ====
section
/-! DEFINITION. The sequencer `SEQ` step by step (rules R30 to R32, R126, R143, R145): the step list of every routine,
and what one step does. A run of these steps emits the same events as the operation run to its end. -/

namespace Sys2Proof.Machine

/-- One step of a step list: "either one event, or one call, or one branch" (rule R32). -/
inductive Action where
  /-- an event fixed by the routine's operands and the configuration -/
  | event (ev : Event)
  /-- `Set(p, DREG[bit])` (rule R126) -/
  | drive (p : Pin) (bit : Nat)
  /-- `Rd(p)` into `SREG[bit]` (rule R126) -/
  | sample (p : Pin) (bit : Nat)
  /-- a call -/
  | call (r : Routine)
  /-- G0 of `WaitReady` (rule R143) -/
  | zeroCount
  /-- G2 of `WaitReady`: the busy test with the timeout test in it (rules R143, R146) -/
  | busyTest
  /-- the bounds test of `GotoXY` (rule R167) -/
  | boundsTest (col : Byte)
  /-- the newline test of `PrintChar` (rule R168) -/
  | newlineTest (ch : Byte)
  /-- the line test of the newline path (rule R169) -/
  | lineTest
  /-- the wrap test (rule R171) -/
  | wrapTest
  deriving DecidableEq, Repr

/-- The four events of `Set(DB7, n[3])` … `Set(DB4, n[0])` and the strobe, each as one step (rule R116). -/
def putNibbleSteps (cfg : Configuration) (n : Nibble) : List Action :=
  [.event (setEvent .db7 (n.getLsbD 3)), .event (setEvent .db6 (n.getLsbD 2)), .event (setEvent .db5 (n.getLsbD 1)),
    .event (setEvent .db4 (n.getLsbD 0)), .event (.hi .e), .event (.dly cfg.tStrobe), .event (.lo .e),
    .event (.dly cfg.tStrobe)]

/-- Steps of `ControllerReset` (rule R161). -/
def controllerResetSteps (cfg : Configuration) : List (Nibble × Nat) → List Action
  | [] => []
  | (n, d) :: rest => putNibbleSteps cfg n ++ [.event (.dly d)] ++ controllerResetSteps cfg rest

/-- Steps I1 to I8 (rule R160). -/
def initSteps (cfg : Configuration) (attributes : Byte) : List Action :=
  [.event (.out .e), .event (.out .rs), .event (.out .rw), .event (.out .db7), .event (.out .db6), .event (.out .db5),
    .event (.out .db4), .event (.lo .e), .event (.lo .rs), .event (.lo .rw), .event (.dly cfg.tPowerOn)]
  ++ controllerResetSteps cfg cfg.resetSeq
  ++ [.call (.writeCommand cfg.cmdFunction), .call (.writeCommand cfg.cmdClear), .call (.writeCommand cfg.cmdEntry),
    .call (.writeCommand attributes)]

/-- Steps W0 to W25 (rule R126). -/
def writeByteStep (cfg : Configuration) (rs : Bool) : Nat → Option Action
  | 0 => some (.event (setEvent .rs rs))
  | 1 => some (.event (.lo .rw))
  | 2 => some (.event (.out .db7))
  | 3 => some (.event (.out .db6))
  | 4 => some (.event (.out .db5))
  | 5 => some (.event (.out .db4))
  | 6 => some (.drive .db7 7)
  | 7 => some (.drive .db6 6)
  | 8 => some (.drive .db5 5)
  | 9 => some (.drive .db4 4)
  | 10 => some (.event (.hi .e))
  | 11 => some (.event (.dly cfg.tStrobe))
  | 12 => some (.event (.lo .e))
  | 13 => some (.event (.dly cfg.tStrobe))
  | 14 => some (.drive .db7 3)
  | 15 => some (.drive .db6 2)
  | 16 => some (.drive .db5 1)
  | 17 => some (.drive .db4 0)
  | 18 => some (.event (.hi .e))
  | 19 => some (.event (.dly cfg.tStrobe))
  | 20 => some (.event (.lo .e))
  | 21 => some (.event (.dly cfg.tStrobe))
  | 22 => some (.event (.hi .db7))
  | 23 => some (.event (.hi .db6))
  | 24 => some (.event (.hi .db5))
  | 25 => some (.event (.hi .db4))
  | _ => none

/-- Steps X0 to X21 (rule R126). -/
def readByteStep (cfg : Configuration) (rs : Bool) : Nat → Option Action
  | 0 => some (.event (setEvent .rs rs))
  | 1 => some (.event (.inp .db7))
  | 2 => some (.event (.inp .db6))
  | 3 => some (.event (.inp .db5))
  | 4 => some (.event (.inp .db4))
  | 5 => some (.event (.hi .rw))
  | 6 => some (.event (.hi .e))
  | 7 => some (.event (.dly cfg.tStrobe))
  | 8 => some (.sample .db7 7)
  | 9 => some (.sample .db6 6)
  | 10 => some (.sample .db5 5)
  | 11 => some (.sample .db4 4)
  | 12 => some (.event (.lo .e))
  | 13 => some (.event (.dly cfg.tStrobe))
  | 14 => some (.event (.hi .e))
  | 15 => some (.event (.dly cfg.tStrobe))
  | 16 => some (.sample .db7 3)
  | 17 => some (.sample .db6 2)
  | 18 => some (.sample .db5 1)
  | 19 => some (.sample .db4 0)
  | 20 => some (.event (.lo .e))
  | 21 => some (.event (.dly cfg.tStrobe))
  | _ => none

/-- Steps G0 to G4 (rule R143); G5 is the return. -/
def waitReadyStep (cfg : Configuration) : Nat → Option Action
  | 0 => some .zeroCount
  | 1 => some (.call (.readByte false))
  | 2 => some .busyTest
  | 3 => some (.event (.dly cfg.tSettle))
  | 4 => some (.call (.readByte false))
  | _ => none

/-- `WriteCommand` and `WriteData` (rules R148, R149). -/
def gatedWriteStep (rs : Bool) (b : Byte) : Nat → Option Action
  | 0 => some (.call .waitReady)
  | 1 => some (.call (.writeByte rs b))
  | _ => none

/-- `PrintChar` (rule R168), each path of its branches laid out in full: the plain character at 3; the wrap at the end
of line 1 at 5 and of line 2 at 9; the newline path at 13, with its two targets at 14 and 16. The numbers 4, 8, 12, 15
and 17 are the ends of the paths (log 10). -/
def printCharStep (cfg : Configuration) (ch : Byte) : Nat → Option Action
  | 0 => some (.call .waitReady)
  | 1 => some (.newlineTest ch)
  | 2 => some .wrapTest
  | 3 => some (.call (.writeByte true ch))
  | 5 => some (.call (.writeByte false (setAddressByte cfg (lineBase cfg 1))))
  | 6 => some (.call .waitReady)
  | 7 => some (.call (.writeByte true ch))
  | 9 => some (.call (.writeByte false (setAddressByte cfg (lineBase cfg 0))))
  | 10 => some (.call .waitReady)
  | 11 => some (.call (.writeByte true ch))
  | 13 => some .lineTest
  | 14 => some (.call (.writeCommand (setAddressByte cfg (lineBase cfg 1))))
  | 16 => some (.call (.writeCommand (setAddressByte cfg (lineBase cfg 0))))
  | _ => none

/-- The step list of a routine: its step of a number, and none at an end of the list. -/
def stepOf (cfg : Configuration) (r : Routine) (n : Nat) : Option Action :=
  match r with
  | .init attributes => (initSteps cfg attributes)[n]?
  | .clear => if n = 0 then some (.call (.writeCommand cfg.cmdClear)) else none
  | .home => if n = 0 then some (.call (.writeCommand cfg.cmdHome)) else none
  | .gotoXY col row =>
    if n = 0 then some (.boundsTest col)
    else if n = 1 then some (.call (.writeCommand (gotoByte cfg col row)))
    else none
  | .printChar ch => printCharStep cfg ch n
  | .writeCommand b => gatedWriteStep false b n
  | .writeData b => gatedWriteStep true b n
  | .readStatus => if n = 0 then some (.call .waitReady) else none
  | .waitReady => waitReadyStep cfg n
  | .writeByte rs _ => writeByteStep cfg rs n
  | .readByte rs => readByteStep cfg rs n

/-- The frame's step is one of its routine's list. -/
def Frame.live (cfg : Configuration) (f : Frame) : Bool := (stepOf cfg f.routine f.step).isSome

/-- What a caller does with the result of the call it stands at: `POS <- call WaitReady()` at step P0 of `PrintChar`
(rule R168); no other call's result is kept but in `SREG`. -/
def State.takeResult (s : State) (caller : Frame) : State :=
  match caller.routine, caller.step with
  | .printChar _, 0 => s.takePosition
  | _, _ => s

/-- "when the callee's last step is done its frame is popped and the caller's step is increased by 1. When the
outermost frame is popped the block is `IDLE` and gives its answer to the host" (rule R32). -/
def State.unwind (s : State) (f : Frame) : List Frame → State
  | [] => if f.live s.cfg then { s with seq := [f] } else s.complete f.routine
  | g :: callers =>
    if f.live s.cfg then { s with seq := f :: g :: callers }
    else (s.takeResult g).unwind g.next callers

/-- `pc <- n`: the top frame's step becomes `n` (rule R30). -/
def State.jump (s : State) (f : Frame) (callers : List Frame) (n : Nat) : State :=
  s.unwind { f with step := n } callers

/-- The step is done and the frame's step increases by 1 (rule R32). -/
def State.advance (s : State) (f : Frame) (callers : List Frame) : State := s.unwind f.next callers

/-- Where the wrap test goes (rule R171). -/
def wrapTarget : WrapCase → Nat
  | .noWrap => 3
  | .endOfLine1 => 5
  | .endOfLine2 => 9

/-- G2: ready goes on to the settle; busy counts the poll, and either times out or polls again (rules R143, R146). -/
def State.testBusy (s : State) (f : Frame) (callers : List Frame) : State :=
  if busyFlag s.sreg then
    if s.countPoll.timedOut then s.countPoll.raise .notReady else s.countPoll.jump f callers 1
  else s.jump f callers 3

/-- What one step does, for the top frame `f` and the frames under it. -/
def State.perform (s : State) (a : Action) (f : Frame) (callers : List Frame) : State :=
  match a with
  | .event ev => (s.emit ev).advance f callers
  | .drive p bit => (s.emit (setEvent p (s.dreg.getLsbD bit))).advance f callers
  | .sample p bit => State.advance { s.rd p with sreg := withBit s.sreg bit s.answer } f callers
  | .call r => s.call r (f :: callers)
  | .zeroCount => s.zeroCount.advance f callers
  | .busyTest => s.testBusy f callers
  | .boundsTest col => if outOfBounds s.cfg col then s.raise .invalidAddress else s.advance f callers
  | .newlineTest ch => s.jump f callers (if ch = s.cfg.chNewline then 13 else 2)
  | .lineTest => s.jump f callers (if beforeLine2 s.cfg (currentAddress s.pos) then 14 else 16)
  | .wrapTest => s.jump f callers (wrapTarget (wrapCase s.cfg (currentAddress s.pos)))

/-- One step of the running operation (rule R32). -/
def sequencerStep (s : State) : Host.Outcome State Fault Refusal :=
  match s.seq with
  | [] => .next s
  | f :: callers =>
    match stepOf s.cfg f.routine f.step with
    | some a => .next (s.perform a f callers)
    | none => .fault .noSuchStep

end Sys2Proof.Machine
end

