-- ==== Sys2Proof/Machine/Step.lean ====
section
/-! DEFINITION. One step of the machine. -/

namespace Sys2Proof.Machine

/-- While an operation runs, one step of its sequencer (rule R32). In `IDLE`, the next character of a `Print` in progress
(rule R173), else the acceptance of the presented command word (rules R70, R95): an instruction runs, a reserved word is
answered `Illegal` (rule R98). With no word presented the block does nothing (rule R207). -/
def step (s : State) : Host.Outcome State Fault Refusal :=
  match s.seq with
  | _ :: _ => sequencerStep s
  | [] =>
    match s.text with
    | _ :: _ => s.printNext
    | [] =>
      match s.cmds with
      | [] => .next s
      | r :: _ =>
        match decode r with
        | .instr i => exec i s.takeCommand
        | .reject _ => .next s.refuse

/-- The word of a table row presented at the port of an `IDLE` block. -/
def State.withFetchWord (s : State) (nbits w : Nat) : State := s.present (requestOf nbits w)

end Sys2Proof.Machine
end

