-- ==== Sys2Proof/Machine/BusView.lean ====
section
/-! DEFINITION. What a trace shows: the bus view (rule R67), the sum of the delays (rule R250), the calls to the
collaborators (rules R12, R203), the level on a wire (rule R23) and the signals of a logic realisation (rule R204). -/

namespace Sys2Proof.Machine

/-- One half-cycle as the controller sees it (rule R67): a write shows the nibble on the latches, a read the nibble
sampled. -/
inductive Half where
  | w (rs : Bool) (n : Nibble)
  | r (rs : Bool) (n : Nibble)
  /-- a strobe at which a latch it shows was never set, or a read with other samples than the four (log 20) -/
  | unspecified
  deriving DecidableEq, Repr

/-- The bit a level stands for, if it was set. -/
def Level.bit : Level → Option Bool
  | .low => some false
  | .high => some true
  | .unspecified => none

/-- `{LAT[DB7], LAT[DB6], LAT[DB5], LAT[DB4]}`. -/
def latchedNibble (l : Bank Level) : Option Nibble :=
  match l.db7.bit, l.db6.bit, l.db5.bit, l.db4.bit with
  | some a, some b, some c, some d => some (nibbleOf a b c d)
  | _, _, _, _ => none

/-- One strobe of a trace: the latches at its `Hi(E)`, and the samples taken before its `Lo(E)` (rule R67). -/
structure Strobe where
  lat : Bank Level
  samples : List (Pin × Bool)
  deriving DecidableEq, Repr

/-- The strobes of a trace that starts with the latches `lat`; `current` is the strobe in progress. -/
def strobesFrom (lat : Bank Level) (current : Option Strobe) : List Event → List Strobe
  | [] => []
  | .hi .e :: evs => strobesFrom (lat.set .e .high) (some ⟨lat, []⟩) evs
  | .lo .e :: evs =>
    match current with
    | some x => x :: strobesFrom (lat.set .e .low) none evs
    | none => strobesFrom (lat.set .e .low) none evs
  | .rd p v :: evs => strobesFrom lat (current.map fun x => { x with samples := x.samples ++ [(p, v)] }) evs
  | ev :: evs => strobesFrom (ev.latAfter lat) current evs

/-- The strobes of a trace that starts with the latches `lat` and outside a strobe. -/
def strobesOf (lat : Bank Level) (evs : List Event) : List Strobe := strobesFrom lat none evs

/-- What the controller is shown by a strobe: with `RW = 0` the nibble on the latches, with `RW = 1` the four answers in
the order `DB7, DB6, DB5, DB4` (rule R67). -/
def Strobe.half (x : Strobe) : Half :=
  match x.lat.rs.bit, x.lat.rw.bit with
  | some rs, some false =>
    match latchedNibble x.lat with
    | some n => .w rs n
    | none => .unspecified
  | some rs, some true =>
    match x.samples with
    | [(.db7, a), (.db6, b), (.db5, c), (.db4, d)] => .r rs (nibbleOf a b c d)
    | _ => .unspecified
  | _, _ => .unspecified

/-- The bus view of a trace that starts in the pin state `lat` (rule R67). -/
def busView (lat : Bank Level) (evs : List Event) : List Half := (strobesOf lat evs).map Strobe.half

/-- A whole transaction (rule R67). -/
inductive Transaction where
  | write (rs : Bool) (b : Byte)
  | read (rs : Bool) (b : Byte)
  deriving DecidableEq, Repr

/-- The two half-cycles of a transaction, the high nibble first (rule R83). -/
def Transaction.halves : Transaction → List Half
  | .write rs b => [.w rs (highNibble b), .w rs (lowNibble b)]
  | .read rs b => [.r rs (highNibble b), .r rs (lowNibble b)]

/-- The sum of the delays of a trace, in microseconds: a lower bound on its duration (rule R250). -/
def delaySum : List Event → Nat
  | [] => 0
  | .dly n :: evs => n + delaySum evs
  | _ :: evs => delaySum evs

/-- The least number of cycles a clocked realisation takes for `Dly(n)`: `ceil(n * CLK_HZ / 10^6)` (rule R251). -/
def delayCycles (cfg : Configuration) (n : Nat) : Nat := (n * cfg.clkHz + 999999) / 1000000

/-- A call of a collaborator's capability (rules R12, R202, R203), with the physical identifier. -/
inductive Call where
  | configureAsOutput (pin : Nat)
  | configureAsInput (pin : Nat)
  | setHigh (pin : Nat)
  | setLow (pin : Nat)
  | readLevel (pin : Nat) (answer : Bool)
  | delayMicroseconds (count : Nat)
  deriving DecidableEq, Repr

/-- The capability call an event is, on the wiring's pins (rules R11, R12). -/
def Event.call (wiring : Bank Nat) : Event → Call
  | .out p => .configureAsOutput (wiring.get p)
  | .inp p => .configureAsInput (wiring.get p)
  | .hi p => .setHigh (wiring.get p)
  | .lo p => .setLow (wiring.get p)
  | .rd p v => .readLevel (wiring.get p) v
  | .dly n => .delayMicroseconds n

/-- The calls the block has made, in order. -/
def State.calls (s : State) : List Call := s.trace.map (Event.call s.cfg.wiring)

/-- What is on the wire of a pin (rule R23). -/
inductive Wire where
  /-- the block drives it -/
  | driven (l : Level)
  /-- the block does not drive it -/
  | released
  /-- the pin's direction was never set, or it was an input and no level was set since -/
  | unknown
  deriving DecidableEq, Repr

/-- A level was set on the pin after it was last made an input. -/
def setSinceInput (p : Pin) (evs : List Event) : Bool :=
  evs.foldl (fun known ev =>
    if ev = .inp p then false
    else if ev = .hi p ∨ ev = .lo p then true
    else known) true

/-- The level on the wire of pin `p` is `LAT[p]` while `DIR[p] = out` (rule R23). Whether the platform keeps the latch
across a direction change is open (rule R23, entries U13 and N31), so the model says nothing of a pin that was an input
until a level is set on it again (DESIGN CHOICE, log 27). -/
def State.wire (s : State) (p : Pin) : Wire :=
  match s.dir.get p with
  | .out => if setSinceInput p s.trace then .driven (s.lat.get p) else .unknown
  | .inp => .released
  | .unspecified => .unknown

/-- The signals of one pin in a logic realisation: the output-enable bit and the output-data bit, none where not yet
set (rule R204). -/
def State.pinSignals (s : State) (p : Pin) : Option Bool × Option Bool :=
  (match s.dir.get p with
    | .out => some true
    | .inp => some false
    | .unspecified => none,
   (s.lat.get p).bit)

end Sys2Proof.Machine
end

