-- ==== Sys2Proof/Machine/Levels.lean ====
section
/-! DEFINITION. The four levels of rule R31. Level L0 has no frame of its own in `SEQ`: rule R126 numbers the steps of the
level L1 routines by events, and the step says in which routine of level L0 the block stands. The frames of level L0 are the
view computed here (log 10). -/

namespace Sys2Proof.Machine

/-- The number of a routine's level (rule R31). -/
def Routine.level : Routine → Nat
  | .init _ | .clear | .home | .gotoXY _ _ | .printChar _ => 3
  | .writeCommand _ | .writeData _ | .readStatus | .waitReady => 2
  | .writeByte _ _ | .readByte _ => 1

/-- The routines of level L0 (rule R31). -/
inductive NibbleRoutine where
  | select (rs : Bool)
  | dataOut
  | dataIn
  | driveNibble (n : Nibble)
  | strobe
  | putNibble (n : Nibble)
  | getNibble
  | idleHigh
  deriving DecidableEq, Repr

/-- A frame of level L0: a routine and the number of its next step (rule R30). -/
structure NibbleFrame where
  routine : NibbleRoutine
  step : Nat
  deriving DecidableEq, Repr

/-- The events of a routine of level L0, in order (rules R111 to R118); `v` is the answer to a `Rd`. The steps of
`PutNibble` are calls. -/
def NibbleRoutine.events (cfg : Configuration) (v : Bool) : NibbleRoutine → List Event
  | .select rs => [setEvent .rs rs]
  | .dataOut => [.out .db7, .out .db6, .out .db5, .out .db4]
  | .dataIn => [.inp .db7, .inp .db6, .inp .db5, .inp .db4]
  | .driveNibble n =>
    [setEvent .db7 (n.getLsbD 3), setEvent .db6 (n.getLsbD 2), setEvent .db5 (n.getLsbD 1),
      setEvent .db4 (n.getLsbD 0)]
  | .strobe => [.hi .e, .dly cfg.tStrobe, .lo .e, .dly cfg.tStrobe]
  | .putNibble _ => []
  | .getNibble =>
    [.hi .e, .dly cfg.tStrobe, .rd .db7 v, .rd .db6 v, .rd .db5 v, .rd .db4 v, .lo .e, .dly cfg.tStrobe]
  | .idleHigh => [.hi .db7, .hi .db6, .hi .db5, .hi .db4]

/-- The frames of `PutNibble(n)` at its `k`-th event: `DriveNibble` or `Strobe`, called by it (rule R116). -/
def putNibbleFrames (n : Nibble) (k : Nat) : List NibbleFrame :=
  if k < 4 then [⟨.driveNibble n, k⟩, ⟨.putNibble n, 0⟩] else [⟨.strobe, k - 4⟩, ⟨.putNibble n, 1⟩]

/-- The frames of level L0 at step `n` of `WriteByte(rs, b)` (rules R120, R126). -/
def writeByteNibbles (rs : Bool) (b : Byte) (n : Nat) : List NibbleFrame :=
  if n = 0 then [⟨.select rs, 0⟩]
  else if n = 1 then []
  else if n < 6 then [⟨.dataOut, n - 2⟩]
  else if n < 14 then putNibbleFrames (highNibble b) (n - 6)
  else if n < 22 then putNibbleFrames (lowNibble b) (n - 14)
  else if n < 26 then [⟨.idleHigh, n - 22⟩]
  else []

/-- The frames of level L0 at step `n` of `ReadByte(rs)` (rules R122, R126). -/
def readByteNibbles (rs : Bool) (n : Nat) : List NibbleFrame :=
  if n = 0 then [⟨.select rs, 0⟩]
  else if n < 5 then [⟨.dataIn, n - 1⟩]
  else if n = 5 then []
  else if n < 14 then [⟨.getNibble, n - 6⟩]
  else if n < 22 then [⟨.getNibble, n - 14⟩]
  else []

/-- The frames of level L0 at step `n` of `Initialize`: those of the half-cycles of `ControllerReset` (rules R160, R161). -/
def initNibbles (cfg : Configuration) (n : Nat) : List NibbleFrame :=
  if n < 11 then []
  else
    match cfg.resetSeq[(n - 11) / 9]? with
    | some (nibble, _) => if (n - 11) % 9 < 8 then putNibbleFrames nibble ((n - 11) % 9) else []
    | none => []

/-- The frames of level L0 a frame of `SEQ` stands within at its step, the innermost first. -/
def Frame.nibbleFrames (cfg : Configuration) (f : Frame) : List NibbleFrame :=
  match f.routine with
  | .writeByte rs b => writeByteNibbles rs b f.step
  | .readByte rs => readByteNibbles rs f.step
  | .init _ => initNibbles cfg f.step
  | .clear | .home | .gotoXY _ _ | .printChar _ | .writeCommand _ | .writeData _ | .readStatus | .waitReady => []

/-- The frames of level L0 that the block stands within. -/
def State.nibbleFrames (s : State) : List NibbleFrame :=
  match s.seq with
  | [] => []
  | f :: _ => f.nibbleFrames s.cfg

end Sys2Proof.Machine
end

