-- ==== Sys2Proof/Machine/Traces.lean ====
section
/-! DEFINITION. The terms claims are stated in: the traces of a whole write and a whole read spelled out event by event
(rules R120, R122, R126), what a gate is answered and what it emits (rules R143, R144), and the pins a write and a read
leave (rules R35, R36). Nothing here is called by the machine. -/

namespace Sys2Proof.Machine

/-! ### Answers -/

/-- The eight answers a status byte is, bit 7 first (rules R63, R84). -/
def bitsOf (b : Byte) : List Bool :=
  [b.getLsbD 7, b.getLsbD 6, b.getLsbD 5, b.getLsbD 4, b.getLsbD 3, b.getLsbD 2, b.getLsbD 1, b.getLsbD 0]

/-- The answers to successive reads that return these bytes. -/
def script (bytes : List Byte) : List Bool := bytes.flatMap bitsOf

/-- The answer to the `Rd` event `k` places ahead: the one State holds, else the free value (rule R62, log 3). -/
def State.levelAhead (s : State) (k : Nat) : Bool := (s.answers[k]?).getD (Config.rdLevel (s.draws + k))

/-- The two states differ only in how the answers ahead are given: held in State or drawn (rule R62, log 3). -/
def State.SameAhead (s t : State) : Prop := t = { s with answers := t.answers } ∧ ∀ k, s.levelAhead k = t.levelAhead k

/-- The byte the next eight `Rd` events will be answered, the high nibble first (rules R54, R55). -/
def State.byteAhead (s : State) : Byte :=
  joinNibbles (nibbleOf (s.levelAhead 0) (s.levelAhead 1) (s.levelAhead 2) (s.levelAhead 3))
    (nibbleOf (s.levelAhead 4) (s.levelAhead 5) (s.levelAhead 6) (s.levelAhead 7))

/-- What one gate is answered: the poll reads that showed busy, the one that showed ready, and the re-read. -/
structure Gate where
  polls : List Byte
  ready : Byte
  reread : Byte
  deriving DecidableEq, Repr

/-- The bytes of the gate's reads, in order. -/
def Gate.bytes (g : Gate) : List Byte := g.polls ++ [g.ready, g.reread]

/-- `MAX_POLL` allows this many busy polls in one gate: always with none, and fewer than `N` with `N` (rule R146). -/
def allowsPolls (cfg : Configuration) (k : Nat) : Bool :=
  match cfg.maxPoll with
  | none => true
  | some n => decide (k < n)

/-- The gate opens: its busy polls show `BF = 1` and are no more than `MAX_POLL` allows, and the next shows `BF = 0`
(rules R141, R146). Nothing is asked of the re-read. -/
def Gate.opens (cfg : Configuration) (g : Gate) : Bool :=
  g.polls.all busyFlag && !busyFlag g.ready && allowsPolls cfg g.polls.length

/-! ### Traces -/

/-- The 26 events of `WriteByte(rs, b)` (rule R126, left column). -/
def writeEvents (cfg : Configuration) (rs : Bool) (b : Byte) : List Event :=
  [setEvent .rs rs, .lo .rw, .out .db7, .out .db6, .out .db5, .out .db4,
    setEvent .db7 (b.getLsbD 7), setEvent .db6 (b.getLsbD 6), setEvent .db5 (b.getLsbD 5), setEvent .db4 (b.getLsbD 4),
    .hi .e, .dly cfg.tStrobe, .lo .e, .dly cfg.tStrobe,
    setEvent .db7 (b.getLsbD 3), setEvent .db6 (b.getLsbD 2), setEvent .db5 (b.getLsbD 1), setEvent .db4 (b.getLsbD 0),
    .hi .e, .dly cfg.tStrobe, .lo .e, .dly cfg.tStrobe,
    .hi .db7, .hi .db6, .hi .db5, .hi .db4]

/-- The 22 events of `ReadByte(rs)` answered `b` (rule R126, right column). -/
def readEvents (cfg : Configuration) (rs : Bool) (b : Byte) : List Event :=
  [setEvent .rs rs, .inp .db7, .inp .db6, .inp .db5, .inp .db4, .hi .rw,
    .hi .e, .dly cfg.tStrobe,
    .rd .db7 (b.getLsbD 7), .rd .db6 (b.getLsbD 6), .rd .db5 (b.getLsbD 5), .rd .db4 (b.getLsbD 4),
    .lo .e, .dly cfg.tStrobe,
    .hi .e, .dly cfg.tStrobe,
    .rd .db7 (b.getLsbD 3), .rd .db6 (b.getLsbD 2), .rd .db5 (b.getLsbD 1), .rd .db4 (b.getLsbD 0),
    .lo .e, .dly cfg.tStrobe]

/-- The events of successive status reads. -/
def pollEvents (cfg : Configuration) (bytes : List Byte) : List Event := bytes.flatMap (readEvents cfg false)

/-- The events of a gate: the polls, the settle, the re-read (rule R143). -/
def Gate.events (cfg : Configuration) (g : Gate) : List Event :=
  pollEvents cfg (g.polls ++ [g.ready]) ++ [.dly cfg.tSettle] ++ readEvents cfg false g.reread

/-- The end of every gate: the poll that showed `poll`, the settle, and the re-read (rule R143). -/
def gateEnd (cfg : Configuration) (poll reread : Byte) : List Event :=
  readEvents cfg false poll ++ [.dly cfg.tSettle] ++ readEvents cfg false reread

/-- The events of `PutNibble(n)` (rule R116). -/
def putNibbleEvents (cfg : Configuration) (n : Nibble) : List Event :=
  [setEvent .db7 (n.getLsbD 3), setEvent .db6 (n.getLsbD 2), setEvent .db5 (n.getLsbD 1), setEvent .db4 (n.getLsbD 0),
    .hi .e, .dly cfg.tStrobe, .lo .e, .dly cfg.tStrobe]

/-- The events of `ControllerReset()`: each nibble and the delay after it (rule R161). -/
def resetEvents (cfg : Configuration) (l : List (Nibble × Nat)) : List Event :=
  l.flatMap fun x => putNibbleEvents cfg x.1 ++ [Event.dly x.2]

/-- The events of steps I1 to I4 of `Initialize` (rules R160, R161). -/
def initPinEvents (cfg : Configuration) : List Event :=
  ([.out .e, .out .rs, .out .rw, .out .db7, .out .db6, .out .db5, .out .db4, .lo .e, .lo .rs, .lo .rw,
    .dly cfg.tPowerOn] : List Event) ++ resetEvents cfg cfg.resetSeq

/-! ### Pins -/

/-- The four data pins are given the direction `d`. -/
def dataPins {α : Type} (bank : Bank α) (a : α) : Bank α := { bank with db7 := a, db6 := a, db5 := a, db4 := a }

/-- The latches after a write: `E` and `RW` low, `RS` as selected, the data pins high (rule R35). -/
def writeLatches (rs : Bool) (l : Bank Level) : Bank Level :=
  dataPins { l with e := .low, rs := levelOf rs, rw := .low } .high

/-- The latches after a read: `E` low, `RS` as selected, `RW` high, the data latches unchanged (rule R36). -/
def readLatches (rs : Bool) (l : Bank Level) : Bank Level := { l with e := .low, rs := levelOf rs, rw := .high }

/-- The data latches hold a nibble, bit 3 on `DB7` (rule R82). -/
def nibbleLatches (n : Nibble) (l : Bank Level) : Bank Level :=
  { l with db7 := levelOf (n.getLsbD 3), db6 := levelOf (n.getLsbD 2), db5 := levelOf (n.getLsbD 1),
           db4 := levelOf (n.getLsbD 0) }

/-- The data latches after the reset half-cycles: those of the last nibble (rule R161). -/
def resetLatches (l : Bank Level) : List (Nibble × Nat) → Bank Level
  | [] => l
  | (n, _) :: rest => resetLatches (nibbleLatches n l) rest

/-- *Write-idle state* (rule R35). -/
structure State.WriteIdle (s : State) : Prop where
  directions : s.dir = allPins .out
  enable : s.lat.e = .low
  readWrite : s.lat.rw = .low
  data : s.lat.db7 = .high ∧ s.lat.db6 = .high ∧ s.lat.db5 = .high ∧ s.lat.db4 = .high

/-- *Read-idle state* (rule R36). -/
structure State.ReadIdle (s : State) : Prop where
  control : s.dir.e = .out ∧ s.dir.rs = .out ∧ s.dir.rw = .out
  data : s.dir.db7 = .inp ∧ s.dir.db6 = .inp ∧ s.dir.db5 = .inp ∧ s.dir.db4 = .inp
  enable : s.lat.e = .low
  readWrite : s.lat.rw = .high

/-! ### States -/

/-- The state after `WriteByte(rs, b)`. -/
def State.wrote (s : State) (rs : Bool) (b : Byte) : State :=
  { s with
    dreg := b
    dir := dataPins s.dir .out
    lat := writeLatches rs s.lat
    trace := s.trace ++ writeEvents s.cfg rs b }

/-- The state after `ReadByte(rs)` answered `b`, eight answers used up. -/
def State.hasRead (s : State) (rs : Bool) (b : Byte) : State :=
  { s with
    sreg := b
    dir := dataPins s.dir .inp
    lat := readLatches rs s.lat
    answers := s.answers.drop 8
    draws := s.draws + 8
    trace := s.trace ++ readEvents s.cfg rs b }

/-- `PCNT` after a gate with `k` busy polls: `k` with `MAX_POLL` a number, else untouched (rules R29, R143, R146). -/
def countAfter (cfg : Configuration) (pcnt k : Nat) : Nat :=
  match cfg.maxPoll with
  | none => pcnt
  | some _ => k

/-- The state after a gate that was answered `g` and opened. -/
def State.gated (s : State) (g : Gate) : State :=
  { s with
    sreg := g.reread
    pcnt := countAfter s.cfg s.pcnt g.polls.length
    dir := dataPins s.dir .inp
    lat := readLatches false s.lat
    answers := s.answers.drop (8 * (g.polls.length + 2))
    draws := s.draws + 8 * (g.polls.length + 2)
    trace := s.trace ++ g.events s.cfg }

/-- The state after a gate of `MAX_POLL = N` that was answered `N` busy polls (rule R146): the last of them in `SREG`,
`PCNT = N`, read-idle pins. -/
def State.timedOutAfter (s : State) (polls : List Byte) : State :=
  { s with
    sreg := polls.getLastD s.sreg
    pcnt := polls.length
    dir := dataPins s.dir .inp
    lat := readLatches false s.lat
    answers := s.answers.drop (8 * polls.length)
    draws := s.draws + 8 * polls.length
    trace := s.trace ++ pollEvents s.cfg polls }

/-- The state with `b` in `POS` (rule R28). -/
def State.withPos (s : State) (b : Byte) : State := { s with pos := b }

/-- The state after steps I1 to I4 of `Initialize` (rules R160, R161). -/
def State.pinsSetUp (s : State) : State :=
  { s with
    dir := allPins .out
    lat := resetLatches { s.lat with e := .low, rs := .low, rw := .low } s.cfg.resetSeq
    trace := s.trace ++ initPinEvents s.cfg }

/-- The response of an operation that ended. -/
def State.responded (s : State) (code : Code) (data : Byte) : State := { s with rsp := some ⟨code, data⟩ }

/-! ### Instructions and events by kind -/

/-- The routine an instruction enters the sequencer with (rules R31, R90, R97, R120, R122). -/
def entryRoutine (cfg : Configuration) : Instr → Routine
  | .init attributes => .init attributes
  | .clear => .clear
  | .home => .home
  | .gotoxy col row => .gotoXY col row
  | .putc ch => .printChar ch
  | .wrcmd b => .writeCommand b
  | .wrdata b => .writeData b
  | .rdstat => .readStatus
  | .busWi b => .writeByte false b
  | .busWd b => .writeByte true b
  | .busRs => .readByte false
  | .busRd => .readByte true
  | .lcdClear => .writeByte false cfg.cmdClear
  | .lcdHome => .writeByte false cfg.cmdHome
  | .lcdEntry => .writeByte false cfg.cmdEntry
  | .lcdDisplay d c b => .writeByte false (displayByte d c b)
  | .lcdFunction => .writeByte false cfg.cmdFunction
  | .lcdSetddram a => .writeByte false (setAddressByte cfg (a.zeroExtend 8))

/-- The instruction's last transaction, when it ends well, is a read (rules R122, R150). -/
def endsInRead : Instr → Bool
  | .rdstat => true
  | .busRs => true
  | .busRd => true
  | .init _ | .clear | .home | .gotoxy _ _ | .putc _ | .wrcmd _ | .wrdata _ | .busWi _ | .busWd _ | .lcdClear | .lcdHome
  | .lcdEntry | .lcdDisplay _ _ _ | .lcdFunction | .lcdSetddram _ => false

/-- The instruction's first step is its gate (rules R148 to R150, R164 to R168): every command but `INIT`, whose gates come
after steps I1 to I4. -/
def gatedFirst : Instr → Bool
  | .clear | .home | .gotoxy _ _ | .putc _ | .wrcmd _ | .wrdata _ | .rdstat => true
  | .init _ | .busWi _ | .busWd _ | .busRs | .busRd | .lcdClear | .lcdHome | .lcdEntry | .lcdDisplay _ _ _
  | .lcdFunction | .lcdSetddram _ => false

/-- The instruction is one ungated write (rules R90, R120). -/
def plainWrite : Instr → Bool
  | .busWi _ | .busWd _ | .lcdClear | .lcdHome | .lcdEntry | .lcdDisplay _ _ _ | .lcdFunction | .lcdSetddram _ => true
  | .init _ | .clear | .home | .gotoxy _ _ | .putc _ | .wrcmd _ | .wrdata _ | .rdstat | .busRs | .busRd => false

/-- The bounds check of rule R167, if the instruction has one, lets it pass. -/
def passesBounds (cfg : Configuration) : Instr → Bool
  | .gotoxy col _ => !outOfBounds cfg col
  | .init _ | .clear | .home | .putc _ | .wrcmd _ | .wrdata _ | .rdstat | .busWi _ | .busWd _ | .busRs | .busRd
  | .lcdClear | .lcdHome | .lcdEntry | .lcdDisplay _ _ _ | .lcdFunction | .lcdSetddram _ => true

/-- One of the four data pins (rule R11). -/
def isDataPin : Pin → Bool
  | .e | .rs | .rw => false
  | .db7 | .db6 | .db5 | .db4 => true

/-- A `Hi` or a `Lo` on a data pin. -/
def Event.setsDataPin : Event → Bool
  | .hi p => isDataPin p
  | .lo p => isDataPin p
  | .out _ | .inp _ | .rd _ _ | .dly _ => false

/-- The pins of the `Rd` events of a trace, in order. -/
def readPinsOf : List Event → List Pin
  | [] => []
  | .rd p _ :: evs => p :: readPinsOf evs
  | _ :: evs => readPinsOf evs

/-- Where a trace stands in a strobe: outside; after `Hi(E)`; after the hold of the high phase; after `Lo(E)`. -/
inductive StrobePhase where
  | outside | rising | high | falling
  deriving DecidableEq, Repr

/-- An event that may lie inside a strobe: "Inside a strobe only `Dly` and `Rd` events occur" (rule R37). -/
def Event.insideStrobe : Event → Bool
  | .dly _ => true
  | .rd _ _ => true
  | .out _ | .inp _ | .hi _ | .lo _ => false

/-- The phase after an event, and none where rules R37 and R230 forbid the event: `Hi(E)` and at once `Dly(T_STROBE)`; then
only `Dly` and `Rd` until `Lo(E)`, and at once `Dly(T_STROBE)`. -/
def StrobePhase.after (tStrobe : Nat) (phase : StrobePhase) (ev : Event) : Option StrobePhase :=
  match phase with
  | .outside => if ev = .hi .e then some .rising else some .outside
  | .rising => if ev = .dly tStrobe then some .high else none
  | .high => if ev = .lo .e then some .falling else if ev.insideStrobe then some .high else none
  | .falling => if ev = .dly tStrobe then some .outside else none

/-- The phase after a trace, and none where one of its events is forbidden. -/
def strobePhaseAfter (tStrobe : Nat) (phase : StrobePhase) : List Event → Option StrobePhase
  | [] => some phase
  | ev :: evs =>
    match phase.after tStrobe ev with
    | some next => strobePhaseAfter tStrobe next evs
    | none => none

/-- Every strobe of a trace has the shape of rules R37 and R230, and none is left half done. -/
def strobesKept (tStrobe : Nat) (phase : StrobePhase) (evs : List Event) : Bool :=
  strobePhaseAfter tStrobe phase evs == some .outside

/-- Successive status reads that returned these bytes (rule R172: `st` is one status read). -/
def statusReads (bytes : List Byte) : List Transaction := bytes.map (.read false)

/-- The bus view of whole transactions, one after the other (rule R67). -/
def halvesOf (ts : List Transaction) : List Half := ts.flatMap Transaction.halves

/-- The levels of the data latches at the strobes of a trace, in the order `DB7, DB6, DB5, DB4` at each (rule R124: the
levels a write "showed at its two strobes"). -/
def shownLevels (lat : Bank Level) (evs : List Event) : List Bool :=
  (strobesOf lat evs).flatMap fun x =>
    [x.lat.db7 == .high, x.lat.db6 == .high, x.lat.db5 == .high, x.lat.db4 == .high]

/-- Every write comes at once after two status reads of which the first showed `BF = 0`, and every read is a status read
(rules R140, R142, R147). `last` and `before` say whether the last transaction and the one before it were status reads
that showed `BF = 0`. -/
def writesGated (last before : Bool) : List Transaction → Bool
  | [] => true
  | .read rs b :: ts => !rs && writesGated (!busyFlag b) last ts
  | .write _ _ :: ts => before && writesGated false false ts

/-- The default configuration of rule R8 with the wrap policy off or on. -/
def defaultWithWrap (wrap : Bool) : Configuration := { Config.default with wrap := wrap }

/-- A gate of a ready controller: no busy poll (rule R162: "on a ready controller"). -/
def readyGate (poll reread : Byte) : Gate := ⟨[], poll, reread⟩

/-- The events of printing characters one after the other, each with its gate and its data write (rules R170, R173). -/
def printEvents (cfg : Configuration) : List (Byte × Gate) → List Event
  | [] => []
  | (ch, g) :: rest => g.events cfg ++ writeEvents cfg true ch ++ printEvents cfg rest

/-- The reserved command words, as rule R98 lists them. -/
def reservedWord (w : CommandWord) : Prop :=
  w.op = 0x0 ∨ 0x9 ≤ w.op ∨ w.zero ≠ 0 ∨ (w.row = 1 ∧ w.op ≠ 0x4) ∨
    (w.arg ≠ 0 ∧ (w.op = 0x2 ∨ w.op = 0x3 ∨ w.op = 0x8))

end Sys2Proof.Machine
end

