-- ==== Sys2Proof/Safety.lean ====
section
/-! DEFINITION. What a safe run is, and the invariants of the machine: the shape of `SEQ` (rules R30, R31), `E` high
exactly inside a strobe (rule R37), and what the wires show around a strobe (rules R233, R234). -/

namespace Sys2Proof.Machine

/-- A run never stops: after any number of steps the machine is in some state (rule R193: it "keeps stepping"). -/
def State.RunsForever (s : State) : Prop := ∀ k, ∃ t, Host.Core.run core k s = .next t

/-- Frame `g`, at its step, calls the routine of frame `f`. -/
def Frame.callsFrame (cfg : Configuration) (g f : Frame) : Bool := stepOf cfg g.routine g.step == some (.call f.routine)

/-- `SEQ` has a legal shape: its top frame stands at a step of its routine, and each frame was called by the one under
it (rules R30, R32). -/
def stackOk (cfg : Configuration) : List Frame → Bool
  | [] => true
  | [f] => f.live cfg
  | f :: g :: callers => f.live cfg && g.callsFrame cfg f && stackOk cfg (g :: callers)

/-- The frame stands between the `Hi(E)` and the `Lo(E)` of a strobe (rules R126, R161). -/
def Frame.inStrobe (cfg : Configuration) (f : Frame) : Bool :=
  match f.routine with
  | .writeByte _ _ => f.step == 11 || f.step == 12 || f.step == 19 || f.step == 20
  | .readByte _ => (7 ≤ f.step && f.step ≤ 12) || (15 ≤ f.step && f.step ≤ 20)
  | .init _ =>
    11 ≤ f.step && f.step < 11 + 9 * cfg.resetSeq.length && ((f.step - 11) % 9 == 5 || (f.step - 11) % 9 == 6)
  | _ => false

/-- The block stands inside a strobe. -/
def State.inStrobe (s : State) : Bool :=
  match s.seq with
  | [] => false
  | f :: _ => f.inStrobe s.cfg

/-- Rule R37: `E` is high inside a strobe and only there. -/
def State.EnableOk (s : State) : Prop := s.lat.e = .high ↔ s.inStrobe = true

/-- What the pins show while `WriteByte(rs, b)` stands at step `n` (rules R120, R126, R233): `RS` and `RW` as selected
from their steps on, the data pins outputs from theirs, `DREG` the byte `b`, and each data latch its bit of it from the
step that set it to the step that sets it anew. -/
structure WritePins (s : State) (rs : Bool) (b : Byte) (n : Nat) : Prop where
  byte : s.dreg = b
  rs : 1 ≤ n → s.lat.rs = levelOf rs
  rw : 2 ≤ n → s.lat.rw = .low
  out7 : 3 ≤ n → s.dir.db7 = .out
  out6 : 4 ≤ n → s.dir.db6 = .out
  out5 : 5 ≤ n → s.dir.db5 = .out
  out4 : 6 ≤ n → s.dir.db4 = .out
  hi7 : 7 ≤ n → n ≤ 14 → s.lat.db7 = levelOf (b.getLsbD 7)
  hi6 : 8 ≤ n → n ≤ 15 → s.lat.db6 = levelOf (b.getLsbD 6)
  hi5 : 9 ≤ n → n ≤ 16 → s.lat.db5 = levelOf (b.getLsbD 5)
  hi4 : 10 ≤ n → n ≤ 17 → s.lat.db4 = levelOf (b.getLsbD 4)
  lo7 : 15 ≤ n → n ≤ 22 → s.lat.db7 = levelOf (b.getLsbD 3)
  lo6 : 16 ≤ n → n ≤ 23 → s.lat.db6 = levelOf (b.getLsbD 2)
  lo5 : 17 ≤ n → n ≤ 24 → s.lat.db5 = levelOf (b.getLsbD 1)
  lo4 : 18 ≤ n → n ≤ 25 → s.lat.db4 = levelOf (b.getLsbD 0)

/-- What the pins show while `ReadByte(rs)` stands at step `n` (rules R122, R126, R234): the data pins are inputs
before `RW` goes high. -/
structure ReadPins (s : State) (rs : Bool) (n : Nat) : Prop where
  rs : 1 ≤ n → s.lat.rs = levelOf rs
  in7 : 2 ≤ n → s.dir.db7 = .inp
  in6 : 3 ≤ n → s.dir.db6 = .inp
  in5 : 4 ≤ n → s.dir.db5 = .inp
  in4 : 5 ≤ n → s.dir.db4 = .inp
  rw : 6 ≤ n → s.lat.rw = .high

/-- What the pins show while `Initialize` stands at step `n` of its steps I1 to I4 (rule R160; rule R161: "RS = 0, RW = 0,
E = 0, data pins outputs"). -/
structure InitPins (s : State) (n : Nat) : Prop where
  outE : 1 ≤ n → s.dir.e = .out
  outRs : 2 ≤ n → s.dir.rs = .out
  outRw : 3 ≤ n → s.dir.rw = .out
  out7 : 4 ≤ n → s.dir.db7 = .out
  out6 : 5 ≤ n → s.dir.db6 = .out
  out5 : 6 ≤ n → s.dir.db5 = .out
  out4 : 7 ≤ n → s.dir.db4 = .out
  rs : 9 ≤ n → s.lat.rs = .low
  rw : 10 ≤ n → s.lat.rw = .low

/-- The pins show what the transaction in progress has put there. -/
def State.PinsOk (s : State) : Prop :=
  match s.seq with
  | ⟨.init _, n⟩ :: _ => n ≤ 11 + 9 * s.cfg.resetSeq.length → InitPins s n
  | ⟨.writeByte rs b, n⟩ :: _ => WritePins s rs b n
  | ⟨.readByte rs, n⟩ :: _ => ReadPins s rs n
  | _ => True

/-- The invariant of the machine. -/
structure State.Inv (s : State) : Prop where
  stack : stackOk s.cfg s.seq = true
  enable : s.EnableOk
  pins : s.PinsOk

/-! ### What the trace ends with: the gate, and the strobe in progress -/

/-- The trace ends with a gate that has opened: a status read that showed `BF = 0`, the settle, and one more status read,
whose byte is in `SREG` (rules R140, R143). -/
def State.GatePassed (s : State) : Prop :=
  ∃ before poll, busyFlag poll = false ∧ s.trace = before ++ gateEnd s.cfg poll s.sreg

/-- The step of a frame whose next act, but for tests, is a write behind the gate that opened last (rules R148, R149, R168 to
R171; the numbers of `PrintChar` are those of `printCharStep`, log 10). -/
def Frame.behindGate (f : Frame) : Bool :=
  match f.routine with
  | .writeCommand _ | .writeData _ => f.step == 1
  | .printChar _ => [1, 2, 3, 5, 7, 9, 11].contains f.step
  | .init _ | .clear | .home | .gotoXY _ _ | .readStatus | .waitReady | .writeByte _ _ | .readByte _ => false

/-- What the trace ends with while the block stands in a gate or in a write behind one (rules R140, R143, R147). A
`WriteByte` with no caller is a request of its own, below the gate (log 7), and nothing is said of it. -/
structure State.GateOk (s : State) : Prop where
  /-- in the read of a poll: the events of the read so far, with the samples `SREG` holds -/
  polling : ∀ rs n callers, s.seq = ⟨.readByte rs, n⟩ :: ⟨.waitReady, 1⟩ :: callers →
    ∃ before, s.trace = before ++ (readEvents s.cfg false s.sreg).take n
  /-- at the busy test: a whole poll -/
  polled : ∀ callers, s.seq = ⟨.waitReady, 2⟩ :: callers → ∃ before, s.trace = before ++ readEvents s.cfg false s.sreg
  /-- before the settle: a poll that showed `BF = 0` -/
  ready : ∀ callers, s.seq = ⟨.waitReady, 3⟩ :: callers →
    busyFlag s.sreg = false ∧ ∃ before, s.trace = before ++ readEvents s.cfg false s.sreg
  /-- after the settle -/
  settled : ∀ callers, s.seq = ⟨.waitReady, 4⟩ :: callers → ∃ before poll, busyFlag poll = false ∧
    s.trace = before ++ readEvents s.cfg false poll ++ [.dly s.cfg.tSettle]
  /-- in the re-read -/
  rereading : ∀ rs n callers, s.seq = ⟨.readByte rs, n⟩ :: ⟨.waitReady, 4⟩ :: callers →
    ∃ before poll, busyFlag poll = false ∧
      s.trace = before ++ readEvents s.cfg false poll ++ [.dly s.cfg.tSettle] ++ (readEvents s.cfg false s.sreg).take n
  /-- behind the gate: the whole gate -/
  passed : ∀ f callers, s.seq = f :: callers → f.behindGate = true → s.GatePassed
  /-- in the write: the gate and the events of the write so far -/
  writing : ∀ rs b n caller callers, s.seq = ⟨.writeByte rs b, n⟩ :: caller :: callers →
    ∃ before poll, busyFlag poll = false ∧
      s.trace = before ++ gateEnd s.cfg poll s.sreg ++ (writeEvents s.cfg rs b).take n

/-- The phase of the strobe a frame stands in at its step (rules R114, R118, R126, R161). -/
def Frame.strobePhase (cfg : Configuration) (f : Frame) : StrobePhase :=
  match f.routine with
  | .writeByte _ _ =>
    if f.step = 11 ∨ f.step = 19 then .rising
    else if f.step = 12 ∨ f.step = 20 then .high
    else if f.step = 13 ∨ f.step = 21 then .falling
    else .outside
  | .readByte _ =>
    if f.step = 7 ∨ f.step = 15 then .rising
    else if (8 ≤ f.step ∧ f.step ≤ 12) ∨ (16 ≤ f.step ∧ f.step ≤ 20) then .high
    else if f.step = 13 ∨ f.step = 21 then .falling
    else .outside
  | .init _ =>
    if 11 ≤ f.step ∧ f.step < 11 + 9 * cfg.resetSeq.length then
      if (f.step - 11) % 9 = 5 then .rising
      else if (f.step - 11) % 9 = 6 then .high
      else if (f.step - 11) % 9 = 7 then .falling
      else .outside
    else .outside
  | .clear | .home | .gotoXY _ _ | .printChar _ | .writeCommand _ | .writeData _ | .readStatus | .waitReady => .outside

/-- The phase of the strobe the block stands in. -/
def State.strobePhase (s : State) : StrobePhase :=
  match s.seq with
  | [] => .outside
  | f :: _ => f.strobePhase s.cfg

/-- Every strobe of the trace has the shape of rules R114, R118 and R230, up to the one the block stands in. -/
def State.StrobesOk (s : State) : Prop :=
  strobePhaseAfter s.cfg.tStrobe .outside s.trace = some s.strobePhase

end Sys2Proof.Machine
end

