-- ==== Sys2Proof/Certificates/Slice0/Obligations.lean ====
section
/-! DEFINITION. The statements for the provers, from the spec's numbered rules. A state is idle where its `seq` is `[]`;
`s.answers = script bytes ++ rest` says that the environment will answer the next status reads with `bytes`, and nothing
is asked of `rest`. -/

section
open Sys2Proof Sys2Proof.Machine

/-! ### Reset -/

/-- Rules R40, R220: the block is `IDLE` at reset, its pins are unspecified, it has emitted nothing, it has the default
configuration, and with no command presented it stays so. (That no response is held, no word is presented and no
text waits at reset is the model's choice; logs 5 and 22.) -/
def Obligations.ResetStartsIdleAndSilent : Prop :=
  State.reset.seq = [] ∧ State.reset.dir = allPins .unspecified ∧ State.reset.lat = allPins .unspecified ∧
    State.reset.trace = [] ∧ State.reset.rsp = none ∧ State.reset.cmds = [] ∧ State.reset.text = [] ∧
    State.reset.cfg = Config.default ∧
    step State.reset = .next State.reset

/-- Rules R8, R34: the default configuration has legal values: seven distinct pins, the fixed geometry, delays of at least
one microsecond, no bound on polls; wrap and both hardening options are off. -/
def Obligations.ResetConfigurationIsLegal : Prop :=
  Config.default.Legal ∧ Config.default.wrap = false ∧ Config.default.maxPoll = none ∧
    Config.default.checkBounds = false ∧ Config.default.tStrobe = 1 ∧ Config.default.tSettle = 2

/-- The invariants hold at reset: of `SEQ` and the pins, of the gate and of the strobes. -/
def Obligations.ResetMeetsInvariant : Prop := State.reset.Inv ∧ State.reset.GateOk ∧ State.reset.StrobesOk

/-! ### Acceptance and the sequencer -/

/-- Rules R70, R95 for a command word: a step of an idle block with no `Print` in progress whose presented word decodes to an
instruction is that instruction's meaning with the word taken from the port. THE MODEL'S CHOICE in the rest: the port as a list
of words (log 5); requests of the formats `CYCLE` and `LCDI`, which rule R95 gives the host no way to present (log 7); and
`withFetchWord`, which presents a table word so that the next step runs it (log 8 for the formats, log 25 for a block that
still runs). -/
def Obligations.StepRunsDecodedCommand : Prop :=
  (∀ (s : State) (r : Request) (rest : List Request) (i : Instr), s.seq = [] → s.text = [] → s.cmds = r :: rest →
    decode r = .instr i → step s = exec i { s with cmds := rest }) ∧
  ∀ (s : State) (nbits w : Nat) (i : Instr), decodeTableWord nbits w = some i →
    step (s.withFetchWord nbits w) = exec i { s with seq := [], text := [] }

/-- Rule R207: "Between operations it does nothing and holds its pins". That the response too is held through idle steps is THE
MODEL'S CHOICE (log 5): rule R95 does not say how long `rsp_valid` stays. -/
def Obligations.IdleBlockHoldsState : Prop := ∀ s : State, s.seq = [] → s.text = [] → s.cmds = [] → step s = .next s

/-- Rules R59, R70: a step of a block that is not idle takes no command: the words stay at the port, and the rest of a `Print`
stays too. THE MODEL'S CHOICE (log 16; entry U6 writes `stuck`): `exec` of an instruction on such a block answers the state
unchanged. -/
def Obligations.BusyBlockTakesNoCommand : Prop :=
  (∀ (i : Instr) (s : State), s.seq ≠ [] → exec i s = .next s) ∧
  ∀ s t : State, s.seq ≠ [] → step s = .next t → t.cmds = s.cmds ∧ t.text = s.text

/-- Rule R32, for steps that are not branches, and rule R143 for step G0 of `WaitReady`, which is none of rule R32's three
kinds: with `MAX_POLL` a number it sets `PCNT` to 0, and the gate stands at G1. An event step emits its event and adds 1 to
the frame's step; where the frame has no further step it is popped and the caller's step is increased by 1, and so on down
to the first caller that has a further step (with `POS` taken where that caller stood at step P0 of `PrintChar`); when the
outermost frame is popped the block is `IDLE` and answers. A call step pushes the callee's frame, and `WriteByte` takes its
byte into `DREG`. -/
def Obligations.SequencerAdvancesOneStep : Prop :=
  ∀ (s : State) (f : Frame) (callers : List Frame), s.seq = f :: callers →
    (∀ ev, stepOf s.cfg f.routine f.step = some (.event ev) → f.next.live s.cfg = true →
      step s = .next { s.emit ev with seq := f.next :: callers }) ∧
    (∀ p bit, stepOf s.cfg f.routine f.step = some (.drive p bit) → f.next.live s.cfg = true →
      step s = .next { s.emit (setEvent p (s.dreg.getLsbD bit)) with seq := f.next :: callers }) ∧
    (∀ p bit, stepOf s.cfg f.routine f.step = some (.sample p bit) → f.next.live s.cfg = true →
      step s = .next { s.rd p with sreg := withBit s.sreg bit s.answer, seq := f.next :: callers }) ∧
    (∀ ev ended g outer, stepOf s.cfg f.routine f.step = some (.event ev) → callers = ended ++ g :: outer →
      (∀ x ∈ f :: ended, x.next.live s.cfg = false) → g.next.live s.cfg = true →
      step s = .next { s.emit ev with
        seq := g.next :: outer
        pos := match g.routine, g.step with
          | .printChar _, 0 => s.sreg
          | _, _ => s.pos }) ∧
    (∀ ev outer, stepOf s.cfg f.routine f.step = some (.event ev) → (∀ x ∈ f :: callers, x.next.live s.cfg = false) →
      (f :: callers).getLast? = some outer →
      step s = .next { s.emit ev with seq := [], rsp := some ⟨.ok, s.responseData outer.routine⟩ }) ∧
    (f = ⟨.waitReady, 0⟩ →
      (s.cfg.maxPoll = none → step s = .next { s with seq := ⟨.waitReady, 1⟩ :: callers }) ∧
      ∀ n, s.cfg.maxPoll = some n → step s = .next { s with seq := ⟨.waitReady, 1⟩ :: callers, pcnt := 0 }) ∧
    (∀ rs b, stepOf s.cfg f.routine f.step = some (.call (.writeByte rs b)) →
      step s = .next { s with seq := ⟨.writeByte rs b, 0⟩ :: f :: callers, dreg := b }) ∧
    ∀ r, stepOf s.cfg f.routine f.step = some (.call r) → (∀ rs b, r ≠ .writeByte rs b) →
      step s = .next { s with seq := ⟨r, 0⟩ :: f :: callers }

/-- Rules R143, R146, R167, R168, R169, R171: where each branch goes. `WaitReady` stands at G2 with step 2, G1 is step 1 and
G3 step 3; `GotoXY` goes from its bounds test at 0 to 1; the step numbers of `PrintChar` are those of `printCharStep`
(log 10). -/
def Obligations.BranchesFollowTheirTests : Prop :=
  ∀ (s : State) (callers : List Frame),
    (s.seq = ⟨.waitReady, 2⟩ :: callers →
      (busyFlag s.sreg = false → step s = .next { s with seq := ⟨.waitReady, 3⟩ :: callers }) ∧
      (busyFlag s.sreg = true → s.cfg.maxPoll = none →
        step s = .next { s with seq := ⟨.waitReady, 1⟩ :: callers }) ∧
      ∀ n, busyFlag s.sreg = true → s.cfg.maxPoll = some n →
        (s.pcnt + 1 ≠ n →
          step s = .next { s with seq := ⟨.waitReady, 1⟩ :: callers, pcnt := s.pcnt + 1 }) ∧
        (s.pcnt + 1 = n →
          step s = .next { s with seq := [], pcnt := s.pcnt + 1, rsp := some ⟨.notReady, 0⟩ })) ∧
    (∀ col row, s.seq = ⟨.gotoXY col row, 0⟩ :: callers →
      (s.cfg.checkBounds = true ∧ s.cfg.lineLength ≤ col.toNat →
        step s = .next { s with seq := [], rsp := some ⟨.invalidAddress, 0⟩ }) ∧
      (s.cfg.checkBounds = false ∨ col.toNat < s.cfg.lineLength →
        step s = .next { s with seq := ⟨.gotoXY col row, 1⟩ :: callers })) ∧
    (∀ ch, s.seq = ⟨.printChar ch, 1⟩ :: callers →
      step s = .next { s with seq := ⟨.printChar ch, if ch = s.cfg.chNewline then 13 else 2⟩ :: callers }) ∧
    (∀ ch, s.seq = ⟨.printChar ch, 13⟩ :: callers →
      step s = .next { s with
        seq := ⟨.printChar ch,
          if (currentAddress s.pos).toNat < s.cfg.line2Base.toNat then 14 else 16⟩ :: callers }) ∧
    ∀ ch, s.seq = ⟨.printChar ch, 2⟩ :: callers →
      step s = .next { s with
        seq := ⟨.printChar ch,
          if s.cfg.wrap = true ∧ (currentAddress s.pos).toNat = s.cfg.line1Base.toNat + s.cfg.lineLength then 5
          else if s.cfg.wrap = true ∧ (currentAddress s.pos).toNat = s.cfg.line2Base.toNat + s.cfg.lineLength then 9
          else 3⟩ :: callers }

/-! ### Encodings -/

/-- Rule R98: the reserved words, and that one emits no event, changes no state and is answered `Illegal`. THE MODEL'S READING:
that the answer is a next state, where the rule ends "a model should treat a reserved word as a refusal" (log 21). The data
0x00 of the response is rule R99's and R191's; the port as a list is log 5's. -/
def Obligations.ReservedWordsAreRefused : Prop :=
  (∀ w : CommandWord, (∃ why, decode (.cw w) = .reject why) ↔ reservedWord w) ∧
  (∀ w : CommandWord, ¬ reservedWord w ↔ ∃ row ∈ commandRows, row.hits (.cw w) = true) ∧
  (∀ (s : State) (w : CommandWord) (rest : List Request), s.seq = [] → s.text = [] → s.cmds = .cw w :: rest →
    reservedWord w →
    step s = .next { s with cmds := rest, rsp := some ⟨.illegal, 0⟩ }) ∧
  Code.illegal.bits = 3

/-- Rules R81, R90, R97: decoding the encoding of any instruction in range gives it back, with every operand. -/
def Obligations.DecodeOfEncodeIsIdentity : Prop := ∀ i : Instr, i.wellFormed = true → decode (encode i) = .instr i

/-- A request is the encoding of the instruction it decodes to: no bit of it is ignored, and what the decoder answers is in
range. -/
def Obligations.EncodeOfDecodeIsIdentity : Prop :=
  ∀ (r : Request) (i : Instr), decode r = .instr i → encode i = r ∧ i.wellFormed = true

/-- An instruction's encoding has the fixed bits of its own row of the opcode table and of no other row. -/
def Obligations.EncodingHitsExactlyItsRow : Prop :=
  ∀ i : Instr, i.wellFormed = true → ∀ row ∈ opcodeTable, row.hits (encode i) = true ↔ row.mnemonic = i.mnemonic

/-- Words written out from the patterns of rules R81, R90 and R97 (cycle kinds and controller bytes as requests: log 7). -/
def Obligations.WordsDecodeAsWritten : Prop :=
  decode (.cw 0b0001000000001100) = .instr (.init 0x0C) ∧ decode (.cw 0b0010000000000000) = .instr .clear ∧
  decode (.cw 0b0011000000000000) = .instr .home ∧ decode (.cw 0b0100000100000101) = .instr (.gotoxy 5 1) ∧
  decode (.cw 0b0101000001000001) = .instr (.putc 0x41) ∧ decode (.cw 0b0110000000000001) = .instr (.wrcmd 1) ∧
  decode (.cw 0b0111000011111111) = .instr (.wrdata 0xFF) ∧ decode (.cw 0b1000000000000000) = .instr .rdstat ∧
  decode (.cycle 0b00 0x28) = .instr (.busWi 0x28) ∧ decode (.cycle 0b10 0x41) = .instr (.busWd 0x41) ∧
  decode (.cycle 0b01 0) = .instr .busRs ∧ decode (.cycle 0b11 0) = .instr .busRd ∧
  decode (.lcdi 0b00000001) = .instr .lcdClear ∧ decode (.lcdi 0b00000010) = .instr .lcdHome ∧
  decode (.lcdi 0b00000110) = .instr .lcdEntry ∧ decode (.lcdi 0b00001101) = .instr (.lcdDisplay true false true) ∧
  decode (.lcdi 0b00101000) = .instr .lcdFunction ∧ decode (.lcdi 0b11000101) = .instr (.lcdSetddram 0x45)

/-! ### Whole transactions -/

/-- Rule R120: `BUS.WI` and `BUS.WD` on an idle block complete, with the 26 events of `WriteByte`, `DREG` the byte, the data
pins outputs left high and `E`, `RS`, `RW` as the write leaves them; nothing else changes but the response. (That the rows
run as instructions of their own is the model's choice; log 7.) -/
def Obligations.WriteTransactionsComplete : Prop :=
  ∀ (s : State) (b : Byte), s.seq = [] →
    exec (.busWi b) s = .next ((s.wrote false b).responded .ok 0) ∧
    exec (.busWd b) s = .next ((s.wrote true b).responded .ok 0)

/-- Rule R121, properties (a) to (e), for both cycle kinds and every byte. -/
def Obligations.WriteByteSplitsItsByte : Prop :=
  ∀ (s : State) (rs : Bool) (b : Byte), s.seq = [] → ∃ t evs x y,
    exec (bif rs then .busWd b else .busWi b) s = .next t ∧ t.trace = s.trace ++ evs ∧
    evs.count (.hi .e) = 2 ∧ evs.count (.lo .e) = 2 ∧ strobesOf s.lat evs = [x, y] ∧
    latchedNibble x.lat = some (((b >>> 4) &&& 0xF).setWidth 4) ∧ latchedNibble y.lat = some ((b &&& 0xF).setWidth 4) ∧
    x.lat.rs = levelOf rs ∧ x.lat.rw = .low ∧ y.lat.rs = levelOf rs ∧ y.lat.rw = .low ∧
    (t.lat.db7 = .high ∧ t.lat.db6 = .high ∧ t.lat.db5 = .high ∧ t.lat.db4 = .high) ∧
    (t.dir.db7 = .out ∧ t.dir.db6 = .out ∧ t.dir.db5 = .out ∧ t.dir.db4 = .out) ∧
    delaySum evs = 4 * s.cfg.tStrobe

/-- Rule R122: `BUS.RS` and `BUS.RD` on an idle block complete, with the 22 events of `ReadByte` and `SREG` the byte the
environment answers, whether State holds the answers or draws them; nothing else changes but the pins, the answers used
and the response. (That the rows run as instructions of their own, and that the response's data is 0x00, is the model's
reading; logs 7 and 9.) -/
def Obligations.ReadTransactionsComplete : Prop :=
  ∀ s : State, s.seq = [] →
    exec .busRs s = .next ((s.hasRead false s.byteAhead).responded .ok 0) ∧
    exec .busRd s = .next ((s.hasRead true s.byteAhead).responded .ok 0)

/-- Rule R123, properties (a) to (f), for both read kinds. -/
def Obligations.ReadByteJoinsItsNibbles : Prop :=
  ∀ (s : State) (rs : Bool), s.seq = [] → ∃ t evs x y v7 v6 v5 v4 v3 v2 v1 v0,
    exec (bif rs then .busRd else .busRs) s = .next t ∧ t.trace = s.trace ++ evs ∧
    evs.count (.hi .e) = 2 ∧ evs.count (.lo .e) = 2 ∧
    readPinsOf evs = [.db7, .db6, .db5, .db4, .db7, .db6, .db5, .db4] ∧ strobesOf s.lat evs = [x, y] ∧
    x.samples = [(.db7, v7), (.db6, v6), (.db5, v5), (.db4, v4)] ∧
    y.samples = [(.db7, v3), (.db6, v2), (.db5, v1), (.db4, v0)] ∧
    (∀ ev ∈ evs, ev.setsDataPin = false) ∧ x.lat.rw = .high ∧ y.lat.rw = .high ∧
    t.sreg = ((nibbleOf v7 v6 v5 v4).setWidth 8 <<< 4 ||| (nibbleOf v3 v2 v1 v0).setWidth 8) ∧
    delaySum evs = 4 * s.cfg.tStrobe

/-- Rule R124: a read whose eight answers are the levels a write of `b` showed at its two strobes returns `b`. -/
def Obligations.LoopbackReadReturnsWrittenByte : Prop :=
  ∀ (s : State) (rs : Bool) (b : Byte), s.seq = [] → ∃ t evs,
    exec (bif rs then .busWd b else .busWi b) s = .next t ∧ t.trace = s.trace ++ evs ∧
    ∀ (u : State) (rs' : Bool) (rest : List Bool), u.seq = [] → u.answers = shownLevels s.lat evs ++ rest →
      ∃ v, exec (bif rs' then .busRd else .busRs) u = .next v ∧ v.sreg = b

/-- Rules R90, R91, R92: each controller instruction byte on an idle block completes as the write-instruction transaction of
its configured byte; `LCD.DISPLAY` sends `00001dcb`. (That the rows run as instructions of their own is the model's
choice; log 7.) -/
def Obligations.ControllerBytesAreWritten : Prop :=
  ∀ s : State, s.seq = [] →
    exec .lcdClear s = .next ((s.wrote false s.cfg.cmdClear).responded .ok 0) ∧
    exec .lcdHome s = .next ((s.wrote false s.cfg.cmdHome).responded .ok 0) ∧
    exec .lcdEntry s = .next ((s.wrote false s.cfg.cmdEntry).responded .ok 0) ∧
    exec .lcdFunction s = .next ((s.wrote false s.cfg.cmdFunction).responded .ok 0) ∧
    (∀ d c b : Bool, exec (.lcdDisplay d c b) s =
      .next ((s.wrote false ((1 : BitVec 5) ++ BitVec.ofBool d ++ BitVec.ofBool c ++ BitVec.ofBool b)).responded .ok 0)) ∧
    ∀ a : Address, exec (.lcdSetddram a) s =
      .next ((s.wrote false (s.cfg.cmdSetDdram + a.setWidth 8)).responded .ok 0)

/-- Rules R92, R174: the set-address byte is an 8-bit sum whose carry is dropped; with the default `CMD_SET_DDRAM` it is
`1aaaaaaa` for a 7-bit address, and 0x00 for 0x80. -/
def Obligations.SetAddressByteIsEightBitSum : Prop :=
  (∀ (cfg : Configuration) (a : Byte), (setAddressByte cfg a).toNat = (cfg.cmdSetDdram.toNat + a.toNat) % 256) ∧
  (∀ (cfg : Configuration) (col : Byte),
    (gotoByte cfg col 0).toNat = (cfg.cmdSetDdram.toNat + cfg.line1Base.toNat + col.toNat) % 256 ∧
    (gotoByte cfg col 1).toNat = (cfg.cmdSetDdram.toNat + cfg.line2Base.toNat + col.toNat) % 256) ∧
  (∀ a : Address, setAddressByte Config.default (a.setWidth 8) = (1 : BitVec 1) ++ a) ∧
  setAddressByte Config.default 0x80 = 0x00

/-! ### The busy gate -/

/-- Rules R143, R150: `RDSTAT` on an idle block completes with one gate, and answers the byte of the re-read. -/
def Obligations.StatusReadReturnsReread : Prop :=
  ∀ (s : State) (g : Gate) (rest : List Bool), s.seq = [] → s.answers = script g.bytes ++ rest → g.opens s.cfg = true →
    exec .rdstat s = .next ((s.gated g).responded .ok g.reread)

/-- Rule R144, properties (a) to (f), of `WaitReady`, with `k` the number of its busy polls; the last clause is `4k + 10` at
the source's delays. -/
def Obligations.GateTraceAndResult : Prop :=
  ∀ (s : State) (g : Gate) (rest : List Bool), s.answers = script g.bytes ++ rest → g.opens s.cfg = true →
    ∃ t evs, waitReady s = .done t ∧ t.trace = s.trace ++ evs ∧
      evs = pollEvents s.cfg (g.polls ++ [g.ready]) ++ [.dly s.cfg.tSettle] ++ readEvents s.cfg false g.reread ∧
      busView s.lat evs = halvesOf (statusReads g.bytes) ∧ g.bytes.length = g.polls.length + 2 ∧
      evs.length = 22 * (g.polls.length + 2) + 1 ∧ (∀ ev ∈ evs, ev.setsDataPin = false) ∧
      (t.lat.db7 = s.lat.db7 ∧ t.lat.db6 = s.lat.db6 ∧ t.lat.db5 = s.lat.db5 ∧ t.lat.db4 = s.lat.db4) ∧
      (∀ x ∈ strobesOf s.lat evs, x.lat.rw = .high) ∧
      delaySum evs = 4 * (g.polls.length + 2) * s.cfg.tStrobe + s.cfg.tSettle ∧
      (s.cfg.tStrobe = 1 → s.cfg.tSettle = 2 → delaySum evs = 4 * g.polls.length + 10) ∧
      t.sreg = g.reread

/-- Rule R146: with `MAX_POLL = N` a gate fails exactly when its first `N` polls all show `BF = 1`, and then nothing follows
the `N`-th poll: no settle and no re-read; with `MAX_POLL` none a gate never fails. -/
def Obligations.GateTimesOutExactlyAfterMaxPoll : Prop :=
  (∀ (s : State) (n : Nat), s.cfg.maxPoll = some n → 1 ≤ n →
    ((∃ k t, waitReady s = .failed k t) ↔
      ∃ polls rest, s.answers = script polls ++ rest ∧ polls.length = n ∧ polls.all busyFlag = true) ∧
    ∀ polls rest, s.answers = script polls ++ rest → polls.length = n → polls.all busyFlag = true →
      waitReady s = .failed .notReady (s.timedOutAfter polls)) ∧
  ∀ s : State, s.cfg.maxPoll = none → ∀ k t, waitReady s ≠ .failed k t

/-- Rules R148, R149: `WRCMD` and `WRDATA` on an idle block complete with one gate and then the write. -/
def Obligations.GatedWritesComplete : Prop :=
  ∀ (s : State) (b : Byte) (g : Gate) (rest : List Bool), s.seq = [] → s.answers = script g.bytes ++ rest →
    g.opens s.cfg = true →
    exec (.wrcmd b) s = .next (((s.gated g).wrote false b).responded .ok 0) ∧
    exec (.wrdata b) s = .next (((s.gated g).wrote true b).responded .ok 0)

/-- Rules R148, R149, R250: what one gate and one write show the controller, how many events they are and how long they
take at least. -/
def Obligations.GatedWriteTraceIsCounted : Prop :=
  ∀ (s : State) (rs : Bool) (b : Byte) (g : Gate) (rest : List Bool), s.seq = [] → s.answers = script g.bytes ++ rest →
    g.opens s.cfg = true → ∃ t evs,
      exec (bif rs then .wrdata b else .wrcmd b) s = .next t ∧ t.trace = s.trace ++ evs ∧
      busView s.lat evs = halvesOf (statusReads g.bytes ++ [.write rs b]) ∧
      evs.length = 22 * (g.polls.length + 2) + 1 + 26 ∧
      delaySum evs = 4 * (g.polls.length + 2) * s.cfg.tStrobe + s.cfg.tSettle + 4 * s.cfg.tStrobe

/-! ### The operations of the text interface -/

/-- Rules R164, R165: `CLEAR` and `HOME` on an idle block complete as the gated write of their configured byte. -/
def Obligations.ClearAndHomeComplete : Prop :=
  ∀ (s : State) (g : Gate) (rest : List Bool), s.seq = [] → s.answers = script g.bytes ++ rest → g.opens s.cfg = true →
    exec .clear s = .next (((s.gated g).wrote false s.cfg.cmdClear).responded .ok 0) ∧
    exec .home s = .next (((s.gated g).wrote false s.cfg.cmdHome).responded .ok 0)

/-- Rule R166: `GOTOXY` on an idle block completes as the gated write of `(CMD_SET_DDRAM + base + col) mod 256`, for either
line and every column the bounds check, if it is on, lets pass. -/
def Obligations.GotoxySendsBasePlusColumn : Prop :=
  ∀ (s : State) (col : Byte) (g : Gate) (rest : List Bool), s.seq = [] → s.answers = script g.bytes ++ rest →
    g.opens s.cfg = true → (s.cfg.checkBounds = false ∨ col.toNat < s.cfg.lineLength) →
    exec (.gotoxy col 0) s =
      .next (((s.gated g).wrote false (s.cfg.cmdSetDdram + s.cfg.line1Base.setWidth 8 + col)).responded .ok 0) ∧
    exec (.gotoxy col 1) s =
      .next (((s.gated g).wrote false (s.cfg.cmdSetDdram + s.cfg.line2Base.setWidth 8 + col)).responded .ok 0)

/-- Rule R167: the bounds check fails exactly for `col >= LINE_LENGTH` with the option on: then no event, no other change,
code 2; a word's row is in range; with the option off every column goes to the gate. -/
def Obligations.GotoxyBoundsCheck : Prop :=
  (∀ (s : State) (col : Byte) (row : Nat), s.seq = [] → s.cfg.checkBounds = true → s.cfg.lineLength ≤ col.toNat →
    exec (.gotoxy col row) s = .next { s with rsp := some ⟨.invalidAddress, 0⟩ }) ∧
  (∀ (s t : State) (col : Byte) (row : Nat) (d : Byte), s.seq = [] → exec (.gotoxy col row) s = .next t →
    t.rsp = some ⟨.invalidAddress, d⟩ → s.cfg.checkBounds = true ∧ s.cfg.lineLength ≤ col.toNat) ∧
  (∀ (s : State) (col : Byte) (row : Nat) (g : Gate) (rest : List Bool), s.seq = [] → s.cfg.checkBounds = false →
    s.answers = script g.bytes ++ rest → g.opens s.cfg = true →
    exec (.gotoxy col row) s = .next (((s.gated g).wrote false (gotoByte s.cfg col row)).responded .ok 0)) ∧
  (∀ (r : Request) (col : Byte) (row : Nat), decode r = .instr (.gotoxy col row) → row < 2) ∧
  Code.invalidAddress.bits = 2

/-- Rules R168, R170: `PUTC` of a character that is not the newline, where the wrap test finds no boundary, completes as one
gate and one data write; `POS` takes the byte of the re-read. -/
def Obligations.PutcWritesPlainCharacter : Prop :=
  ∀ (s : State) (ch : Byte) (g : Gate) (rest : List Bool), s.seq = [] → s.answers = script g.bytes ++ rest →
    g.opens s.cfg = true → ch ≠ s.cfg.chNewline →
    (s.cfg.wrap = false ∨
      (currentAddress g.reread).toNat ≠ s.cfg.line1Base.toNat + s.cfg.lineLength ∧
      (currentAddress g.reread).toNat ≠ s.cfg.line2Base.toNat + s.cfg.lineLength) →
    exec (.putc ch) s = .next ((((s.gated g).withPos g.reread).wrote true ch).responded .ok 0)

/-- Rule R169: `PUTC` of the newline completes with a gate, a second gate and the set-address of line 2 from an address
before its base, else of line 1. -/
def Obligations.PutcNewlineTogglesLine : Prop :=
  ∀ (s : State) (g g' : Gate) (rest : List Bool), s.seq = [] → s.answers = script (g.bytes ++ g'.bytes) ++ rest →
    g.opens s.cfg = true → g'.opens s.cfg = true →
    exec (.putc s.cfg.chNewline) s =
      .next (((((s.gated g).withPos g.reread).gated g').wrote false
        (s.cfg.cmdSetDdram + (if (currentAddress g.reread).toNat < s.cfg.line2Base.toNat then s.cfg.line2Base
          else s.cfg.line1Base).setWidth 8)).responded .ok 0)

/-- Rule R171: with `WRAP` on, `PUTC` of a character at a line's boundary completes with a gate, the silent set-address of
the other line's base, a second gate and the data write. -/
def Obligations.PutcWrapsAtLineEnd : Prop :=
  ∀ (s : State) (ch : Byte) (g g' : Gate) (rest : List Bool), s.seq = [] →
    s.answers = script (g.bytes ++ g'.bytes) ++ rest → g.opens s.cfg = true → g'.opens s.cfg = true →
    ch ≠ s.cfg.chNewline → s.cfg.wrap = true →
    ((currentAddress g.reread).toNat = s.cfg.line1Base.toNat + s.cfg.lineLength →
      exec (.putc ch) s =
        .next ((((((s.gated g).withPos g.reread).wrote false
          (s.cfg.cmdSetDdram + s.cfg.line2Base.setWidth 8)).gated g').wrote true ch).responded .ok 0)) ∧
    ((currentAddress g.reread).toNat ≠ s.cfg.line1Base.toNat + s.cfg.lineLength →
      (currentAddress g.reread).toNat = s.cfg.line2Base.toNat + s.cfg.lineLength →
      exec (.putc ch) s =
        .next ((((((s.gated g).withPos g.reread).wrote false
          (s.cfg.cmdSetDdram + s.cfg.line1Base.setWidth 8)).gated g').wrote true ch).responded .ok 0))

/-- Rule R172: the whole table, each row with any number of busy polls in each gate, at the default configuration with
`WRAP` off or on. -/
def Obligations.PutcFollowsItsTable : Prop :=
  ∀ (s : State) (wrap : Bool) (ch : Byte) (g g' : Gate) (rest : List Bool), s.seq = [] →
    s.cfg = defaultWithWrap wrap → s.answers = script (g.bytes ++ g'.bytes) ++ rest →
    g.opens s.cfg = true → g'.opens s.cfg = true → ∃ t evs,
      exec (.putc ch) s = .next t ∧ t.trace = s.trace ++ evs ∧
      busView s.lat evs = halvesOf (
        if ch = 0x0A then
          statusReads g.bytes ++ statusReads g'.bytes ++
            [.write false (if (currentAddress g.reread).toNat < 0x40 then 0xC0 else 0x80)]
        else if wrap = true ∧ currentAddress g.reread = 0x10 then
          statusReads g.bytes ++ [.write false 0xC0] ++ statusReads g'.bytes ++ [.write true ch]
        else if wrap = true ∧ currentAddress g.reread = 0x50 then
          statusReads g.bytes ++ [.write false 0x80] ++ statusReads g'.bytes ++ [.write true ch]
        else statusReads g.bytes ++ [.write true ch]) ∧
      evs.length =
        (if ch = 0x0A then 116 + 22 * (g.polls.length + g'.polls.length)
        else if wrap = true ∧ (currentAddress g.reread = 0x10 ∨ currentAddress g.reread = 0x50) then
          142 + 22 * (g.polls.length + g'.polls.length)
        else 71 + 22 * g.polls.length)

/-- Rules R160, R161: `INIT` on an idle block, whatever its pins, completes with the pins set up and the reset half-cycles,
then four gated commands: function set, clear, entry mode and the caller's byte. -/
def Obligations.InitRunsFourGatedCommands : Prop :=
  ∀ (s : State) (a : Byte) (g1 g2 g3 g4 : Gate) (rest : List Bool), s.seq = [] →
    s.answers = script (g1.bytes ++ g2.bytes ++ g3.bytes ++ g4.bytes) ++ rest → g1.opens s.cfg = true →
    g2.opens s.cfg = true → g3.opens s.cfg = true → g4.opens s.cfg = true →
    exec (.init a) s =
      .next ((((((((((s.pinsSetUp.gated g1).wrote false s.cfg.cmdFunction).gated g2).wrote false s.cfg.cmdClear).gated
        g3).wrote false s.cfg.cmdEntry).gated g4).wrote false a)).responded .ok 0)

/-- Rule R162: `INIT` on a ready controller at the default parameters. -/
def Obligations.InitOnReadyController : Prop :=
  ∀ (s : State) (a p1 r1 p2 r2 p3 r3 p4 r4 : Byte) (rest : List Bool), s.seq = [] → s.cfg = Config.default →
    s.answers = script [p1, r1, p2, r2, p3, r3, p4, r4] ++ rest →
    busyFlag p1 = false → busyFlag p2 = false → busyFlag p3 = false → busyFlag p4 = false → ∃ t evs,
      exec (.init a) s = .next t ∧ t.trace = s.trace ++ evs ∧
      busView s.lat evs = [.w false 0x3, .w false 0x3, .w false 0x3, .w false 0x2] ++
        halvesOf [.read false p1, .read false r1, .write false 0x28, .read false p2, .read false r2, .write false 0x01,
          .read false p3, .read false r3, .write false 0x06, .read false p4, .read false r4, .write false a] ∧
      evs.length = 331 ∧ delaySum evs = 19464 ∧ ∀ n, Half.w true n ∉ busView s.lat evs

/-- Rules R35, R36, R40: the pins an operation that ended well leaves. Every one that ends in a write leaves them
write-idle; `RDSTAT`, `BUS.RS` and `BUS.RD` leave them read-idle with the data latches as they were. `INIT` needs nothing
of the pins before it; every other needs the control pins to be outputs, as `INIT` made them (rule R110). -/
def Obligations.CompletedOperationsLeavePinsIdle : Prop :=
  ∀ (i : Instr) (s t : State) (d : Byte), s.seq = [] →
    ((∃ a, i = .init a) ∨ (s.dir.e = .out ∧ s.dir.rs = .out ∧ s.dir.rw = .out)) →
    exec i s = .next t → t.rsp = some ⟨.ok, d⟩ →
    (endsInRead i = false → t.WriteIdle) ∧
    (endsInRead i = true → t.ReadIdle ∧
      (t.lat.db7 = s.lat.db7 ∧ t.lat.db6 = s.lat.db6 ∧ t.lat.db5 = s.lat.db5 ∧ t.lat.db4 = s.lat.db4)) ∧
    (∀ a, i = .init a → t.lat.rs = .low)

/-- Rules R146, R197: `NotReady` leaves the block idle and the pins read-idle. -/
def Obligations.NotReadyLeavesPinsReadIdle : Prop :=
  ∀ (i : Instr) (s t : State) (d : Byte), s.seq = [] →
    ((∃ a, i = .init a) ∨ (s.dir.e = .out ∧ s.dir.rs = .out ∧ s.dir.rw = .out)) →
    exec i s = .next t → t.rsp = some ⟨.notReady, d⟩ → t.ReadIdle ∧ t.lat.rs = .low ∧ t.seq = [] ∧ d = 0

/-- Rules R146, R163, R191: an instruction whose first gate is answered `MAX_POLL` busy polls ends with `NotReady` there:
none of its writes is issued; `INIT` has done its steps I1 to I4. -/
def Obligations.FirstGateTimeoutEndsOperation : Prop :=
  ∀ (s : State) (polls : List Byte) (rest : List Bool), s.seq = [] → s.cfg.maxPoll = some polls.length → polls ≠ [] →
    polls.all busyFlag = true → s.answers = script polls ++ rest →
    (∀ i, gatedFirst i = true → passesBounds s.cfg i = true →
      exec i s = .next ((s.timedOutAfter polls).responded .notReady 0)) ∧
    ∀ a, exec (.init a) s = .next ((s.pinsSetUp.timedOutAfter polls).responded .notReady 0)

/-- Rules R146, R163, R196: "the first gate to time out ends it": a later gate of `INIT`, of the newline or of the wrap that
is answered `MAX_POLL` busy polls ends the operation with `NotReady`, after the transactions completed before it. -/
def Obligations.LaterGateTimeoutEndsOperation : Prop :=
  ∀ (s : State) (polls : List Byte) (g1 g2 g3 : Gate) (rest : List Bool), s.seq = [] →
    s.cfg.maxPoll = some polls.length → polls ≠ [] → polls.all busyFlag = true → g1.opens s.cfg = true →
    g2.opens s.cfg = true → g3.opens s.cfg = true →
    (s.answers = script (g1.bytes ++ polls) ++ rest →
      (∀ a, exec (.init a) s = .next
        ((((s.pinsSetUp.gated g1).wrote false s.cfg.cmdFunction).timedOutAfter polls).responded .notReady 0)) ∧
      exec (.putc s.cfg.chNewline) s = .next
        ((((s.gated g1).withPos g1.reread).timedOutAfter polls).responded .notReady 0) ∧
      ∀ ch, ch ≠ s.cfg.chNewline → s.cfg.wrap = true →
        ((currentAddress g1.reread).toNat = s.cfg.line1Base.toNat + s.cfg.lineLength →
          exec (.putc ch) s = .next ((((((s.gated g1).withPos g1.reread).wrote false
            (s.cfg.cmdSetDdram + s.cfg.line2Base.setWidth 8)).timedOutAfter polls).responded .notReady 0))) ∧
        ((currentAddress g1.reread).toNat ≠ s.cfg.line1Base.toNat + s.cfg.lineLength →
          (currentAddress g1.reread).toNat = s.cfg.line2Base.toNat + s.cfg.lineLength →
          exec (.putc ch) s = .next ((((((s.gated g1).withPos g1.reread).wrote false
            (s.cfg.cmdSetDdram + s.cfg.line1Base.setWidth 8)).timedOutAfter polls).responded .notReady 0)))) ∧
    (s.answers = script (g1.bytes ++ g2.bytes ++ polls) ++ rest → ∀ a, exec (.init a) s = .next
      ((((((s.pinsSetUp.gated g1).wrote false s.cfg.cmdFunction).gated g2).wrote false
        s.cfg.cmdClear).timedOutAfter polls).responded .notReady 0)) ∧
    (s.answers = script (g1.bytes ++ g2.bytes ++ g3.bytes ++ polls) ++ rest → ∀ a, exec (.init a) s = .next
      ((((((((s.pinsSetUp.gated g1).wrote false s.cfg.cmdFunction).gated g2).wrote false s.cfg.cmdClear).gated
        g3).wrote false s.cfg.cmdEntry).timedOutAfter polls).responded .notReady 0))

/-- Rule R173: `print` is one `PUTC` for each character in order; characters that need no newline and no wrap show their
gates and data writes one after the other; a character that fails ends the text. Where a character only starts (log 6), the
rest of the text waits (log 22): it stays through the steps of the sequencer, the block that is idle again sends its next
character after an `Ok`, before any word of the port, and after a failure the remaining characters are not sent. THE MODEL'S
CHOICE: `execPrint` on a block that is not idle answers the state unchanged (log 16; rules R59 and R70 say only that such a
block takes no operation, and entry U6 writes `stuck`); and what a second text does while one waits, to which rule R239 gives
no meaning (log 28). -/
def Obligations.PrintSendsCharactersInOrder : Prop :=
  (∀ s : State, execPrint [] s = .next s) ∧
  (∀ (text : List Byte) (s : State), s.seq ≠ [] → execPrint text s = .next s) ∧
  (∀ (ch : Byte) (text : List Byte) (s t : State), s.seq = [] → exec (.putc ch) s = .next t →
    (t.seq = [] → (∃ d, t.rsp = some ⟨.ok, d⟩) → execPrint (ch :: text) s = execPrint text t) ∧
    ((∃ d, t.rsp = some ⟨.notReady, d⟩) → execPrint (ch :: text) s = .next t) ∧
    (t.seq ≠ [] → execPrint (ch :: text) s = .next { t with text := text })) ∧
  (∀ s t : State, s.seq ≠ [] → step s = .next t → t.text = s.text) ∧
  (∀ (s : State) (ch : Byte) (text : List Byte) (r : Response), s.seq = [] → s.text = ch :: text → s.rsp = some r →
    (r.code = .ok → step s = exec (.putc ch) { s with text := text }) ∧
    (r.code ≠ .ok → step s = .next { s with text := [] })) ∧
  ∀ (items : List (Byte × Gate)) (s : State) (rest : List Bool), s.seq = [] →
    (∀ x ∈ items, x.1 ≠ s.cfg.chNewline ∧ wrapCase s.cfg (currentAddress x.2.reread) = .noWrap ∧
      x.2.opens s.cfg = true) →
    s.answers = script (items.flatMap fun x => x.2.bytes) ++ rest →
    ∃ t, execPrint (items.map Prod.fst) s = .next t ∧ t.seq = [] ∧ t.trace = s.trace ++ printEvents s.cfg items ∧
      t.answers = rest

/-! ### Waiting, and the sequencer against the operation -/

/-- Rules R152, R193: with `MAX_POLL` none, `n` busy polls, for every `n`, leave the gate at its poll again: it has emitted
the poll reads and nothing else, and no caller has moved. -/
def Obligations.BusyPollsNeverPassTheGate : Prop :=
  ∀ (s : State) (polls : List Byte) (rest : List Bool) (callers : List Frame), s.seq = ⟨.waitReady, 1⟩ :: callers →
    s.cfg.maxPoll = none → s.answers = script polls ++ rest → polls.all busyFlag = true →
    ∃ t, Host.Core.run core (24 * polls.length) s = .next t ∧ t.seq = ⟨.waitReady, 1⟩ :: callers ∧
      t.trace = s.trace ++ pollEvents s.cfg polls ∧ t.answers = rest ∧ t.rsp = s.rsp ∧ t.cmds = s.cmds

/-- THE MODEL'S CHOICE (log 6): where the answers State holds end inside the first gate, the instruction is accepted and its
outermost frame stands at its first step; the sequencer goes on from there (rule R32). -/
def Obligations.UnansweredGateStartsSequencer : Prop :=
  ∀ (i : Instr) (s : State) (polls : List Byte) (rest : List Bool), s.seq = [] →
    (gatedFirst i = true ∨ ∃ a, i = .init a) → passesBounds s.cfg i = true → s.answers = script polls ++ rest →
    polls.all busyFlag = true → allowsPolls s.cfg polls.length = true →
    (rest.length < 8 ∨ ∃ ready more, rest = bitsOf ready ++ more ∧ busyFlag ready = false ∧ more.length < 8) →
    exec i s = .next { s with rsp := none, seq := [⟨entryRoutine s.cfg i, 0⟩] }

/-- Rules R13, R32, R59: an instruction that runs to its end at once comes to the very state its sequencer reaches step by
step from its first frame: same pins, same registers, same trace, same answer to the host. (Running at once is the
model's choice; log 6.) -/
def Obligations.SequencerReachesTheSameEnd : Prop :=
  ∀ (i : Instr) (s t : State), s.seq = [] → exec i s = .next t → t.seq = [] →
    ∃ k, Host.Core.run core k (s.start (entryRoutine s.cfg i)) = .next t

/-! ### Invariants -/

/-- Every step keeps the invariant: `SEQ` has a legal shape (rules R30, R32), `E` is high exactly inside a strobe (rule R37),
and the pins show what the transaction in progress has put there (rules R120, R122, R160). -/
def Obligations.StepKeepsInvariant : Prop := ∀ s t : State, s.Inv → step s = .next t → t.Inv

/-- Rules R190, R193: from a state that meets the invariant the block never stops: no fault and no refusal, however long it
runs. -/
def Obligations.InvariantStatesRunForever : Prop := ∀ s : State, s.Inv → s.RunsForever

/-- Rule R30: `SEQ` has at most four frames. -/
def Obligations.SequencerHasAtMostFourFrames : Prop := ∀ s : State, s.Inv → s.seq.length ≤ 4

/-- Rules R37, R233: while `E` is high a step emits one event, a `Dly`, a `Rd` or the `Lo(E)` that ends the strobe; no
direction and no other level changes. -/
def Obligations.StrobeHoldsPinsStill : Prop :=
  ∀ s t : State, s.Inv → s.lat.e = .high → step s = .next t → ∃ ev, t.trace = s.trace ++ [ev] ∧ t.dir = s.dir ∧
    ((ev.insideStrobe = true ∧ t.lat = s.lat) ∨ (ev = .lo .e ∧ t.lat = { s.lat with e := .low }))

/-- Rule R234: whenever `E` is high, the block drives the four data wires if `RW` says write, and none of them if `RW` says
read. -/
def Obligations.BlockNeverDrivesAgainstController : Prop :=
  ∀ s : State, s.Inv → s.lat.e = .high →
    (s.lat.rw = .high ∧ s.dir.db7 = .inp ∧ s.dir.db6 = .inp ∧ s.dir.db5 = .inp ∧ s.dir.db4 = .inp) ∨
    (s.lat.rw = .low ∧ s.dir.db7 = .out ∧ s.dir.db6 = .out ∧ s.dir.db5 = .out ∧ s.dir.db4 = .out)

/-- Rule R62: a `Rd` is issued only on a data pin that is an input, while `RW` is high and `E` is high. -/
def Obligations.SamplesAreTakenInsideReadStrobes : Prop :=
  ∀ (s t : State) (p : Pin) (v : Bool), s.Inv → s.seq ≠ [] → step s = .next t → t.trace = s.trace ++ [.rd p v] →
    isDataPin p = true ∧ s.dir.get p = .inp ∧ s.lat.rw = .high ∧ s.lat.e = .high

/-- Rules R13, R24, R34: a step, in any state, changes no configuration and takes back no event; it makes no control pin an
input and reads none. -/
def Obligations.StepKeepsConfigurationAndControlPins : Prop :=
  ∀ s t : State, step s = .next t → t.cfg = s.cfg ∧
    (s.dir.e = .out → t.dir.e = .out) ∧ (s.dir.rs = .out → t.dir.rs = .out) ∧ (s.dir.rw = .out → t.dir.rw = .out) ∧
    ∃ evs, t.trace = s.trace ++ evs ∧
      ∀ ev ∈ evs, ∀ p, (ev = .inp p ∨ ∃ v, ev = .rd p v) → isDataPin p = true

/-- The frame of every instruction (rules R26 to R29, R34): the configuration, the port and the rest of a text stay; `POS`
changes only in `PUTC`; `DREG` only where a write may be made; `SREG` and the answers only where a read is made; `PCNT` only in a gate with
`MAX_POLL` a number; only `INIT` changes the direction of a control pin. -/
def Obligations.EveryInstructionKeepsItsFrame : Prop :=
  ∀ (i : Instr) (s t : State), exec i s = .next t →
    t.cfg = s.cfg ∧ t.cmds = s.cmds ∧ t.text = s.text ∧ (∃ evs, t.trace = s.trace ++ evs) ∧
    ((∀ ch, i ≠ .putc ch) → t.pos = s.pos) ∧
    (endsInRead i = true → t.dreg = s.dreg) ∧
    (plainWrite i = true → t.sreg = s.sreg ∧ t.answers = s.answers ∧ t.draws = s.draws) ∧
    (s.cfg.maxPoll = none ∨ plainWrite i = true ∨ i = .busRs ∨ i = .busRd → t.pcnt = s.pcnt) ∧
    ((∀ a, i ≠ .init a) → t.dir.e = s.dir.e ∧ t.dir.rs = s.dir.rs ∧ t.dir.rw = s.dir.rw)

/-- Rule R41, for an operation that runs at once: what it emits, what it answers and where `SEQ` stands after it depend on
its arguments, the configuration and the answers to its `Rd` events, and on nothing else of the state before it. -/
def Obligations.OperationDependsOnlyOnAnswers : Prop :=
  ∀ (i : Instr) (s s' t t' : State), s.seq = [] → s'.seq = [] → s.cfg = s'.cfg → s.answers = s'.answers →
    s.draws = s'.draws → exec i s = .next t → exec i s' = .next t' →
    t.rsp = t'.rsp ∧ t.seq = t'.seq ∧ ∃ evs, t.trace = s.trace ++ evs ∧ t'.trace = s'.trace ++ evs

/-- Rule R99: the layout and the codes of a response, and its data: the status byte for `RDSTAT` with `Ok`, else 0x00,
whether the operation runs at once, ends at a step of the sequencer, or is a reserved word; with both hardening options
off the code of every legal operation is 0. THE MODEL'S READING: the data 0x00 of `BUS.RS` and `BUS.RD` (log 9), and that a
rejected request of the formats `CYCLE` and `LCDI`, which is no command word, is answered `Illegal` (logs 7, 24 and 26). -/
def Obligations.ResponsesFollowTheirFormat : Prop :=
  (∀ r : Response, r.bits.extractLsb' 8 2 = r.code.bits ∧ r.bits.extractLsb' 0 8 = r.data) ∧
  (Code.ok.bits = 0 ∧ Code.notReady.bits = 1 ∧ Code.invalidAddress.bits = 2 ∧ Code.illegal.bits = 3) ∧
  (∀ (i : Instr) (s t : State) (r : Response), s.seq = [] → exec i s = .next t → t.rsp = some r →
    r.data = (if i = .rdstat ∧ r.code = .ok then t.sreg else 0) ∧
    (s.cfg.maxPoll = none → s.cfg.checkBounds = false → r.code = .ok)) ∧
  (∀ s t : State, s.seq ≠ [] → step s = .next t → t.seq = [] → ∃ r outer, t.rsp = some r ∧
    s.seq.getLast? = some outer ∧ r.data = (if outer.routine = .readStatus ∧ r.code = .ok then t.sreg else 0) ∧
    (s.cfg.maxPoll = none → s.cfg.checkBounds = false → r.code = .ok)) ∧
  ∀ (s : State) (r : Request) (rest : List Request) (why : DecodeError), s.seq = [] → s.text = [] →
    s.cmds = r :: rest → decode r = .reject why → step s = .next { s with cmds := rest, rsp := some ⟨.illegal, 0⟩ }

/-- Rules R37, R114, R118, R230: every strobe an instruction emits is `Hi(E)`, the hold of the high phase, nothing but `Dly`
and `Rd`, `Lo(E)` and the hold after it; none is left half done. (For an instruction that `exec` only starts there is no
event yet, and `StepKeepsStrobeShape` speaks of its steps.) -/
def Obligations.StrobesKeepTheirShape : Prop :=
  ∀ (i : Instr) (s t : State) (evs : List Event), s.seq = [] → exec i s = .next t → t.trace = s.trace ++ evs →
    strobesKept s.cfg.tStrobe .outside evs = true

/-- Rules R140, R147: what a host command shows the controller is, after the reset half-cycles of `INIT`, whole transactions
of which every write comes at once after a status read that showed `BF = 0` and one more status read. (For a command that
`exec` only starts there is no event yet, and `SequencerGatesItsWrites` speaks of its steps.) -/
def Obligations.EveryCommandGatesItsWrites : Prop :=
  ∀ (i : Instr) (w : CommandWord) (s t : State) (evs : List Event), encode i = .cw w → s.seq = [] →
    exec i s = .next t → t.trace = s.trace ++ evs → ∃ halfCycles ts,
      busView s.lat evs = halfCycles ++ halvesOf ts ∧ writesGated false false ts = true ∧
      ((∀ a, i ≠ .init a) → halfCycles = []) ∧ halfCycles.length ≤ s.cfg.resetSeq.length ∧
      ∀ h ∈ halfCycles, ∃ n, h = Half.w false n

/-! ### The steps of the sequencer, on any answers -/

/-- THE MODEL'S CHOICE (log 3): answers that State holds and answers that are drawn are the same to a running operation. Of two
states that differ only in how the same levels ahead are given, a step leads to two states that differ only so. -/
def Obligations.HeldAndDrawnAnswersStepAlike : Prop :=
  ∀ s s' t : State, s.seq ≠ [] → s.SameAhead s' → step s = .next t → ∃ t', step s' = .next t' ∧ t.SameAhead t'

/-- Rules R13, R32, R62: an instruction that is only started, for want of held answers, comes step by step to the very end it
has at once on the levels its draws will give (`answers` is those levels, as many as one likes): same pins, same registers,
same trace, same answer to the host. So what is stated of operations run at once is true of operations run by the sequencer
on drawn answers. (Running at once and the form of the answers are the model's choice; logs 3 and 6.) -/
def Obligations.SequencerEndsOnDrawnAnswers : Prop :=
  ∀ (i : Instr) (s t : State) (answers : List Bool), s.seq = [] → s.SameAhead { s with answers := answers } →
    exec i { s with answers := answers } = .next t → t.seq = [] →
    ∃ k u, Host.Core.run core k (s.start (entryRoutine s.cfg i)) = .next u ∧ u.SameAhead t

/-- Rules R140, R143, R147, step by step and on any answers, held or drawn: every step keeps what the trace says of the gate;
so a step that enters `WriteByte` from a caller emits nothing, and the trace before it ends with a status read that showed
`BF = 0`, the settle, and one more status read, whose byte is in `SREG`; and when the last event of that write is emitted, the
trace ends with that gate and then the whole write. -/
def Obligations.SequencerGatesItsWrites : Prop :=
  (∀ s t : State, s.Inv → s.GateOk → step s = .next t → t.GateOk) ∧
  (∀ (s t : State) (rs : Bool) (b : Byte) (caller : Frame) (callers : List Frame), s.Inv → s.GateOk →
    step s = .next t → t.seq = ⟨.writeByte rs b, 0⟩ :: caller :: callers → t.trace = s.trace ∧ s.GatePassed) ∧
  ∀ (s t : State) (rs : Bool) (b : Byte) (caller : Frame) (callers : List Frame), s.Inv → s.GateOk →
    step s = .next t → s.seq = ⟨.writeByte rs b, 25⟩ :: caller :: callers → ∃ before poll, busyFlag poll = false ∧
      t.trace = before ++ gateEnd s.cfg poll s.sreg ++ writeEvents s.cfg rs b

/-- Rules R37, R114, R118, R230, step by step: every step, of the sequencer too, keeps the shape of the strobes: `Hi(E)`, at once
the hold of the high phase, then nothing but `Dly` and `Rd`, `Lo(E)`, and at once the hold after it; and in an idle block
none is half done. -/
def Obligations.StepKeepsStrobeShape : Prop :=
  (∀ s t : State, s.Inv → s.StrobesOk → step s = .next t → t.StrobesOk) ∧
  ∀ s : State, s.StrobesOk → s.seq = [] → strobesKept s.cfg.tStrobe .outside s.trace = true

/-- Rules R30, R31, R111 to R118. A call goes to a deeper level, but for `WaitReady`, which the gated operations of its own level
call (rules R148 to R150); so the levels of the frames of `SEQ` never rise from the bottom to the top. THE MODEL'S READING
(log 10): level L0 is no frame but the view `nibbleFrames`, since rule R126 numbers the steps of level L1 by events; a step at
which the block stands within a routine of level L0 emits the event of that routine's step. -/
def Obligations.FramesFollowTheLevels : Prop :=
  (∀ (cfg : Configuration) (r callee : Routine) (n : Nat), stepOf cfg r n = some (.call callee) →
    callee.level < r.level ∨ (r.level = 2 ∧ callee = .waitReady)) ∧
  (∀ s : State, s.Inv → (s.seq.map fun f => f.routine.level).Pairwise (· ≤ ·)) ∧
  ∀ (s : State) (q : NibbleFrame) (outer : List NibbleFrame), s.Inv → s.nibbleFrames = q :: outer → ∃ t ev,
    step s = .next t ∧ t.trace = s.trace ++ [ev] ∧ (q.routine.events s.cfg s.answer)[q.step]? = some ev

end
end

