-- ==== Sys2Proof/Laws/State.lean ====
section
/-! SUPPORT. The small lemmas of the state and of the shared operations: one for each field an operation leaves or
sets, true by rfl. -/

namespace Sys2Proof.Machine

section Emit
variable (s : State) (ev : Event)

@[simp] theorem emit_cfg : (s.emit ev).cfg = s.cfg := rfl
@[simp] theorem emit_dir : (s.emit ev).dir = ev.dirAfter s.dir := rfl
@[simp] theorem emit_lat : (s.emit ev).lat = ev.latAfter s.lat := rfl
@[simp] theorem emit_dreg : (s.emit ev).dreg = s.dreg := rfl
@[simp] theorem emit_sreg : (s.emit ev).sreg = s.sreg := rfl
@[simp] theorem emit_pos : (s.emit ev).pos = s.pos := rfl
@[simp] theorem emit_pcnt : (s.emit ev).pcnt = s.pcnt := rfl
@[simp] theorem emit_seq : (s.emit ev).seq = s.seq := rfl
@[simp] theorem emit_rsp : (s.emit ev).rsp = s.rsp := rfl
@[simp] theorem emit_cmds : (s.emit ev).cmds = s.cmds := rfl
@[simp] theorem emit_text : (s.emit ev).text = s.text := rfl
@[simp] theorem emit_answers : (s.emit ev).answers = s.answers := rfl
@[simp] theorem emit_draws : (s.emit ev).draws = s.draws := rfl
@[simp] theorem emit_trace : (s.emit ev).trace = s.trace ++ [ev] := rfl

end Emit

section EventPins
variable (p : Pin) (v : Bool) (n : Nat) (d : Bank Dir) (l : Bank Level)

@[simp] theorem out_dirAfter : (Event.out p).dirAfter d = d.set p .out := rfl
@[simp] theorem inp_dirAfter : (Event.inp p).dirAfter d = d.set p .inp := rfl
@[simp] theorem hi_dirAfter : (Event.hi p).dirAfter d = d := rfl
@[simp] theorem lo_dirAfter : (Event.lo p).dirAfter d = d := rfl
@[simp] theorem rd_dirAfter : (Event.rd p v).dirAfter d = d := rfl
@[simp] theorem dly_dirAfter : (Event.dly n).dirAfter d = d := rfl
@[simp] theorem setEvent_dirAfter : (setEvent p v).dirAfter d = d := by cases v <;> rfl

@[simp] theorem out_latAfter : (Event.out p).latAfter l = l := rfl
@[simp] theorem inp_latAfter : (Event.inp p).latAfter l = l := rfl
@[simp] theorem hi_latAfter : (Event.hi p).latAfter l = l.set p .high := rfl
@[simp] theorem lo_latAfter : (Event.lo p).latAfter l = l.set p .low := rfl
@[simp] theorem rd_latAfter : (Event.rd p v).latAfter l = l := rfl
@[simp] theorem dly_latAfter : (Event.dly n).latAfter l = l := rfl
@[simp] theorem setEvent_latAfter : (setEvent p v).latAfter l = l.set p (levelOf v) := by cases v <;> rfl

end EventPins

section BankFields
variable {α : Type} (b : Bank α) (a : α)

@[simp] theorem set_e : b.set .e a = { b with e := a } := rfl
@[simp] theorem set_rs : b.set .rs a = { b with rs := a } := rfl
@[simp] theorem set_rw : b.set .rw a = { b with rw := a } := rfl
@[simp] theorem set_db7 : b.set .db7 a = { b with db7 := a } := rfl
@[simp] theorem set_db6 : b.set .db6 a = { b with db6 := a } := rfl
@[simp] theorem set_db5 : b.set .db5 a = { b with db5 := a } := rfl
@[simp] theorem set_db4 : b.set .db4 a = { b with db4 := a } := rfl

end BankFields

section EmitAll
variable (s : State)

@[simp] theorem emitAll_nil : s.emitAll [] = s := rfl
@[simp] theorem emitAll_cons (ev : Event) (evs : List Event) : s.emitAll (ev :: evs) = (s.emit ev).emitAll evs := rfl

end EmitAll

/-- What several events in order do to the state. -/
theorem emitAll_eq (s : State) (evs : List Event) :
    s.emitAll evs = { s with dir := evs.foldl (fun d ev => ev.dirAfter d) s.dir
                             lat := evs.foldl (fun l ev => ev.latAfter l) s.lat
                             trace := s.trace ++ evs } := by
  induction evs generalizing s with
  | nil => simp
  | cons ev evs ih => simp [ih, State.emit]

section Rd
variable (s : State) (p : Pin)

@[simp] theorem rd_cfg : (s.rd p).cfg = s.cfg := rfl
@[simp] theorem rd_dir : (s.rd p).dir = s.dir := rfl
@[simp] theorem rd_lat : (s.rd p).lat = s.lat := rfl
@[simp] theorem rd_dreg : (s.rd p).dreg = s.dreg := rfl
@[simp] theorem rd_sreg : (s.rd p).sreg = s.sreg := rfl
@[simp] theorem rd_pos : (s.rd p).pos = s.pos := rfl
@[simp] theorem rd_pcnt : (s.rd p).pcnt = s.pcnt := rfl
@[simp] theorem rd_seq : (s.rd p).seq = s.seq := rfl
@[simp] theorem rd_rsp : (s.rd p).rsp = s.rsp := rfl
@[simp] theorem rd_cmds : (s.rd p).cmds = s.cmds := rfl
@[simp] theorem rd_text : (s.rd p).text = s.text := rfl
@[simp] theorem rd_answers : (s.rd p).answers = s.answers.tail := rfl
@[simp] theorem rd_draws : (s.rd p).draws = s.draws + 1 := rfl
@[simp] theorem rd_trace : (s.rd p).trace = s.trace ++ [.rd p s.answer] := rfl

end Rd

section Frames
variable (s : State) (r : Routine) (callers : List Frame)

@[simp] theorem call_cfg : (s.call r callers).cfg = s.cfg := rfl
@[simp] theorem call_dir : (s.call r callers).dir = s.dir := rfl
@[simp] theorem call_lat : (s.call r callers).lat = s.lat := rfl
@[simp] theorem call_sreg : (s.call r callers).sreg = s.sreg := rfl
@[simp] theorem call_pos : (s.call r callers).pos = s.pos := rfl
@[simp] theorem call_pcnt : (s.call r callers).pcnt = s.pcnt := rfl
@[simp] theorem call_seq : (s.call r callers).seq = ⟨r, 0⟩ :: callers := rfl
@[simp] theorem call_rsp : (s.call r callers).rsp = s.rsp := rfl
@[simp] theorem call_cmds : (s.call r callers).cmds = s.cmds := rfl
@[simp] theorem call_text : (s.call r callers).text = s.text := rfl
@[simp] theorem call_answers : (s.call r callers).answers = s.answers := rfl
@[simp] theorem call_draws : (s.call r callers).draws = s.draws := rfl
@[simp] theorem call_trace : (s.call r callers).trace = s.trace := rfl

@[simp] theorem accept_cfg : s.accept.cfg = s.cfg := rfl
@[simp] theorem accept_dir : s.accept.dir = s.dir := rfl
@[simp] theorem accept_lat : s.accept.lat = s.lat := rfl
@[simp] theorem accept_sreg : s.accept.sreg = s.sreg := rfl
@[simp] theorem accept_pcnt : s.accept.pcnt = s.pcnt := rfl
@[simp] theorem accept_seq : s.accept.seq = s.seq := rfl
@[simp] theorem accept_rsp : s.accept.rsp = none := rfl
@[simp] theorem accept_cmds : s.accept.cmds = s.cmds := rfl
@[simp] theorem accept_text : s.accept.text = s.text := rfl
@[simp] theorem accept_answers : s.accept.answers = s.answers := rfl
@[simp] theorem accept_draws : s.accept.draws = s.draws := rfl
@[simp] theorem accept_trace : s.accept.trace = s.trace := rfl

@[simp] theorem start_cfg : (s.start r).cfg = s.cfg := rfl
@[simp] theorem start_dir : (s.start r).dir = s.dir := rfl
@[simp] theorem start_lat : (s.start r).lat = s.lat := rfl
@[simp] theorem start_seq : (s.start r).seq = [⟨r, 0⟩] := rfl
@[simp] theorem start_rsp : (s.start r).rsp = none := rfl
@[simp] theorem start_cmds : (s.start r).cmds = s.cmds := rfl
@[simp] theorem start_text : (s.start r).text = s.text := rfl
@[simp] theorem start_trace : (s.start r).trace = s.trace := rfl

@[simp] theorem complete_cfg : (s.complete r).cfg = s.cfg := rfl
@[simp] theorem complete_dir : (s.complete r).dir = s.dir := rfl
@[simp] theorem complete_lat : (s.complete r).lat = s.lat := rfl
@[simp] theorem complete_dreg : (s.complete r).dreg = s.dreg := rfl
@[simp] theorem complete_sreg : (s.complete r).sreg = s.sreg := rfl
@[simp] theorem complete_pos : (s.complete r).pos = s.pos := rfl
@[simp] theorem complete_pcnt : (s.complete r).pcnt = s.pcnt := rfl
@[simp] theorem complete_seq : (s.complete r).seq = [] := rfl
@[simp] theorem complete_rsp : (s.complete r).rsp = some ⟨.ok, s.responseData r⟩ := rfl
@[simp] theorem complete_cmds : (s.complete r).cmds = s.cmds := rfl
@[simp] theorem complete_text : (s.complete r).text = s.text := rfl
@[simp] theorem complete_answers : (s.complete r).answers = s.answers := rfl
@[simp] theorem complete_draws : (s.complete r).draws = s.draws := rfl
@[simp] theorem complete_trace : (s.complete r).trace = s.trace := rfl

end Frames

section Raise
variable (s : State) (k : Code)

@[simp] theorem raise_cfg : (s.raise k).cfg = s.cfg := rfl
@[simp] theorem raise_dir : (s.raise k).dir = s.dir := rfl
@[simp] theorem raise_lat : (s.raise k).lat = s.lat := rfl
@[simp] theorem raise_dreg : (s.raise k).dreg = s.dreg := rfl
@[simp] theorem raise_sreg : (s.raise k).sreg = s.sreg := rfl
@[simp] theorem raise_pos : (s.raise k).pos = s.pos := rfl
@[simp] theorem raise_pcnt : (s.raise k).pcnt = s.pcnt := rfl
@[simp] theorem raise_seq : (s.raise k).seq = [] := rfl
@[simp] theorem raise_rsp : (s.raise k).rsp = some ⟨k, 0⟩ := rfl
@[simp] theorem raise_cmds : (s.raise k).cmds = s.cmds := rfl
@[simp] theorem raise_text : (s.raise k).text = s.text := rfl
@[simp] theorem raise_answers : (s.raise k).answers = s.answers := rfl
@[simp] theorem raise_draws : (s.raise k).draws = s.draws := rfl
@[simp] theorem raise_trace : (s.raise k).trace = s.trace := rfl

end Raise

section Count
variable (s : State)

@[simp] theorem zeroCount_cfg : s.zeroCount.cfg = s.cfg := rfl
@[simp] theorem zeroCount_lat : s.zeroCount.lat = s.lat := rfl
@[simp] theorem zeroCount_dir : s.zeroCount.dir = s.dir := rfl
@[simp] theorem zeroCount_dreg : s.zeroCount.dreg = s.dreg := rfl
@[simp] theorem zeroCount_sreg : s.zeroCount.sreg = s.sreg := rfl
@[simp] theorem zeroCount_text : s.zeroCount.text = s.text := rfl
@[simp] theorem zeroCount_seq : s.zeroCount.seq = s.seq := rfl
@[simp] theorem zeroCount_answers : s.zeroCount.answers = s.answers := rfl
@[simp] theorem zeroCount_trace : s.zeroCount.trace = s.trace := rfl

@[simp] theorem countPoll_cfg : s.countPoll.cfg = s.cfg := rfl
@[simp] theorem countPoll_lat : s.countPoll.lat = s.lat := rfl
@[simp] theorem countPoll_dir : s.countPoll.dir = s.dir := rfl
@[simp] theorem countPoll_dreg : s.countPoll.dreg = s.dreg := rfl
@[simp] theorem countPoll_sreg : s.countPoll.sreg = s.sreg := rfl
@[simp] theorem countPoll_text : s.countPoll.text = s.text := rfl
@[simp] theorem countPoll_seq : s.countPoll.seq = s.seq := rfl
@[simp] theorem countPoll_answers : s.countPoll.answers = s.answers := rfl
@[simp] theorem countPoll_trace : s.countPoll.trace = s.trace := rfl

end Count

section Pins
variable {α : Type} (b : Bank α) (a : α)

@[simp] theorem bank_set_get (p : Pin) : (b.set p a).get p = a := by cases p <;> rfl

theorem bank_set_get_other {p q : Pin} (h : q ≠ p) : (b.set p a).get q = b.get q := by
  cases p <;> cases q <;> first | rfl | exact absurd rfl h

end Pins

/-! ### What running an operation can come to -/

@[simp] theorem andThen_done (s : State) (f : State → Progress) : (Progress.done s).andThen f = f s := rfl
@[simp] theorem andThen_failed (k : Code) (s : State) (f : State → Progress) :
    (Progress.failed k s).andThen f = .failed k s := rfl
@[simp] theorem andThen_undetermined (f : State → Progress) : Progress.undetermined.andThen f = .undetermined := rfl

theorem operate_busy (s : State) (r : Routine) (p : State → Progress) (h : s.seq ≠ []) : s.operate r p = .next s := by
  cases hs : s.seq with
  | nil => exact absurd hs h
  | cons f rest => simp [State.operate, State.idle, hs]

theorem operate_done (s t : State) (r : Routine) (p : State → Progress) (h : s.seq = []) (hp : p s.accept = .done t) :
    s.operate r p = .next (t.complete r) := by
  simp [State.operate, State.idle, h, hp]

theorem operate_failed (s t : State) (k : Code) (r : Routine) (p : State → Progress) (h : s.seq = [])
    (hp : p s.accept = .failed k t) : s.operate r p = .next (t.raise k) := by
  simp [State.operate, State.idle, h, hp]

theorem operate_undetermined (s : State) (r : Routine) (p : State → Progress) (h : s.seq = [])
    (hp : p s.accept = .undetermined) : s.operate r p = .next (s.start r) := by
  simp [State.operate, State.idle, h, hp]

/-- Running an operation never stops the machine, and answers one of four states. -/
theorem operate_cases (s : State) (r : Routine) (p : State → Progress) :
    (s.seq ≠ [] ∧ s.operate r p = .next s) ∨
    (s.seq = [] ∧ ∃ t, p s.accept = .done t ∧ s.operate r p = .next (t.complete r)) ∨
    (s.seq = [] ∧ ∃ k t, p s.accept = .failed k t ∧ s.operate r p = .next (t.raise k)) ∨
    (s.seq = [] ∧ p s.accept = .undetermined ∧ s.operate r p = .next (s.start r)) := by
  by_cases h : s.seq = []
  · cases hp : p s.accept with
    | done t => exact .inr (.inl ⟨h, t, rfl, operate_done s t r p h hp⟩)
    | failed k t => exact .inr (.inr (.inl ⟨h, k, t, rfl, operate_failed s t k r p h hp⟩))
    | undetermined => exact .inr (.inr (.inr ⟨h, rfl, operate_undetermined s r p h hp⟩))
  · exact .inl ⟨h, operate_busy s r p h⟩

end Sys2Proof.Machine
end

