-- ==== Sys2Proof/Laws/Bus.lean ====
section
/-! SUPPORT. What a whole write, a whole read, a gate and the pin set-up of `Initialize` do, each said once as the state
they leave. -/

namespace Sys2Proof.Machine

/-! ### Nibbles -/

theorem joinNibbles_split (b : Byte) : joinNibbles (highNibble b) (lowNibble b) = b := by
  revert b; decide

@[simp] theorem highNibble_join (hi lo : Nibble) : highNibble (joinNibbles hi lo) = hi := by
  revert hi lo; decide

@[simp] theorem lowNibble_join (hi lo : Nibble) : lowNibble (joinNibbles hi lo) = lo := by
  revert hi lo; decide

/-- The byte of eight sampled levels. -/
theorem joinNibbles_bits (b : Byte) :
    joinNibbles (nibbleOf (b.getLsbD 7) (b.getLsbD 6) (b.getLsbD 5) (b.getLsbD 4))
      (nibbleOf (b.getLsbD 3) (b.getLsbD 2) (b.getLsbD 1) (b.getLsbD 0)) = b := by
  revert b; decide

/-- The bits of the two nibbles (rule R84). -/
@[simp] theorem highNibble_bits (b : Byte) :
    (highNibble b)[0] = b[4] ∧ (highNibble b)[1] = b[5] ∧ (highNibble b)[2] = b[6] ∧ (highNibble b)[3] = b[7] := by
  revert b; decide

@[simp] theorem lowNibble_bits (b : Byte) :
    (lowNibble b)[0] = b[0] ∧ (lowNibble b)[1] = b[1] ∧ (lowNibble b)[2] = b[2] ∧ (lowNibble b)[3] = b[3] := by
  revert b; decide

/-! ### `WriteByte` and `ReadByte` -/

theorem writeByte_eq (rs : Bool) (b : Byte) (s : State) : writeByte rs b s = s.wrote rs b := by
  simp [writeByte, select, dataOut, putNibble, driveNibble, strobe, idleHigh, State.wrote, State.emit,
    writeEvents, writeLatches, dataPins]

@[simp] theorem length_bitsOf (b : Byte) : (bitsOf b).length = 8 := rfl
@[simp] theorem drop_bitsOf (b : Byte) (rest : List Bool) : (bitsOf b ++ rest).drop 8 = rest := rfl

@[simp] theorem script_nil : script [] = [] := rfl
@[simp] theorem script_cons (b : Byte) (bs : List Byte) : script (b :: bs) = bitsOf b ++ script bs := rfl
@[simp] theorem script_append (as bs : List Byte) : script (as ++ bs) = script as ++ script bs := by
  simp [script]

@[simp] theorem length_script (bs : List Byte) : (script bs).length = 8 * bs.length := by
  induction bs with
  | nil => rfl
  | cons b bs ih => simp [ih]; omega

theorem readByte_eq (rs : Bool) (b : Byte) (rest : List Bool) (s : State) (h : s.answers = bitsOf b ++ rest) :
    readByte rs s = s.hasRead rs b := by
  obtain ⟨cfg, dir, lat, dreg, sreg, pos, pcnt, seq, rsp, cmds, text, answers, draws, trace⟩ := s
  subst h
  simpa [readByte, select, dataIn, getNibble, State.hasRead, State.emit, State.rd, State.answer, bitsOf, readEvents,
    readLatches, dataPins] using joinNibbles_bits b

/-- The eight bits of a byte joined from two nibbles of levels. -/
theorem joinNibbles_levels (a b c d e f g h : Bool) :
    bitsOf (joinNibbles (nibbleOf a b c d) (nibbleOf e f g h)) = [a, b, c, d, e, f, g, h] := by
  revert a b c d e f g h; decide

/-- The answer at the head of a state's draws. -/
theorem answer_eq_levelAhead (s : State) : s.answer = s.levelAhead 0 := by
  cases h : s.answers <;> simp [State.answer, State.levelAhead, h]

/-- A read returns the byte its eight draws make, whether State holds their answers or not (rules R62, R122). -/
theorem readByte_ahead (rs : Bool) (s : State) : readByte rs s = s.hasRead rs s.byteAhead := by
  obtain ⟨cfg, dir, lat, dreg, sreg, pos, pcnt, seq, rsp, cmds, text, answers, draws, trace⟩ := s
  generalize hb : State.byteAhead _ = b
  have hbits : bitsOf b = (List.range 8).map (fun k => (answers[k]?).getD (Config.rdLevel (draws + k))) := by
    rw [← hb, State.byteAhead, joinNibbles_levels]; rfl
  have hj := joinNibbles_bits b
  simp only [bitsOf, List.range, List.range.loop, List.map_cons, List.map_nil, List.cons.injEq, and_true] at hbits
  obtain ⟨h7, h6, h5, h4, h3, h2, h1, h0⟩ := hbits
  simp at h7 h6 h5 h4 h3 h2 h1 h0 hj
  simp [readByte, select, dataIn, getNibble, State.hasRead, State.emit, State.rd, State.answer, readEvents,
    readLatches, dataPins]
  rcases answers with _ | ⟨a, _ | ⟨b, _ | ⟨c, _ | ⟨d, _ | ⟨e, _ | ⟨f, _ | ⟨g, _ | ⟨h, r⟩⟩⟩⟩⟩⟩⟩⟩ <;>
    simp_all

/-! ### The busy gate -/

theorem readHeldStatus_eq (b : Byte) (rest : List Bool) (s : State) (h : s.answers = bitsOf b ++ rest) :
    readHeldStatus s = .done (s.hasRead false b) := by
  simp [readHeldStatus, State.holdsStatus, h, readByte_eq false b rest s h]

theorem readHeldStatus_short (s : State) (h : s.answers.length < 8) : readHeldStatus s = .undetermined := by
  simp [readHeldStatus, State.holdsStatus, h]

/-- One busy poll read: the state it leaves, its poll counted. -/
def State.polledBusy (s : State) (b : Byte) : State := (s.hasRead false b).countPoll

/-- Poll reads that all showed busy, one after the other. -/
def State.polledAll (s : State) (bs : List Byte) : State := bs.foldl State.polledBusy s

theorem pollLoop_busy (fuel : Nat) (b : Byte) (rest : List Bool) (s : State) (h : s.answers = bitsOf b ++ rest)
    (hb : busyFlag b = true) (ht : (s.polledBusy b).timedOut = false) :
    pollLoop (fuel + 1) s = pollLoop fuel (s.polledBusy b) := by
  have hs : (s.hasRead false b).sreg = b := rfl
  rw [pollLoop, readHeldStatus_eq b rest s h, andThen_done, hs, if_pos hb]
  rw [State.polledBusy] at ht
  simp [ht, State.polledBusy]

theorem pollLoop_timeout (fuel : Nat) (b : Byte) (rest : List Bool) (s : State) (h : s.answers = bitsOf b ++ rest)
    (hb : busyFlag b = true) (ht : (s.polledBusy b).timedOut = true) :
    pollLoop (fuel + 1) s = .failed .notReady (s.polledBusy b) := by
  have hs : (s.hasRead false b).sreg = b := rfl
  rw [pollLoop, readHeldStatus_eq b rest s h, andThen_done, hs, if_pos hb]
  rw [State.polledBusy] at ht
  simp [ht, State.polledBusy]

theorem pollLoop_ready (fuel : Nat) (ready reread : Byte) (rest : List Bool) (s : State)
    (h : s.answers = bitsOf ready ++ (bitsOf reread ++ rest)) (hr : busyFlag ready = false) :
    pollLoop (fuel + 1) s =
      .done (((s.hasRead false ready).emit (.dly s.cfg.tSettle)).hasRead false reread) := by
  have hs : (s.hasRead false ready).sreg = ready := rfl
  have ha : ((s.hasRead false ready).emit (.dly s.cfg.tSettle)).answers = bitsOf reread ++ rest := by
    simp [State.hasRead, h]
  rw [pollLoop, readHeldStatus_eq ready _ s h, andThen_done, hs, if_neg (by simp [hr]), settleAndReread]
  exact readHeldStatus_eq reread rest _ ha

/-- The state after busy polls, field by field. -/
theorem polledAll_eq (bs : List Byte) (s : State) (hne : bs ≠ []) :
    s.polledAll bs = { s with
      sreg := bs.getLastD s.sreg
      pcnt := match s.cfg.maxPoll with
        | none => s.pcnt
        | some _ => s.pcnt + bs.length
      dir := dataPins s.dir .inp
      lat := readLatches false s.lat
      answers := s.answers.drop (8 * bs.length)
      draws := s.draws + 8 * bs.length
      trace := s.trace ++ pollEvents s.cfg bs } := by
  induction bs generalizing s with
  | nil => exact absurd rfl hne
  | cons b bs ih =>
    cases bs with
    | nil =>
      cases hm : s.cfg.maxPoll <;>
        simp [State.polledAll, State.polledBusy, State.hasRead, State.countPoll, pollEvents, hm]
    | cons c bs =>
      have := ih (s.polledBusy b) (by simp)
      rw [State.polledAll, List.foldl_cons, ← State.polledAll, this]
      have hlast : (c :: bs).getLastD (s.polledBusy b).sreg = (b :: c :: bs).getLastD s.sreg := by
        simp [List.getLast?_cons]
      rw [hlast]
      cases hm : s.cfg.maxPoll <;>
        simp [State.polledBusy, State.hasRead, State.countPoll, pollEvents, hm, dataPins, readLatches, Nat.mul_add,
          Nat.add_assoc, Nat.add_comm, Nat.add_left_comm]

/-- The polls of a gate that opens, on any fuel that covers them. -/
theorem pollLoop_opens (polls : List Byte) (ready reread : Byte) (rest : List Bool) (fuel : Nat) (s : State)
    (h : s.answers = script polls ++ (bitsOf ready ++ (bitsOf reread ++ rest))) (hf : polls.length < fuel)
    (hp : ∀ b ∈ polls, busyFlag b = true) (hr : busyFlag ready = false)
    (ht : ∀ n, s.cfg.maxPoll = some n → s.pcnt + polls.length < n) :
    pollLoop fuel s =
      .done ((((s.polledAll polls).hasRead false ready).emit (.dly s.cfg.tSettle)).hasRead false reread) := by
  induction polls generalizing fuel s with
  | nil =>
    obtain ⟨fuel, rfl⟩ : ∃ k, fuel = k + 1 := ⟨fuel - 1, by simp at hf; omega⟩
    exact pollLoop_ready fuel ready reread rest s (by simpa using h) hr
  | cons b bs ih =>
    obtain ⟨fuel, rfl⟩ : ∃ k, fuel = k + 1 := ⟨fuel - 1, by simp at hf; omega⟩
    have hto : (s.polledBusy b).timedOut = false := by
      cases hm : s.cfg.maxPoll with
      | none => simp [State.polledBusy, State.timedOut, State.hasRead, hm]
      | some n =>
        have := ht n hm
        simp only [List.length_cons] at this
        simp [State.polledBusy, State.timedOut, State.countPoll, State.hasRead, hm]
        omega
    rw [pollLoop_busy fuel b (script bs ++ (bitsOf ready ++ (bitsOf reread ++ rest))) s (by simpa using h)
      (hp b (by simp)) hto]
    rw [State.polledAll, List.foldl_cons, ← State.polledAll]
    have hcfg : (s.polledBusy b).cfg = s.cfg := rfl
    rw [← hcfg]
    apply ih
    · simp [State.polledBusy, State.hasRead, h]
    · simpa using hf
    · exact fun c hc => hp c (by simp [hc])
    · intro n hn
      have := ht n hn
      simp only [List.length_cons] at this
      simp only [hcfg] at hn
      simp only [State.polledBusy, State.countPoll, State.hasRead, hn]
      omega

theorem gate_opens_iff (cfg : Configuration) (g : Gate) :
    g.opens cfg = true ↔ (∀ b ∈ g.polls, busyFlag b = true) ∧ busyFlag g.ready = false ∧
      ∀ n, cfg.maxPoll = some n → g.polls.length < n := by
  cases hm : cfg.maxPoll <;> simp [Gate.opens, allowsPolls, hm, and_assoc]

/-- A gate that opens: what it was answered decides everything it does (rules R142 to R144). -/
theorem waitReady_opens (g : Gate) (rest : List Bool) (s : State) (h : s.answers = script g.bytes ++ rest)
    (ho : g.opens s.cfg = true) : waitReady s = .done (s.gated g) := by
  obtain ⟨hp, hr, hn⟩ := (gate_opens_iff _ _).1 ho
  have ha : s.answers = script g.polls ++ (bitsOf g.ready ++ (bitsOf g.reread ++ rest)) := by
    simpa [Gate.bytes] using h
  rw [waitReady, pollLoop_opens g.polls g.ready g.reread rest _ s.zeroCount ha _ hp hr]
  · congr 1
    by_cases hne : g.polls = []
    · cases hm : s.cfg.maxPoll <;>
        simp [hne, State.polledAll, State.hasRead, State.gated, State.zeroCount, State.emit, countAfter, hm, Gate.events,
          pollEvents, dataPins, readLatches]
    · rw [polledAll_eq _ _ hne]
      cases hm : s.cfg.maxPoll <;>
        simp [State.hasRead, State.gated, State.zeroCount, State.emit, countAfter, hm, Gate.events,
          pollEvents, dataPins, readLatches, Nat.mul_add, Nat.add_assoc]
  · intro n hm
    have := hn n hm
    have hm' : s.cfg.maxPoll = some n := hm
    simp only [State.zeroCount, hm']
    omega
  · simp [ha]; omega

/-- The polls of a gate that times out (rule R146). -/
theorem pollLoop_times_out (polls : List Byte) (rest : List Bool) (fuel n : Nat) (s : State)
    (h : s.answers = script polls ++ rest) (hf : polls.length ≤ fuel) (hp : ∀ b ∈ polls, busyFlag b = true)
    (hm : s.cfg.maxPoll = some n) (hn : s.pcnt + polls.length = n) (hne : polls ≠ []) :
    pollLoop fuel s = .failed .notReady (s.polledAll polls) := by
  induction polls generalizing fuel s with
  | nil => exact absurd rfl hne
  | cons b bs ih =>
    obtain ⟨fuel, rfl⟩ : ∃ k, fuel = k + 1 := ⟨fuel - 1, by simp at hf; omega⟩
    have hcount : (s.polledBusy b).pcnt = s.pcnt + 1 := by
      simp [State.polledBusy, State.countPoll, State.hasRead, hm]
    have hbusy := hp b (by simp)
    cases bs with
    | nil =>
      rw [pollLoop_timeout fuel b rest s (by simpa using h) hbusy]
      · rfl
      · simp only [State.timedOut, hcount]
        simp at hn
        simp [State.polledBusy, State.hasRead, hm, hn]
    | cons c bs =>
      rw [pollLoop_busy fuel b (script (c :: bs) ++ rest) s (by simpa using h) hbusy]
      · rw [State.polledAll, List.foldl_cons, ← State.polledAll]
        apply ih
        · simp [State.polledBusy, State.hasRead, h]
        · simpa using hf
        · exact fun x hx => hp x (by simp [hx])
        · exact hm
        · simp only [hcount, List.length_cons] at hn ⊢; omega
        · simp
      · simp only [State.timedOut, hcount]
        simp at hn
        simp [State.polledBusy, State.hasRead, hm]
        omega

/-- A gate that times out leaves the pins read-idle and the last poll in `SREG` (rule R146). -/
theorem waitReady_times_out (polls : List Byte) (rest : List Bool) (s : State) (h : s.answers = script polls ++ rest)
    (hp : polls.all busyFlag = true) (hm : s.cfg.maxPoll = some polls.length) (hne : polls ≠ []) :
    waitReady s = .failed .notReady (s.timedOutAfter polls) := by
  have hp' : ∀ b ∈ polls, busyFlag b = true := by simpa using hp
  have hz : s.zeroCount.pcnt = 0 := by simp [State.zeroCount, hm]
  rw [waitReady, pollLoop_times_out polls rest _ polls.length s.zeroCount h _ hp' hm (by omega) hne]
  · rw [polledAll_eq _ _ hne]
    simp [State.timedOutAfter, State.zeroCount, hm]
  · rw [h]; simp; omega

/-! ### Gated writes and the pin set-up -/

theorem writeCommand_opens (b : Byte) (g : Gate) (rest : List Bool) (s : State)
    (h : s.answers = script g.bytes ++ rest) (ho : g.opens s.cfg = true) :
    writeCommand b s = .done ((s.gated g).wrote false b) := by
  rw [writeCommand, waitReady_opens g rest s h ho, andThen_done, writeByte_eq]

theorem writeData_opens (b : Byte) (g : Gate) (rest : List Bool) (s : State)
    (h : s.answers = script g.bytes ++ rest) (ho : g.opens s.cfg = true) :
    writeData b s = .done ((s.gated g).wrote true b) := by
  rw [writeData, waitReady_opens g rest s h ho, andThen_done, writeByte_eq]

theorem putNibble_eq (n : Nibble) (s : State) (h : s.lat.e = .low) :
    putNibble n s = { s with lat := nibbleLatches n s.lat, trace := s.trace ++ putNibbleEvents s.cfg n } := by
  simp [putNibble, driveNibble, strobe, State.emit, nibbleLatches, putNibbleEvents, ← h]

theorem controllerReset_eq (l : List (Nibble × Nat)) (s : State) (h : s.lat.e = .low) :
    controllerReset l s = { s with
      lat := resetLatches s.lat l
      trace := s.trace ++ resetEvents s.cfg l } := by
  induction l generalizing s with
  | nil => simp [controllerReset, resetLatches, resetEvents]
  | cons x l ih =>
    obtain ⟨n, d⟩ := x
    rw [controllerReset, putNibble_eq n s h, ih]
    · simp [State.emit, resetLatches, resetEvents]
    · simpa [nibbleLatches] using h

theorem initPins_eq (s : State) : initPins s = s.pinsSetUp := by
  rw [initPins, controllerReset_eq]
  · simp [pinsOut, controlLow, State.emit, State.pinsSetUp, initPinEvents, allPins]
  · simp [pinsOut, controlLow]

end Sys2Proof.Machine
end

