-- ==== Sys2Proof/Laws/Sequencer.lean ====
section
/-! SUPPORT. What one step of the sequencer does, and what the steps of a whole write, a whole read and a gate come
to. -/

namespace Sys2Proof.Machine

/-! ### Runs -/

theorem run_zero (s : State) : Host.Core.run core 0 s = .next s := rfl

theorem run_succ {s t : State} (k : Nat) (h : step s = .next t) :
    Host.Core.run core (k + 1) s = Host.Core.run core k t := by
  have h' : core.step s = .next t := h
  simp [Host.Core.run, h']

theorem run_add {s t : State} (j k : Nat) (h : Host.Core.run core j s = .next t) :
    Host.Core.run core (j + k) s = Host.Core.run core k t := by
  induction j generalizing s with
  | zero =>
    have : s = t := by
      rw [run_zero] at h
      injection h
    simp [this]
  | succ j ih =>
    rw [Nat.add_right_comm]
    simp only [Host.Core.run] at h ⊢
    cases hs : core.step s with
    | next u => rw [hs] at h; exact ih h
    | fault r => rw [hs] at h; cases h
    | refused r => rw [hs] at h; cases h

/-- Some number of steps leads from `s` to `t`. -/
def Reaches (s t : State) : Prop := ∃ k, Host.Core.run core k s = .next t

theorem Reaches.refl (s : State) : Reaches s s := ⟨0, rfl⟩

theorem Reaches.trans {s t u : State} (h : Reaches s t) (h' : Reaches t u) : Reaches s u := by
  obtain ⟨j, hj⟩ := h
  obtain ⟨k, hk⟩ := h'
  exact ⟨j + k, by rw [run_add j k hj, hk]⟩

theorem Reaches.step {s t : State} (h : Machine.step s = .next t) : Reaches s t := ⟨1, by rw [run_succ 0 h, run_zero]⟩

/-! ### One step -/

theorem step_idle (s : State) (hs : s.seq = []) (ht : s.text = []) (hc : s.cmds = []) : step s = .next s := by
  simp [step, hs, ht, hc]

theorem step_instr (s : State) (r : Request) (rest : List Request) (i : Instr) (hs : s.seq = []) (ht : s.text = [])
    (hc : s.cmds = r :: rest) (hd : decode r = .instr i) : step s = exec i { s with cmds := rest } := by
  simp [step, hs, ht, hc, hd, State.takeCommand]

theorem step_reject (s : State) (r : Request) (rest : List Request) (why : DecodeError) (hs : s.seq = [])
    (ht : s.text = []) (hc : s.cmds = r :: rest) (hd : decode r = .reject why) :
    step s = .next ({ s with cmds := rest }.raise .illegal) := by
  simp [step, hs, ht, hc, hd, State.refuse, State.takeCommand]

/-- A `Print` in progress goes on after an `Ok`. -/
theorem step_print (s : State) (ch : Byte) (rest : List Byte) (hs : s.seq = []) (ht : s.text = ch :: rest)
    (ho : s.answeredOk = true) : step s = exec (.putc ch) { s with text := rest } := by
  simp [step, hs, ht, State.printNext, ho, exec]

/-- A `Print` in progress ends with a failure. -/
theorem step_print_ends (s : State) (ch : Byte) (rest : List Byte) (hs : s.seq = []) (ht : s.text = ch :: rest)
    (ho : s.answeredOk = false) : step s = .next { s with text := [] } := by
  simp [step, hs, ht, State.printNext, ho]

theorem step_running (s : State) (f : Frame) (callers : List Frame) (hs : s.seq = f :: callers) :
    step s = sequencerStep s := by
  simp [step, hs]

theorem step_action (s : State) (f : Frame) (callers : List Frame) (a : Action) (hs : s.seq = f :: callers)
    (ha : stepOf s.cfg f.routine f.step = some a) : step s = .next (s.perform a f callers) := by
  rw [step_running s f callers hs]
  simp [sequencerStep, hs, ha]

/-! ### Frames -/

/-- The state with another `SEQ`. -/
def State.withSeq (s : State) (q : List Frame) : State := { s with seq := q }

section WithSeq
variable (s : State) (q q' : List Frame) (rs : Bool) (b : Byte)

@[simp] theorem withSeq_seq : (s.withSeq q).seq = q := rfl
@[simp] theorem withSeq_cfg : (s.withSeq q).cfg = s.cfg := rfl
@[simp] theorem withSeq_sreg : (s.withSeq q).sreg = s.sreg := rfl
@[simp] theorem withSeq_answers : (s.withSeq q).answers = s.answers := rfl
@[simp] theorem withSeq_withSeq : (s.withSeq q).withSeq q' = s.withSeq q' := rfl
@[simp] theorem withSeq_complete (r : Routine) : (s.withSeq q).complete r = s.complete r := rfl
@[simp] theorem withSeq_raise (k : Code) : (s.withSeq q).raise k = s.raise k := rfl
@[simp] theorem withSeq_countPoll : (s.withSeq q).countPoll = s.countPoll.withSeq q := rfl
@[simp] theorem withSeq_timedOut : (s.withSeq q).timedOut = s.timedOut := rfl
@[simp] theorem withSeq_wrote : (s.withSeq q).wrote rs b = (s.wrote rs b).withSeq q := rfl
@[simp] theorem withSeq_hasRead : (s.withSeq q).hasRead rs b = (s.hasRead rs b).withSeq q := rfl
@[simp] theorem withSeq_gated (g : Gate) : (s.withSeq q).gated g = (s.gated g).withSeq q := rfl
@[simp] theorem withSeq_emit (ev : Event) : (s.withSeq q).emit ev = (s.emit ev).withSeq q := rfl

theorem withSeq_self {s : State} {q : List Frame} (h : s.seq = q) : s.withSeq q = s := by
  subst h; rfl

end WithSeq

theorem unwind_live (s : State) (f : Frame) (callers : List Frame) (h : f.live s.cfg = true) :
    s.unwind f callers = s.withSeq (f :: callers) := by
  cases callers <;> simp [State.unwind, State.withSeq, h]

theorem unwind_last (s : State) (f : Frame) (h : f.live s.cfg = false) : s.unwind f [] = s.complete f.routine := by
  simp [State.unwind, h]

theorem unwind_pop (s : State) (f g : Frame) (callers : List Frame) (h : f.live s.cfg = false) :
    s.unwind f (g :: callers) = (s.takeResult g).unwind g.next callers := by
  simp [State.unwind, h]

theorem step_event {s : State} {f : Frame} {callers : List Frame} {ev : Event} (hs : s.seq = f :: callers)
    (ha : stepOf s.cfg f.routine f.step = some (.event ev)) (hl : f.next.live s.cfg = true) :
    step s = .next { s.emit ev with seq := f.next :: callers } := by
  rw [step_action s f callers _ hs ha, State.perform, State.advance]
  exact congrArg _ (unwind_live _ _ _ hl)

theorem step_drive {s : State} {f : Frame} {callers : List Frame} {p : Pin} {bit : Nat} (hs : s.seq = f :: callers)
    (ha : stepOf s.cfg f.routine f.step = some (.drive p bit)) (hl : f.next.live s.cfg = true) :
    step s = .next { s.emit (setEvent p (s.dreg.getLsbD bit)) with seq := f.next :: callers } := by
  rw [step_action s f callers _ hs ha, State.perform, State.advance]
  exact congrArg _ (unwind_live _ _ _ hl)

theorem step_sample {s : State} {f : Frame} {callers : List Frame} {p : Pin} {bit : Nat} (hs : s.seq = f :: callers)
    (ha : stepOf s.cfg f.routine f.step = some (.sample p bit)) (hl : f.next.live s.cfg = true) :
    step s = .next { s.rd p with sreg := withBit s.sreg bit s.answer, seq := f.next :: callers } := by
  rw [step_action s f callers _ hs ha, State.perform, State.advance]
  exact congrArg _ (unwind_live _ _ _ hl)

theorem step_call {s : State} {f : Frame} {callers : List Frame} {r : Routine} (hs : s.seq = f :: callers)
    (ha : stepOf s.cfg f.routine f.step = some (.call r)) : step s = .next (s.call r (f :: callers)) := by
  rw [step_action s f callers _ hs ha, State.perform]

/-- Unwinding looks at the frames it is given, not at `SEQ`. -/
theorem unwind_seq (s : State) (q : List Frame) (f : Frame) (callers : List Frame) :
    (s.withSeq q).unwind f callers = s.unwind f callers := by
  induction callers generalizing s f with
  | nil => rfl
  | cons g callers ih =>
    have ht : (s.withSeq q).takeResult g = (s.takeResult g).withSeq q := by
      unfold State.takeResult
      split <;> rfl
    simp only [State.unwind, ht, ih]
    rfl

/-- The 26 steps of `WriteByte` (rule R126). -/
theorem run_writeByte (s : State) (rs : Bool) (b : Byte) (callers : List Frame)
    (hs : s.seq = ⟨.writeByte rs b, 0⟩ :: callers) (hd : s.dreg = b) :
    Host.Core.run core 26 s = .next ((s.wrote rs b).unwind ⟨.writeByte rs b, 26⟩ callers) := by
  obtain ⟨cfg, dir, lat, dreg, sreg, pos, pcnt, seq, rsp, cmds, text, answers, draws, trace⟩ := s
  simp only at hs hd
  subst hs hd
  iterate 6 rw [run_succ _ (step_event rfl rfl rfl)]
  iterate 4 rw [run_succ _ (step_drive rfl rfl rfl)]
  iterate 4 rw [run_succ _ (step_event rfl rfl rfl)]
  iterate 4 rw [run_succ _ (step_drive rfl rfl rfl)]
  iterate 7 rw [run_succ _ (step_event rfl rfl rfl)]
  rw [run_succ _ (step_action _ _ _ _ rfl rfl), run_zero, State.perform, State.advance]
  rw [← unwind_seq _ [], ← unwind_seq (State.wrote _ _ _) []]
  simp [State.emit, State.wrote, State.withSeq, writeEvents, writeLatches, dataPins, Frame.next]

theorem one_shift_bit : ∀ i < 8, ∀ j < 8, ((1 : Byte) <<< i).getLsbD j = decide (j = i) := by decide

/-- The bit set and the bits kept by `r[i] <- v`. -/
theorem withBit_bit (r : Byte) (i j : Nat) (v : Bool) (hi : i < 8) (hj : j < 8) :
    (withBit r i v).getLsbD j = if j = i then v else r.getLsbD j := by
  have h := one_shift_bit i hi j hj
  rw [withBit]
  cases v
  · rw [if_neg (by decide), BitVec.getLsbD_and, BitVec.getLsbD_not, h]
    by_cases e : j = i <;> simp [e, hj]
  · rw [if_pos rfl, BitVec.getLsbD_or, h]
    by_cases e : j = i <;> simp [e]

/-- Eight samples into the eight bits of `SREG` are the byte (rule R126). -/
theorem withBit_all (r : Byte) (a b c d e f g h : Bool) :
    withBit (withBit (withBit (withBit (withBit (withBit (withBit (withBit r 7 a) 6 b) 5 c) 4 d) 3 e) 2 f) 1 g) 0 h =
      joinNibbles (nibbleOf a b c d) (nibbleOf e f g h) := by
  have hb := joinNibbles_levels a b c d e f g h
  simp only [bitsOf, List.cons.injEq, and_true] at hb
  obtain ⟨h7, h6, h5, h4, h3, h2, h1, h0⟩ := hb
  apply BitVec.eq_of_getLsbD_eq
  intro i hi
  have : i = 0 ∨ i = 1 ∨ i = 2 ∨ i = 3 ∨ i = 4 ∨ i = 5 ∨ i = 6 ∨ i = 7 := by omega
  rcases this with rfl | rfl | rfl | rfl | rfl | rfl | rfl | rfl <;>
    simp (disch := omega) only [withBit_bit, h7, h6, h5, h4, h3, h2, h1, h0] <;> rfl

/-- The level the next `Rd` is answered, from the answers State holds and the count of draws. -/
def nextLevel (answers : List Bool) (draws : Nat) : Bool := (answers[0]?).getD (Config.rdLevel draws)

section Explicit
variable {cfg : Configuration} {dir : Bank Dir} {lat : Bank Level} {dreg sreg pos : Byte} {pcnt n : Nat}
  {callers : List Frame} {rsp : Option Response} {cmds : List Request} {text : List Byte} {answers : List Bool} {draws : Nat}
  {trace : List Event} {r : Routine}

/-- An event step on a state written out. -/
theorem step_event_mk {ev : Event} (ha : stepOf cfg r n = some (.event ev))
    (hl : (stepOf cfg r (n + 1)).isSome = true) :
    step ⟨cfg, dir, lat, dreg, sreg, pos, pcnt, ⟨r, n⟩ :: callers, rsp, cmds, text, answers, draws, trace⟩ =
      .next ⟨cfg, ev.dirAfter dir, ev.latAfter lat, dreg, sreg, pos, pcnt, ⟨r, n + 1⟩ :: callers, rsp, cmds, text, answers,
        draws, trace ++ [ev]⟩ :=
  step_event (f := ⟨r, n⟩) rfl ha (show Frame.live cfg ⟨r, n + 1⟩ = true from hl)

/-- A sample step on a state written out. -/
theorem step_sample_mk {p : Pin} {bit : Nat} (ha : stepOf cfg r n = some (.sample p bit))
    (hl : (stepOf cfg r (n + 1)).isSome = true) :
    step ⟨cfg, dir, lat, dreg, sreg, pos, pcnt, ⟨r, n⟩ :: callers, rsp, cmds, text, answers, draws, trace⟩ =
      .next ⟨cfg, dir, lat, dreg, withBit sreg bit (nextLevel answers draws), pos, pcnt, ⟨r, n + 1⟩ :: callers, rsp, cmds,
        text, answers.drop 1, draws + 1, trace ++ [.rd p (nextLevel answers draws)]⟩ := by
  rw [step_sample (f := ⟨r, n⟩) rfl ha (show Frame.live cfg ⟨r, n + 1⟩ = true from hl)]
  have : State.answer ⟨cfg, dir, lat, dreg, sreg, pos, pcnt, ⟨r, n⟩ :: callers, rsp, cmds, text, answers, draws, trace⟩ =
      nextLevel answers draws := answer_eq_levelAhead _
  rw [State.rd, this, List.drop_one]
  rfl

end Explicit

theorem nextLevel_tail (answers : List Bool) (draws k : Nat) :
    nextLevel (answers.drop k) (draws + k) = (answers[k]?).getD (Config.rdLevel (draws + k)) := by
  simp [nextLevel]

/-- The 22 steps of `ReadByte` (rule R126). -/
theorem run_readByte (s : State) (rs : Bool) (callers : List Frame) (hs : s.seq = ⟨.readByte rs, 0⟩ :: callers) :
    Host.Core.run core 22 s = .next ((s.hasRead rs s.byteAhead).unwind ⟨.readByte rs, 22⟩ callers) := by
  have hb : ∃ b, b = s.byteAhead := ⟨_, rfl⟩
  obtain ⟨b, hb⟩ := hb
  have hbits : bitsOf b = (List.range 8).map (fun k => nextLevel (s.answers.drop k) (s.draws + k)) := by
    rw [hb, State.byteAhead, joinNibbles_levels]
    simp [nextLevel_tail, List.range, List.range.loop, State.levelAhead]
  rw [← hb]
  have hj := joinNibbles_bits b
  clear hb
  obtain ⟨cfg, dir, lat, dreg, sreg, pos, pcnt, seq, rsp, cmds, text, answers, draws, trace⟩ := s
  simp only at hs hbits
  subst hs
  iterate 8 rw [run_succ _ (step_event_mk rfl rfl)]
  iterate 4 rw [run_succ _ (step_sample_mk rfl rfl)]
  iterate 4 rw [run_succ _ (step_event_mk rfl rfl)]
  iterate 4 rw [run_succ _ (step_sample_mk rfl rfl)]
  rw [run_succ _ (step_event_mk rfl rfl)]
  rw [run_succ _ (step_action _ _ _ _ rfl rfl), run_zero, State.perform, State.advance]
  rw [← unwind_seq _ [], ← unwind_seq (State.hasRead _ _ _) [], withBit_all]
  simp only [bitsOf, List.range, List.range.loop, List.map_cons, List.map_nil, List.cons.injEq, and_true,
    List.drop_zero, Nat.add_zero] at hbits
  obtain ⟨h7, h6, h5, h4, h3, h2, h1, h0⟩ := hbits
  simp only [List.drop_drop, Nat.add_assoc, Nat.reduceAdd, ← h7, ← h6, ← h5,
    ← h4, ← h3, ← h2, ← h1, ← h0, hj]
  simp [State.emit, State.hasRead, State.withSeq, readEvents, readLatches, dataPins, Frame.next]

/-! ### Calls and returns -/

/-- A write called as a routine's step: the call, the 26 steps, and the return to the frame under it. -/
theorem reaches_writeByte (s : State) (rs : Bool) (b : Byte) (f : Frame) (callers : List Frame)
    (hs : s.seq = f :: callers) (ha : stepOf s.cfg f.routine f.step = some (.call (.writeByte rs b)))
    (hr : State.takeResult (s.wrote rs b) f = s.wrote rs b) :
    Reaches s ((s.wrote rs b).unwind f.next callers) := by
  refine (Reaches.step (step_call hs ha)).trans ⟨26, ?_⟩
  rw [run_writeByte _ rs b (f :: callers) rfl rfl]
  have hc : State.wrote (s.call (.writeByte rs b) (f :: callers)) rs b =
      (s.wrote rs b).withSeq (⟨.writeByte rs b, 0⟩ :: f :: callers) := rfl
  rw [hc, unwind_seq, unwind_pop _ _ _ _ (by rfl), hr]

/-- A read called as a routine's step. -/
theorem reaches_readByte (s : State) (rs : Bool) (b : Byte) (rest : List Bool) (f : Frame) (callers : List Frame)
    (hs : s.seq = f :: callers) (ha : stepOf s.cfg f.routine f.step = some (.call (.readByte rs)))
    (hr : State.takeResult (s.hasRead rs b) f = s.hasRead rs b) (hb : s.answers = bitsOf b ++ rest) :
    Host.Core.run core 23 s = .next ((s.hasRead rs b).unwind f.next callers) := by
  rw [run_succ 22 (step_call hs ha), run_readByte _ rs (f :: callers) rfl]
  have hahead : State.byteAhead (s.call (.readByte rs) (f :: callers)) = b := by
    have h1 := readByte_ahead rs (s.call (.readByte rs) (f :: callers))
    rw [readByte_eq rs b rest (s.call (.readByte rs) (f :: callers)) hb] at h1
    exact (congrArg State.sreg h1).symm
  have hc : State.hasRead (s.call (.readByte rs) (f :: callers)) rs b =
      (s.hasRead rs b).withSeq (⟨.readByte rs, 0⟩ :: f :: callers) := rfl
  rw [hahead, hc, unwind_seq, unwind_pop _ _ _ _ (by rfl), hr]

/-- The busy test of a gate, by its three results (rules R143, R146). -/
theorem testBusy_again (s : State) (callers : List Frame) (hb : busyFlag s.sreg = true)
    (ht : s.countPoll.timedOut = false) :
    s.testBusy ⟨.waitReady, 2⟩ callers = s.countPoll.withSeq (⟨.waitReady, 1⟩ :: callers) := by
  rw [State.testBusy, if_pos hb, if_neg (by simp [ht]), State.jump, unwind_live _ _ _ (by rfl)]

theorem testBusy_timeout (s : State) (callers : List Frame) (hb : busyFlag s.sreg = true)
    (ht : s.countPoll.timedOut = true) :
    s.testBusy ⟨.waitReady, 2⟩ callers = s.countPoll.raise .notReady := by
  rw [State.testBusy, if_pos hb, if_pos ht]

theorem testBusy_ready (s : State) (callers : List Frame) (hb : busyFlag s.sreg = false) :
    s.testBusy ⟨.waitReady, 2⟩ callers = s.withSeq (⟨.waitReady, 3⟩ :: callers) := by
  rw [State.testBusy, if_neg (by simp [hb]), State.jump, unwind_live _ _ _ (by rfl)]

theorem testBusy_withSeq (s : State) (q : List Frame) (f : Frame) (callers : List Frame) :
    (s.withSeq q).testBusy f callers = s.testBusy f callers := by
  simp only [State.testBusy, withSeq_sreg, withSeq_countPoll, withSeq_timedOut, withSeq_raise, State.jump, unwind_seq]

/-- One poll of a gate at step G1: the read and the busy test, 24 steps. -/
theorem run_poll (s : State) (b : Byte) (rest : List Bool) (callers : List Frame)
    (hs : s.seq = ⟨.waitReady, 1⟩ :: callers) (hb : s.answers = bitsOf b ++ rest) :
    Host.Core.run core 24 s = .next ((s.hasRead false b).testBusy ⟨.waitReady, 2⟩ callers) := by
  rw [run_add 23 1 (reaches_readByte s false b rest ⟨.waitReady, 1⟩ callers hs rfl rfl hb)]
  rw [unwind_live _ _ _ (by rfl), run_succ 0 (step_action _ ⟨.waitReady, 2⟩ callers .busyTest rfl rfl), run_zero]
  rw [State.perform, testBusy_withSeq]

theorem polledBusy_eq (s : State) (b : Byte) : s.polledBusy b = (s.hasRead false b).countPoll := rfl

@[simp] theorem hasRead_sreg (s : State) (rs : Bool) (b : Byte) : (s.hasRead rs b).sreg = b := rfl

/-- One busy poll of a gate at step G1, when `MAX_POLL` allows one more: the gate stands at G1 again (rules R143,
R152). -/
theorem run_busyPoll (s : State) (b : Byte) (rest : List Bool) (callers : List Frame)
    (hs : s.seq = ⟨.waitReady, 1⟩ :: callers) (hb : s.answers = bitsOf b ++ rest) (hbusy : busyFlag b = true)
    (ht : (s.polledBusy b).timedOut = false) : Host.Core.run core 24 s = .next (s.polledBusy b) := by
  rw [polledBusy_eq] at ht ⊢
  rw [run_poll s b rest callers hs hb, testBusy_again (s.hasRead false b) callers hbusy ht]
  exact congrArg _ (withSeq_self (s := (s.hasRead false b).countPoll) hs)

/-- The last poll of a gate that times out (rule R146). -/
theorem run_timeoutPoll (s : State) (b : Byte) (rest : List Bool) (callers : List Frame)
    (hs : s.seq = ⟨.waitReady, 1⟩ :: callers) (hb : s.answers = bitsOf b ++ rest) (hbusy : busyFlag b = true)
    (ht : (s.polledBusy b).timedOut = true) : Host.Core.run core 24 s = .next ((s.polledBusy b).raise .notReady) := by
  rw [polledBusy_eq] at ht ⊢
  rw [run_poll s b rest callers hs hb, testBusy_timeout (s.hasRead false b) callers hbusy ht]

/-- The ready poll, the settle and the re-read, and the return (rules R142, R143). -/
theorem reaches_ready (s : State) (ready reread : Byte) (rest : List Bool) (callers : List Frame)
    (hs : s.seq = ⟨.waitReady, 1⟩ :: callers) (hb : s.answers = bitsOf ready ++ (bitsOf reread ++ rest))
    (hr : busyFlag ready = false) :
    Reaches s ((((s.hasRead false ready).emit (.dly s.cfg.tSettle)).hasRead false reread).unwind ⟨.waitReady, 5⟩
      callers) := by
  refine Reaches.trans ⟨24, run_poll s ready _ callers hs hb⟩ ?_
  rw [testBusy_ready (s.hasRead false ready) callers hr]
  generalize hu : s.hasRead false ready = u
  have hcfg : u.cfg = s.cfg := by rw [← hu]; rfl
  have ha : u.answers = bitsOf reread ++ rest := by rw [← hu]; simp [State.hasRead, hb]
  rw [← hcfg]
  have h1 : Machine.step (u.withSeq (⟨.waitReady, 3⟩ :: callers)) =
      .next ((u.emit (.dly u.cfg.tSettle)).withSeq (⟨.waitReady, 4⟩ :: callers)) :=
    step_event (f := ⟨.waitReady, 3⟩) rfl rfl (by rfl)
  refine (Reaches.step h1).trans ?_
  have h2 := reaches_readByte ((u.emit (.dly u.cfg.tSettle)).withSeq (⟨.waitReady, 4⟩ :: callers)) false reread rest
    ⟨.waitReady, 4⟩ callers rfl rfl rfl (by simpa using ha)
  rw [withSeq_hasRead, unwind_seq] at h2
  exact ⟨23, h2⟩

end Sys2Proof.Machine
end

