-- ==== Sys2Proof/Laws/Refinement.lean ====
section
/-! SUPPORT. An operation run to its end and its sequencer's steps come to the same state: the lemma for each routine,
and how they compose. -/

namespace Sys2Proof.Machine

/-- A state that holds a whole status answer holds the byte ahead. -/
theorem answers_split (s : State) (h : 8 ≤ s.answers.length) : s.answers = bitsOf s.byteAhead ++ s.answers.drop 8 := by
  obtain ⟨cfg, dir, lat, dreg, sreg, pos, pcnt, seq, rsp, cmds, text, answers, draws, trace⟩ := s
  rw [State.byteAhead, joinNibbles_levels]
  rcases answers with _ | ⟨a, _ | ⟨b, _ | ⟨c, _ | ⟨d, _ | ⟨e, _ | ⟨f, _ | ⟨g, _ | ⟨h, r⟩⟩⟩⟩⟩⟩⟩⟩ <;>
    simp [State.levelAhead] at h ⊢

/-- A status read on held answers either returns the byte ahead or leaves the gate undetermined. -/
theorem readHeldStatus_cases (s : State) :
    (s.answers.length < 8 ∧ readHeldStatus s = .undetermined) ∨
    (s.answers = bitsOf s.byteAhead ++ s.answers.drop 8 ∧ readHeldStatus s = .done (s.hasRead false s.byteAhead)) := by
  by_cases h : 8 ≤ s.answers.length
  · have hs := answers_split s h
    exact .inr ⟨hs, readHeldStatus_eq _ _ s hs⟩
  · exact .inl ⟨by omega, readHeldStatus_short s (by omega)⟩

section SameAhead
variable {s t u : State}

theorem State.SameAhead.refl (s : State) : s.SameAhead s := ⟨rfl, fun _ => rfl⟩

theorem State.SameAhead.symm (h : s.SameAhead t) : t.SameAhead s := by
  obtain ⟨ht, hl⟩ := h
  exact ⟨by rw [ht], fun k => (hl k).symm⟩

theorem State.SameAhead.trans (h : s.SameAhead t) (h' : t.SameAhead u) : s.SameAhead u := by
  obtain ⟨ht, hl⟩ := h
  obtain ⟨hu, hl'⟩ := h'
  exact ⟨by rw [hu, ht], fun k => (hl k).trans (hl' k)⟩

/-- The two are answered alike. -/
theorem State.SameAhead.answer_eq (h : s.SameAhead t) : s.answer = t.answer := by
  rw [answer_eq_levelAhead, answer_eq_levelAhead]
  exact h.2 0

/-- A `Rd` moves the levels ahead by one. -/
theorem levelAhead_rd (s : State) (p : Pin) (k : Nat) : (s.rd p).levelAhead k = s.levelAhead (k + 1) := by
  have h : s.answers.tail[k]? = s.answers[k + 1]? := by simp
  show (s.answers.tail[k]?).getD (Config.rdLevel (s.draws + 1 + k)) = _
  rw [h, Nat.add_assoc, Nat.add_comm 1 k]
  rfl

/-- A `Rd` leaves the two alike. -/
theorem State.SameAhead.rd (h : s.SameAhead t) (p : Pin) : (s.rd p).SameAhead (t.rd p) := by
  refine ⟨?_, fun k => by rw [levelAhead_rd, levelAhead_rd]; exact h.2 (k + 1)⟩
  have ha := h.answer_eq
  rw [State.rd, State.rd, ← ha, h.1]
  rfl

end SameAhead

/-- The sequencer, from `start`, reaches what the operation comes to: its end, handed to `finish`, or its failure. -/
def Runs (p : Progress) (start : State) (finish : State → State) : Prop :=
  (∀ t, p = .done t → Reaches start (finish t)) ∧ ∀ k t, p = .failed k t → Reaches start (t.raise k)

theorem Runs.andThen {p : Progress} {f : State → Progress} {start : State} {finish finish' : State → State}
    (hp : Runs p start finish) (hf : ∀ t, p = .done t → Runs (f t) (finish t) finish') :
    Runs (p.andThen f) start finish' := by
  cases p with
  | done t =>
    have h := hf t rfl
    exact ⟨fun u hu => (hp.1 t rfl).trans (h.1 u hu), fun k u hu => (hp.1 t rfl).trans (h.2 k u hu)⟩
  | failed k t =>
    refine ⟨fun u hu => ?_, fun k' u hu => ?_⟩
    · cases hu
    · cases hu; exact hp.2 k t rfl
  | undetermined => exact ⟨fun u hu => (by cases hu), fun k u hu => (by cases hu)⟩

theorem Runs.undetermined (start : State) (finish : State → State) : Runs .undetermined start finish :=
  ⟨fun u hu => (by cases hu), fun k u hu => (by cases hu)⟩

theorem Runs.of_reaches {t start : State} {finish : State → State} (h : Reaches start (finish t)) :
    Runs (.done t) start finish :=
  ⟨fun u hu => (by cases hu; exact h), fun k u hu => (by cases hu)⟩

theorem Runs.after {p : Progress} {s t : State} {finish : State → State} (h : Reaches s t) (hr : Runs p t finish) :
    Runs p s finish :=
  ⟨fun u hu => h.trans (hr.1 u hu), fun k u hu => h.trans (hr.2 k u hu)⟩

theorem Runs.congr {p : Progress} {s : State} {finish finish' : State → State} (hr : Runs p s finish)
    (h : ∀ t, finish t = finish' t) : Runs p s finish' := by
  have : finish = finish' := funext h
  exact this ▸ hr

/-! ### The configuration stays -/

/-- Whatever an operation comes to keeps the configuration. -/
def Progress.keepsCfg (cfg : Configuration) : Progress → Prop
  | .done t => t.cfg = cfg
  | .failed _ t => t.cfg = cfg
  | .undetermined => True

theorem readHeldStatus_cfg (s : State) : (readHeldStatus s).keepsCfg s.cfg := by
  rcases readHeldStatus_cases s with ⟨_, h⟩ | ⟨_, h⟩ <;> rw [h]
  · exact True.intro
  · exact rfl

theorem pollLoop_cfg (fuel : Nat) (s : State) : (pollLoop fuel s).keepsCfg s.cfg := by
  induction fuel generalizing s with
  | zero => exact True.intro
  | succ fuel ih =>
    rw [pollLoop]
    rcases readHeldStatus_cases s with ⟨_, h⟩ | ⟨_, h⟩ <;> rw [h]
    · exact True.intro
    · rw [andThen_done]
      split
      · split
        · exact rfl
        · exact ih (State.countPoll _)
      · exact readHeldStatus_cfg (State.emit _ _)

theorem waitReady_cfg (s : State) : (waitReady s).keepsCfg s.cfg := pollLoop_cfg _ s.zeroCount

theorem waitReady_done_cfg {s t : State} (h : waitReady s = .done t) : t.cfg = s.cfg := by
  have := waitReady_cfg s
  rwa [h] at this

/-! ### The gate -/

theorem runs_pollLoop (fuel : Nat) (s : State) (callers : List Frame) :
    Runs (pollLoop fuel s) (s.withSeq (⟨.waitReady, 1⟩ :: callers)) fun t => t.unwind ⟨.waitReady, 5⟩ callers := by
  induction fuel generalizing s with
  | zero => exact Runs.undetermined _ _
  | succ fuel ih =>
    rw [pollLoop]
    rcases readHeldStatus_cases s with ⟨_, h⟩ | ⟨hb, h⟩
    · rw [h]; exact Runs.undetermined _ _
    rw [h, andThen_done, hasRead_sreg]
    generalize s.byteAhead = b at hb
    generalize hrest : s.answers.drop 8 = rest at hb
    have hpoll := run_poll (s.withSeq (⟨.waitReady, 1⟩ :: callers)) b rest callers rfl hb
    rw [withSeq_hasRead, testBusy_withSeq] at hpoll
    refine Runs.after ⟨24, hpoll⟩ ?_
    by_cases hbusy : busyFlag b = true
    · rw [if_pos hbusy]
      by_cases ht : (s.hasRead false b).countPoll.timedOut = true
      · rw [if_pos ht, testBusy_timeout (s.hasRead false b) callers hbusy ht]
        refine ⟨fun u hu => (by cases hu), fun k u hu => ?_⟩
        cases hu
        exact Reaches.refl _
      · rw [if_neg ht, testBusy_again (s.hasRead false b) callers hbusy (by simpa using ht)]
        exact ih _
    · rw [if_neg hbusy, testBusy_ready (s.hasRead false b) callers (by simpa using hbusy)]
      generalize s.hasRead false b = u
      rw [settleAndReread]
      rcases readHeldStatus_cases (u.emit (.dly u.cfg.tSettle)) with ⟨_, h⟩ | ⟨hb', h⟩
      · rw [h]; exact Runs.undetermined _ _
      rw [h]
      have h1 : Machine.step (u.withSeq (⟨.waitReady, 3⟩ :: callers)) =
          .next ((u.emit (.dly u.cfg.tSettle)).withSeq (⟨.waitReady, 4⟩ :: callers)) :=
        step_event (f := ⟨.waitReady, 3⟩) rfl rfl (by rfl)
      have h2 := reaches_readByte ((u.emit (.dly u.cfg.tSettle)).withSeq (⟨.waitReady, 4⟩ :: callers)) false _ _
        ⟨.waitReady, 4⟩ callers rfl rfl rfl hb'
      rw [withSeq_hasRead, unwind_seq] at h2
      exact Runs.of_reaches ((Reaches.step h1).trans ⟨23, h2⟩)

theorem runs_waitReady (s : State) (callers : List Frame) :
    Runs (waitReady s) (s.withSeq (⟨.waitReady, 0⟩ :: callers)) fun t => t.unwind ⟨.waitReady, 5⟩ callers := by
  have h : Machine.step (s.withSeq (⟨.waitReady, 0⟩ :: callers)) =
      .next (s.zeroCount.withSeq (⟨.waitReady, 1⟩ :: callers)) := by
    rw [step_action _ ⟨.waitReady, 0⟩ callers .zeroCount rfl rfl, State.perform, State.advance,
      unwind_live _ _ _ (by rfl)]
    rfl
  exact Runs.after (Reaches.step h) (runs_pollLoop _ _ _)

theorem runs_call_waitReady (s : State) (f : Frame) (callers : List Frame)
    (ha : stepOf s.cfg f.routine f.step = some (.call .waitReady)) :
    Runs (waitReady s) (s.withSeq (f :: callers)) fun t => (t.takeResult f).unwind f.next callers := by
  have h : Machine.step (s.withSeq (f :: callers)) = .next (s.withSeq (⟨.waitReady, 0⟩ :: f :: callers)) := by
    rw [step_call (s := s.withSeq (f :: callers)) (f := f) rfl ha]; rfl
  refine Runs.after (Reaches.step h) ((runs_waitReady s (f :: callers)).congr fun t => ?_)
  rw [unwind_pop _ _ _ _ (by rfl)]

theorem runs_call_writeByte (s : State) (rs : Bool) (b : Byte) (f : Frame) (callers : List Frame)
    (ha : stepOf s.cfg f.routine f.step = some (.call (.writeByte rs b)))
    (hr : ∀ t : State, t.takeResult f = t) :
    Runs (.done (writeByte rs b s)) (s.withSeq (f :: callers)) fun t => t.unwind f.next callers := by
  rw [writeByte_eq]
  have h := reaches_writeByte (s.withSeq (f :: callers)) rs b f callers rfl ha (hr _)
  rw [withSeq_wrote, unwind_seq] at h
  exact Runs.of_reaches h

/-! ### Gated writes -/

theorem runs_writeCommand (b : Byte) (s : State) (callers : List Frame) :
    Runs (writeCommand b s) (s.withSeq (⟨.writeCommand b, 0⟩ :: callers)) fun t =>
      t.unwind ⟨.writeCommand b, 2⟩ callers := by
  refine (runs_call_waitReady s ⟨.writeCommand b, 0⟩ callers rfl).andThen fun t _ => ?_
  have h : (t.takeResult ⟨.writeCommand b, 0⟩).unwind ⟨.writeCommand b, 1⟩ callers =
      t.withSeq (⟨.writeCommand b, 1⟩ :: callers) := unwind_live _ _ _ (by rfl)
  rw [show Frame.next ⟨.writeCommand b, 0⟩ = ⟨.writeCommand b, 1⟩ from rfl, h]
  exact runs_call_writeByte t false b ⟨.writeCommand b, 1⟩ callers rfl fun _ => rfl

theorem runs_writeData (b : Byte) (s : State) (callers : List Frame) :
    Runs (writeData b s) (s.withSeq (⟨.writeData b, 0⟩ :: callers)) fun t =>
      t.unwind ⟨.writeData b, 2⟩ callers := by
  refine (runs_call_waitReady s ⟨.writeData b, 0⟩ callers rfl).andThen fun t _ => ?_
  have h : (t.takeResult ⟨.writeData b, 0⟩).unwind ⟨.writeData b, 1⟩ callers =
      t.withSeq (⟨.writeData b, 1⟩ :: callers) := unwind_live _ _ _ (by rfl)
  rw [show Frame.next ⟨.writeData b, 0⟩ = ⟨.writeData b, 1⟩ from rfl, h]
  exact runs_call_writeByte t true b ⟨.writeData b, 1⟩ callers rfl fun _ => rfl

theorem runs_call_writeCommand (s : State) (b : Byte) (f : Frame) (callers : List Frame)
    (ha : stepOf s.cfg f.routine f.step = some (.call (.writeCommand b)))
    (hr : ∀ t : State, t.takeResult f = t) :
    Runs (writeCommand b s) (s.withSeq (f :: callers)) fun t => t.unwind f.next callers := by
  have h : Machine.step (s.withSeq (f :: callers)) = .next (s.withSeq (⟨.writeCommand b, 0⟩ :: f :: callers)) := by
    rw [step_call (s := s.withSeq (f :: callers)) (f := f) rfl ha]; rfl
  refine Runs.after (Reaches.step h) ((runs_writeCommand b s (f :: callers)).congr fun t => ?_)
  rw [unwind_pop _ _ _ _ (by rfl), hr]

theorem writeCommand_cfg {b : Byte} {s t : State} (h : writeCommand b s = .done t) : t.cfg = s.cfg := by
  rw [writeCommand] at h
  cases hw : waitReady s with
  | done u =>
    rw [hw, andThen_done, writeByte_eq] at h
    injection h with h
    rw [← h]
    show u.cfg = s.cfg
    exact waitReady_done_cfg hw
  | failed k u => rw [hw] at h; cases h
  | undetermined => rw [hw] at h; cases h

/-! ### The reset sequence of `Initialize` -/

/-- Event steps in a row: the events of a stretch of the step list are emitted and the frame moves past them. -/
theorem reaches_events (evs : List Event) (s : State) (r : Routine) (n : Nat) (callers : List Frame)
    (h : ∀ k (hk : k < evs.length), stepOf s.cfg r (n + k) = some (.event evs[k]))
    (hl : ∀ k, k < evs.length → (stepOf s.cfg r (n + k + 1)).isSome = true) :
    Reaches (s.withSeq (⟨r, n⟩ :: callers)) ((s.emitAll evs).withSeq (⟨r, n + evs.length⟩ :: callers)) := by
  induction evs generalizing s n with
  | nil => exact Reaches.refl _
  | cons ev evs ih =>
    have h0 := h 0 (by simp)
    have hl0 := hl 0 (by simp)
    have hstep : Machine.step (s.withSeq (⟨r, n⟩ :: callers)) =
        .next ((s.emit ev).withSeq (⟨r, n + 1⟩ :: callers)) :=
      step_event (f := ⟨r, n⟩) rfl h0 hl0
    refine (Reaches.step hstep).trans ?_
    have := ih (s.emit ev) (n + 1)
      (fun k hk => by
        have := h (k + 1) (by simpa using hk)
        rwa [show n + (k + 1) = n + 1 + k by omega] at this)
      (fun k hk => by
        have := hl (k + 1) (by simpa using hk)
        rwa [show n + (k + 1) + 1 = n + 1 + k + 1 by omega] at this)
    rwa [show n + 1 + evs.length = n + (ev :: evs).length by simp; omega] at this

end Sys2Proof.Machine
end

