-- ==== Sys2Proof/Laws/Gate.lean ====
section
/-! SUPPORT. Everything a gate can do, said once, and every instruction as one operation. -/

namespace Sys2Proof.Machine

/-- What a gate can do from its polls on. -/
theorem pollLoop_cases (fuel : Nat) (s : State) :
    pollLoop fuel s = .undetermined ∨
    (∃ polls ready reread rest, s.answers = script polls ++ (bitsOf ready ++ (bitsOf reread ++ rest)) ∧
      (∀ b ∈ polls, busyFlag b = true) ∧ busyFlag ready = false ∧
      (∀ j < polls.length, s.cfg.maxPoll ≠ some (s.pcnt + j + 1)) ∧
      pollLoop fuel s =
        .done ((((s.polledAll polls).hasRead false ready).emit (.dly s.cfg.tSettle)).hasRead false reread)) ∨
    ∃ polls rest, s.answers = script polls ++ rest ∧ polls ≠ [] ∧ (∀ b ∈ polls, busyFlag b = true) ∧
      s.cfg.maxPoll = some (s.pcnt + polls.length) ∧ pollLoop fuel s = .failed .notReady (s.polledAll polls) := by
  induction fuel generalizing s with
  | zero => exact .inl rfl
  | succ fuel ih =>
    rcases readHeldStatus_cases s with ⟨_, h⟩ | ⟨hb, h⟩
    · exact .inl (by rw [pollLoop, h]; rfl)
    by_cases hbusy : busyFlag s.byteAhead = true
    · generalize s.byteAhead = b at hb hbusy
      by_cases ht : (s.polledBusy b).timedOut = true
      · refine .inr (.inr ⟨[b], s.answers.drop 8, by simpa using hb, by simp, by simpa using hbusy, ?_,
          pollLoop_timeout fuel b _ s hb hbusy ht⟩)
        rw [State.timedOut] at ht
        cases hm : s.cfg.maxPoll with
        | none => simp [State.polledBusy, State.hasRead, hm] at ht
        | some n =>
          simp [State.polledBusy, State.hasRead, State.countPoll, hm] at ht
          simp [ht]
      · have ht' : (s.polledBusy b).timedOut = false := by simpa using ht
        have hne : s.cfg.maxPoll ≠ some (s.pcnt + 1) := by
          intro hm
          simp [State.polledBusy, State.hasRead, State.countPoll, State.timedOut, hm] at ht
        have hans : (s.polledBusy b).answers = s.answers.drop 8 := rfl
        have hcfg : (s.polledBusy b).cfg = s.cfg := rfl
        have hpc : ∀ n, s.cfg.maxPoll = some n → (s.polledBusy b).pcnt = s.pcnt + 1 := by
          intro n hm; simp [State.polledBusy, State.countPoll, State.hasRead, hm]
        rw [pollLoop_busy fuel b _ s hb hbusy ht']
        rcases ih (s.polledBusy b) with h | ⟨polls, ready, reread, rest, ha, hp, hr, hn, he⟩ |
          ⟨polls, rest, ha, hpne, hp, hn, he⟩
        · exact .inl h
        · refine .inr (.inl ⟨b :: polls, ready, reread, rest, ?_, ?_, hr, ?_, he⟩)
          · rw [hb, ← hans, ha]; simp
          · simpa [hbusy] using hp
          · intro j hj hm
            rcases j with _ | j
            · exact hne (by simpa using hm)
            · refine hn j (by simpa using hj) ?_
              rw [hcfg, hm, hpc _ hm]; simp; omega
        · refine .inr (.inr ⟨b :: polls, rest, ?_, by simp, by simpa [hbusy] using hp, ?_, he⟩)
          · rw [hb, ← hans, ha]; simp
          · rw [hcfg] at hn
            rw [hn, hpc _ hn]; simp; omega
    · rcases readHeldStatus_cases ((s.hasRead false s.byteAhead).emit (.dly s.cfg.tSettle)) with ⟨_, h'⟩ | ⟨hb', h'⟩
      · refine .inl ?_
        rw [pollLoop, h, andThen_done, hasRead_sreg, if_neg hbusy, settleAndReread]
        exact h'
      · have hans : ((s.hasRead false s.byteAhead).emit (.dly s.cfg.tSettle)).answers = s.answers.drop 8 := rfl
        have h2 : pollLoop (fuel + 1) s =
            .done (((s.hasRead false s.byteAhead).emit (.dly s.cfg.tSettle)).hasRead false
              ((s.hasRead false s.byteAhead).emit (.dly s.cfg.tSettle)).byteAhead) := by
          rw [pollLoop, h, andThen_done, hasRead_sreg, if_neg hbusy, settleAndReread]
          exact h'
        rw [hans] at hb'
        generalize ((s.hasRead false s.byteAhead).emit (.dly s.cfg.tSettle)).byteAhead = c at hb' h2
        refine .inr (.inl ⟨[], s.byteAhead, c, (s.answers.drop 8).drop 8, ?_, by simp, by simpa using hbusy, by simp,
          h2⟩)
        rw [← hb']
        exact hb

/-- Everything a gate can do: no answer for it in State; it opens; or it times out (rules R143, R146). -/
theorem waitReady_cases (s : State) :
    waitReady s = .undetermined ∨
    (∃ g rest, s.answers = script g.bytes ++ rest ∧ (∀ b ∈ g.polls, busyFlag b = true) ∧ busyFlag g.ready = false ∧
      (∀ n, s.cfg.maxPoll = some n → 1 ≤ n → g.polls.length < n) ∧ waitReady s = .done (s.gated g)) ∨
    ∃ polls rest, s.answers = script polls ++ rest ∧ polls ≠ [] ∧ polls.all busyFlag = true ∧
      s.cfg.maxPoll = some polls.length ∧ waitReady s = .failed .notReady (s.timedOutAfter polls) := by
  have hz : ∀ n, s.cfg.maxPoll = some n → s.zeroCount.pcnt = 0 := by
    intro n hm; simp [State.zeroCount, hm]
  rcases pollLoop_cases s.answers.length s.zeroCount with h | ⟨polls, ready, reread, rest, ha, hp, hr, hn, he⟩ |
    ⟨polls, rest, ha, hne, hp, hn, he⟩
  · exact .inl h
  · refine .inr (.inl ⟨⟨polls, ready, reread⟩, rest, by simpa [Gate.bytes] using ha, hp, hr, ?_, ?_⟩)
    · intro n hm h1
      by_contra hlt
      have h1' := hn (n - 1) (by simp at hlt; omega)
      rw [hz n hm] at h1'
      apply h1'
      show s.cfg.maxPoll = _
      rw [hm]; congr 1; omega
    · rw [waitReady, he]
      congr 1
      by_cases hne : polls = []
      · subst hne
        cases hm : s.cfg.maxPoll <;>
          simp [State.polledAll, State.hasRead, State.gated, State.zeroCount, State.emit, countAfter, hm, Gate.events,
            pollEvents, dataPins, readLatches]
      · rw [polledAll_eq _ _ hne]
        cases hm : s.cfg.maxPoll <;>
          simp [State.hasRead, State.gated, State.zeroCount, State.emit, countAfter, hm, Gate.events,
            pollEvents, dataPins, readLatches, Nat.mul_add, Nat.add_assoc]
  · have hn' : s.cfg.maxPoll = some polls.length := by
      have : s.cfg.maxPoll = some (s.zeroCount.pcnt + polls.length) := hn
      rw [this, hz _ this]; simp
    have hall : polls.all busyFlag = true := by simpa using hp
    exact .inr (.inr ⟨polls, rest, ha, hne, hall, hn', waitReady_times_out polls rest s ha hall hn' hne⟩)


/-- What an instruction runs from an idle state, its end or its failure. -/
def progressOf : Instr → State → Progress
  | .init attributes => initAll attributes
  | .clear => fun s => writeCommand s.cfg.cmdClear s
  | .home => fun s => writeCommand s.cfg.cmdHome s
  | .gotoxy col row => gotoXY col row
  | .putc ch => printChar ch
  | .wrcmd b => writeCommand b
  | .wrdata b => writeData b
  | .rdstat => waitReady
  | .busWi b => fun s => .done (s.wrote false b)
  | .busWd b => fun s => .done (s.wrote true b)
  | .busRs => fun s => .done (s.hasRead false s.byteAhead)
  | .busRd => fun s => .done (s.hasRead true s.byteAhead)
  | .lcdClear => fun s => .done (s.wrote false s.cfg.cmdClear)
  | .lcdHome => fun s => .done (s.wrote false s.cfg.cmdHome)
  | .lcdEntry => fun s => .done (s.wrote false s.cfg.cmdEntry)
  | .lcdDisplay d c b => fun s => .done (s.wrote false (displayByte d c b))
  | .lcdFunction => fun s => .done (s.wrote false s.cfg.cmdFunction)
  | .lcdSetddram a => fun s => .done (s.wrote false (setAddressByte s.cfg (a.zeroExtend 8)))

/-- Every meaning is one operation of its entry routine. -/
theorem exec_eq (i : Instr) (s : State) : exec i s = s.operate (entryRoutine s.cfg i) (progressOf i) := by
  cases i <;>
    simp only [exec, entryRoutine, progressOf, execInit, execClear, execHome, execGotoxy, execPutc, execWrcmd, execWrdata,
      execRdstat, execBusWi, execBusWd, execBusRs, execBusRd, execLcdClear, execLcdHome, execLcdEntry, execLcdDisplay,
      execLcdFunction, execLcdSetddram, writeByte_eq, readByte_ahead]

theorem exec_done (i : Instr) (s t : State) (h : s.seq = []) (hp : progressOf i s.accept = .done t) :
    exec i s = .next (t.complete (entryRoutine s.cfg i)) := by
  rw [exec_eq, operate_done s t _ _ h hp]

theorem exec_failed (i : Instr) (s t : State) (k : Code) (h : s.seq = []) (hp : progressOf i s.accept = .failed k t) :
    exec i s = .next (t.raise k) := by
  rw [exec_eq, operate_failed s t k _ _ h hp]

theorem exec_undetermined (i : Instr) (s : State) (h : s.seq = []) (hp : progressOf i s.accept = .undetermined) :
    exec i s = .next (s.start (entryRoutine s.cfg i)) := by
  rw [exec_eq, operate_undetermined s _ _ h hp]

theorem exec_busy (i : Instr) (s : State) (h : s.seq ≠ []) : exec i s = .next s := by
  rw [exec_eq, operate_busy s _ _ h]

end Sys2Proof.Machine
end

