-- ==== Sys2Proof/Laws/PerInstr.lean ====
section
/-! SUPPORT. One lemma for each constructor of `Instr`: its encoding is a word of its row of the opcode table. -/

namespace Sys2Proof.Laws

/-- The encoding of an instruction in range has the format and the fixed bits of the row with its mnemonic (rules R81, R90,
R97). -/
def EncodesRow.Statement (i : Instr) : Prop :=
  i.wellFormed = true → ∃ row ∈ opcodeTable, row.mnemonic = i.mnemonic ∧ row.hits (encode i) = true

theorem EncodesRow.init (attributes : Byte) : EncodesRow.Statement (.init attributes) := fun _ =>
  ⟨⟨"INIT", 16, 0xFF00, 0x1000⟩, by decide, rfl, by revert attributes; decide⟩

theorem EncodesRow.clear : EncodesRow.Statement .clear := fun _ => ⟨⟨"CLEAR", 16, 0xFFFF, 0x2000⟩, by decide, rfl, by decide⟩

theorem EncodesRow.home : EncodesRow.Statement .home := fun _ => ⟨⟨"HOME", 16, 0xFFFF, 0x3000⟩, by decide, rfl, by decide⟩

theorem EncodesRow.gotoxy (col : Byte) (row : Nat) : EncodesRow.Statement (.gotoxy col row) := fun h =>
  ⟨⟨"GOTOXY", 16, 0xFE00, 0x4000⟩, by decide, rfl, by
    have hr : row = 0 ∨ row = 1 := by
      simp only [Instr.wellFormed, lineNumberOk, decide_eq_true_eq] at h
      omega
    clear h
    rcases hr with rfl | rfl <;> (revert col; decide)⟩

theorem EncodesRow.putc (ch : Byte) : EncodesRow.Statement (.putc ch) := fun _ =>
  ⟨⟨"PUTC", 16, 0xFF00, 0x5000⟩, by decide, rfl, by revert ch; decide⟩

theorem EncodesRow.wrcmd (b : Byte) : EncodesRow.Statement (.wrcmd b) := fun _ =>
  ⟨⟨"WRCMD", 16, 0xFF00, 0x6000⟩, by decide, rfl, by revert b; decide⟩

theorem EncodesRow.wrdata (b : Byte) : EncodesRow.Statement (.wrdata b) := fun _ =>
  ⟨⟨"WRDATA", 16, 0xFF00, 0x7000⟩, by decide, rfl, by revert b; decide⟩

theorem EncodesRow.rdstat : EncodesRow.Statement .rdstat := fun _ =>
  ⟨⟨"RDSTAT", 16, 0xFFFF, 0x8000⟩, by decide, rfl, by decide⟩

theorem EncodesRow.busWi (b : Byte) : EncodesRow.Statement (.busWi b) := fun _ =>
  ⟨⟨"BUS.WI", 2, 0x3, 0x0⟩, by decide, rfl, by revert b; decide⟩

theorem EncodesRow.busWd (b : Byte) : EncodesRow.Statement (.busWd b) := fun _ =>
  ⟨⟨"BUS.WD", 2, 0x3, 0x2⟩, by decide, rfl, by revert b; decide⟩

theorem EncodesRow.busRs : EncodesRow.Statement .busRs := fun _ => ⟨⟨"BUS.RS", 2, 0x3, 0x1⟩, by decide, rfl, by decide⟩

theorem EncodesRow.busRd : EncodesRow.Statement .busRd := fun _ => ⟨⟨"BUS.RD", 2, 0x3, 0x3⟩, by decide, rfl, by decide⟩

theorem EncodesRow.lcdClear : EncodesRow.Statement .lcdClear := fun _ =>
  ⟨⟨"LCD.CLEAR", 8, 0xFF, 0x01⟩, by decide, rfl, by decide⟩

theorem EncodesRow.lcdHome : EncodesRow.Statement .lcdHome := fun _ =>
  ⟨⟨"LCD.HOME", 8, 0xFF, 0x02⟩, by decide, rfl, by decide⟩

theorem EncodesRow.lcdEntry : EncodesRow.Statement .lcdEntry := fun _ =>
  ⟨⟨"LCD.ENTRY", 8, 0xFF, 0x06⟩, by decide, rfl, by decide⟩

theorem EncodesRow.lcdDisplay (d c b : Bool) : EncodesRow.Statement (.lcdDisplay d c b) := fun _ =>
  ⟨⟨"LCD.DISPLAY", 8, 0xF8, 0x08⟩, by decide, rfl, by revert d c b; decide⟩

theorem EncodesRow.lcdFunction : EncodesRow.Statement .lcdFunction := fun _ =>
  ⟨⟨"LCD.FUNCTION", 8, 0xFF, 0x28⟩, by decide, rfl, by decide⟩

theorem EncodesRow.lcdSetddram (a : Address) : EncodesRow.Statement (.lcdSetddram a) := fun _ =>
  ⟨⟨"LCD.SETDDRAM", 8, 0x80, 0x80⟩, by decide, rfl, by revert a; decide⟩

end Sys2Proof.Laws
end

