-- ==== Sys2Proof/Laws/Step.lean ====
section
/-! SUPPORT. What a step can be, said once, and what it leaves alone. -/

namespace Sys2Proof.Machine

/-- Everything a step that answers a next state can be: nothing, an instruction, a refused word, the next character of a
`Print` in progress or its end, or one action of the top frame (rules R32, R70, R98, R173, R207). -/
theorem step_cases {s t : State} (h : step s = .next t) :
    (s.seq = [] ∧ s.text = [] ∧ s.cmds = [] ∧ t = s) ∨
    (∃ r rest i, s.seq = [] ∧ s.text = [] ∧ s.cmds = r :: rest ∧ decode r = .instr i ∧
      exec i { s with cmds := rest } = .next t) ∨
    (∃ r rest why, s.seq = [] ∧ s.text = [] ∧ s.cmds = r :: rest ∧ decode r = .reject why ∧
      t = State.raise { s with cmds := rest } .illegal) ∨
    (∃ ch rest, s.seq = [] ∧ s.text = ch :: rest ∧ s.answeredOk = true ∧
      exec (.putc ch) { s with text := rest } = .next t) ∨
    (∃ ch rest, s.seq = [] ∧ s.text = ch :: rest ∧ s.answeredOk = false ∧ t = { s with text := [] }) ∨
    ∃ f callers a, s.seq = f :: callers ∧ stepOf s.cfg f.routine f.step = some a ∧ t = s.perform a f callers := by
  have split : ∀ {α : Type} (l : List α), l = [] ∨ ∃ x rest, l = x :: rest := by
    intro α l; cases l <;> simp
  rcases split s.seq with hs | ⟨f, callers, hs⟩
  · rcases split s.text with ht | ⟨ch, rest, ht⟩
    · rcases split s.cmds with hc | ⟨r, rest, hc⟩
      · rw [step_idle s hs ht hc] at h
        cases h
        exact .inl ⟨hs, ht, hc, rfl⟩
      · cases hd : decode r with
        | instr i =>
          rw [step_instr s r rest i hs ht hc hd] at h
          exact .inr (.inl ⟨r, rest, i, hs, ht, hc, hd, h⟩)
        | reject why =>
          rw [step_reject s r rest why hs ht hc hd] at h
          cases h
          exact .inr (.inr (.inl ⟨r, rest, why, hs, ht, hc, hd, rfl⟩))
    · by_cases ho : s.answeredOk = true
      · rw [step_print s ch rest hs ht ho] at h
        exact .inr (.inr (.inr (.inl ⟨ch, rest, hs, ht, ho, h⟩)))
      · have ho' : s.answeredOk = false := by simpa using ho
        rw [step_print_ends s ch rest hs ht ho'] at h
        cases h
        exact .inr (.inr (.inr (.inr (.inl ⟨ch, rest, hs, ht, ho', rfl⟩))))
  · rw [step_running s f callers hs] at h
    simp only [sequencerStep, hs] at h
    cases ha : stepOf s.cfg f.routine f.step with
    | none => rw [ha] at h; cases h
    | some a =>
      rw [ha] at h
      cases h
      exact .inr (.inr (.inr (.inr (.inr ⟨f, callers, a, hs, ha, rfl⟩))))

section TakeResult
variable (s : State) (g : Frame)

theorem takeResult_cases : s.takeResult g = s ∨ s.takeResult g = s.takePosition := by
  unfold State.takeResult
  split
  · exact .inr rfl
  · exact .inl rfl

end TakeResult

/-- Unwinding changes `SEQ`, the response and `POS`, and nothing else (rule R32). -/
theorem unwind_eq (s : State) (f : Frame) (callers : List Frame) :
    ∃ q r p, s.unwind f callers = { s with seq := q, rsp := r, pos := p } := by
  induction callers generalizing s f with
  | nil =>
    unfold State.unwind
    split
    · exact ⟨[f], s.rsp, s.pos, rfl⟩
    · exact ⟨[], _, s.pos, rfl⟩
  | cons g callers ih =>
    unfold State.unwind
    split
    · exact ⟨f :: g :: callers, s.rsp, s.pos, rfl⟩
    · obtain ⟨q, r, p, h⟩ := ih (s.takeResult g) g.next
      refine ⟨q, r, p, ?_⟩
      rw [h]
      rcases takeResult_cases s g with h' | h'
      · rw [h']
      · rw [h']; rfl

section Unwind
variable (s : State) (f : Frame) (callers : List Frame)

@[simp] theorem unwind_cfg : (s.unwind f callers).cfg = s.cfg := by obtain ⟨q, r, p, h⟩ := unwind_eq s f callers; rw [h]
@[simp] theorem unwind_dir : (s.unwind f callers).dir = s.dir := by obtain ⟨q, r, p, h⟩ := unwind_eq s f callers; rw [h]
@[simp] theorem unwind_lat : (s.unwind f callers).lat = s.lat := by obtain ⟨q, r, p, h⟩ := unwind_eq s f callers; rw [h]
@[simp] theorem unwind_dreg : (s.unwind f callers).dreg = s.dreg := by obtain ⟨q, r, p, h⟩ := unwind_eq s f callers; rw [h]
@[simp] theorem unwind_sreg : (s.unwind f callers).sreg = s.sreg := by obtain ⟨q, r, p, h⟩ := unwind_eq s f callers; rw [h]
@[simp] theorem unwind_pcnt : (s.unwind f callers).pcnt = s.pcnt := by obtain ⟨q, r, p, h⟩ := unwind_eq s f callers; rw [h]
@[simp] theorem unwind_cmds : (s.unwind f callers).cmds = s.cmds := by obtain ⟨q, r, p, h⟩ := unwind_eq s f callers; rw [h]
@[simp] theorem unwind_text : (s.unwind f callers).text = s.text := by obtain ⟨q, r, p, h⟩ := unwind_eq s f callers; rw [h]
@[simp] theorem unwind_answers : (s.unwind f callers).answers = s.answers := by
  obtain ⟨q, r, p, h⟩ := unwind_eq s f callers; rw [h]
@[simp] theorem unwind_draws : (s.unwind f callers).draws = s.draws := by
  obtain ⟨q, r, p, h⟩ := unwind_eq s f callers; rw [h]
@[simp] theorem unwind_trace : (s.unwind f callers).trace = s.trace := by
  obtain ⟨q, r, p, h⟩ := unwind_eq s f callers; rw [h]

end Unwind

/-- Where unwinding stops: `SEQ` empty, or a live frame of the ones it was given, moved on by one, on top of those under
it. -/
theorem unwind_seq_cases (s : State) (f : Frame) (callers : List Frame) :
    (f.live s.cfg = true ∧ (s.unwind f callers).seq = f :: callers) ∨ (s.unwind f callers).seq = [] ∨
    ∃ g rest, g :: rest <:+ callers ∧ g.next.live s.cfg = true ∧ (s.unwind f callers).seq = g.next :: rest := by
  induction callers generalizing s f with
  | nil =>
    by_cases h : f.live s.cfg = true
    · exact .inl ⟨h, by rw [unwind_live s f [] h]; rfl⟩
    · exact .inr (.inl (by rw [unwind_last s f (by simpa using h)]; rfl))
  | cons g callers ih =>
    by_cases h : f.live s.cfg = true
    · exact .inl ⟨h, by rw [unwind_live s f _ h]; rfl⟩
    · rw [unwind_pop s f g callers (by simpa using h)]
      have hc : (s.takeResult g).cfg = s.cfg := by
        rcases takeResult_cases s g with h' | h'
        · rw [h']
        · rw [h']; rfl
      rcases ih (s.takeResult g) g.next with ⟨hl, hs⟩ | hs | ⟨g', rest, hsub, hl, hs⟩
      · exact .inr (.inr ⟨g, callers, List.suffix_refl _, by rwa [hc] at hl, hs⟩)
      · exact .inr (.inl hs)
      · exact .inr (.inr ⟨g', rest, hsub.trans (List.suffix_cons _ _), by rwa [hc] at hl, hs⟩)

/-! ### The step list of `Initialize` -/

theorem putNibbleSteps_eq (cfg : Configuration) (n : Nibble) :
    putNibbleSteps cfg n = (putNibbleEvents cfg n).map .event := rfl

theorem controllerResetSteps_eq (cfg : Configuration) (l : List (Nibble × Nat)) :
    controllerResetSteps cfg l = (resetEvents cfg l).map .event := by
  induction l with
  | nil => rfl
  | cons x l ih =>
    obtain ⟨n, d⟩ := x
    rw [controllerResetSteps, ih, putNibbleSteps_eq]
    simp [resetEvents]

/-- `Initialize` is the events of its steps I1 to I4 and then four calls (rule R160). -/
theorem initSteps_eq (cfg : Configuration) (attributes : Byte) :
    initSteps cfg attributes = (initPinEvents cfg).map .event ++
      [.call (.writeCommand cfg.cmdFunction), .call (.writeCommand cfg.cmdClear), .call (.writeCommand cfg.cmdEntry),
        .call (.writeCommand attributes)] := by
  rw [initSteps, controllerResetSteps_eq, initPinEvents, List.map_append]
  rfl

@[simp] theorem length_resetEvents (cfg : Configuration) (l : List (Nibble × Nat)) :
    (resetEvents cfg l).length = 9 * l.length := by
  induction l with
  | nil => rfl
  | cons x l ih =>
    have : (resetEvents cfg (x :: l)).length = 9 + (resetEvents cfg l).length := by
      simp [resetEvents, putNibbleEvents]; omega
    rw [this, ih, List.length_cons]; omega

@[simp] theorem length_initPinEvents (cfg : Configuration) :
    (initPinEvents cfg).length = 11 + 9 * cfg.resetSeq.length := by
  simp [initPinEvents]; omega

end Sys2Proof.Machine
end

