-- ==== Sys2Proof/Laws/TextApi.lean ====
section
/-! SUPPORT. What each operation of the text interface comes to where its gates open. -/

namespace Sys2Proof.Machine

theorem gated_answers (s : State) (g : Gate) (rest) (ha : s.answers = script g.bytes ++ rest) : (s.gated g).answers = rest := by
  have hl : 8 * (g.polls.length + 2) = (script g.bytes).length := by simp [Gate.bytes]; omega
  show s.answers.drop _ = rest
  rw [ha, hl, List.drop_left]

theorem printChar_plain (s : State) (ch g rest) (ha : s.answers = script (Gate.bytes g) ++ rest) (ho : g.opens s.cfg = true) (hc : ch ≠ s.cfg.chNewline)
   (hw : wrapCase s.cfg (currentAddress g.reread) = .noWrap) :
   printChar ch s = .done (((s.gated g).withPos g.reread).wrote true ch) := by
  rw [printChar, waitReady_opens g rest s ha ho, andThen_done]
  simp only
  rw [if_neg (by exact hc), wrapPath]
  have hw' : wrapCase (s.gated g).takePosition.cfg (currentAddress (s.gated g).takePosition.pos) = .noWrap := hw
  rw [hw']
  simp only [andThen_done, writeByte_eq]
  rfl

theorem wrapCase_none (cfg : Configuration) (a : Address) (h : cfg.wrap = false ∨
      a.toNat ≠ cfg.line1Base.toNat + cfg.lineLength ∧ a.toNat ≠ cfg.line2Base.toNat + cfg.lineLength) : wrapCase cfg a = .noWrap := by
  rcases h with h | ⟨h1, h2⟩
  · simp [wrapCase, h]
  · simp [wrapCase, h1, h2]

theorem printChar_newline (s : State) (g g' : Gate) (rest) (ha : s.answers = script (g.bytes ++ g'.bytes) ++ rest)
    (ho : g.opens s.cfg = true) (ho' : g'.opens s.cfg = true) :
    printChar s.cfg.chNewline s = .done ((((s.gated g).withPos g.reread).gated g').wrote false (newlineByte s.cfg (currentAddress g.reread))) := by
  rw [printChar, waitReady_opens g (script g'.bytes ++ rest) s (by simpa using ha) ho, andThen_done]
  simp only
  rw [if_pos (by rfl), newlinePath]
  exact writeCommand_opens _ g' rest (s.gated g).takePosition (gated_answers s g _ (by simpa using ha)) ho'

theorem printChar_wrap (s : State) (ch : Byte) (g g' : Gate) (rest) (row : Nat) (ha : s.answers = script (g.bytes ++ g'.bytes) ++ rest)
    (ho : g.opens s.cfg = true) (ho' : g'.opens s.cfg = true) (hc : ch ≠ s.cfg.chNewline)
    (hw : wrapCase s.cfg (currentAddress g.reread) = .endOfLine1 ∧ row = 1 ∨ wrapCase s.cfg (currentAddress g.reread) = .endOfLine2 ∧ row = 0) :
    printChar ch s = .done (((((s.gated g).withPos g.reread).wrote false (setAddressByte s.cfg (lineBase s.cfg row))).gated g').wrote true ch) := by
  rw [printChar, waitReady_opens g (script g'.bytes ++ rest) s (by simpa using ha) ho, andThen_done]
  simp only
  rw [if_neg (by exact hc), wrapPath]
  have ha' := gated_answers s g (script g'.bytes ++ rest) (by simpa using ha)
  rcases hw with ⟨hw, rfl⟩ | ⟨hw, rfl⟩
  · have hw' : wrapCase (s.gated g).takePosition.cfg (currentAddress (s.gated g).takePosition.pos) = .endOfLine1 := hw
    rw [hw']
    simp only [writeByte_eq]
    rw [waitReady_opens g' rest _ (by exact ha') (by exact ho'), andThen_done]
    rfl
  · have hw' : wrapCase (s.gated g).takePosition.cfg (currentAddress (s.gated g).takePosition.pos) = .endOfLine2 := hw
    rw [hw']
    simp only [writeByte_eq]
    rw [waitReady_opens g' rest _ (by exact ha') (by exact ho'), andThen_done]
    rfl

theorem wrapCase_line1 (cfg : Configuration) (a : Address) (hw : cfg.wrap = true) (h : a.toNat = cfg.line1Base.toNat + cfg.lineLength) : wrapCase cfg a = .endOfLine1 := by
  simp [wrapCase, hw, h]
theorem wrapCase_line2 (cfg : Configuration) (a : Address) (hw : cfg.wrap = true) (h1 : a.toNat ≠ cfg.line1Base.toNat + cfg.lineLength)  (h : a.toNat = cfg.line2Base.toNat + cfg.lineLength) : wrapCase cfg a = .endOfLine2 := by
  rw [wrapCase, if_pos hw, if_neg h1, if_pos h]

theorem gotoXY_sends (s : State) (col row g rest) (ha : s.answers = script g.bytes ++ rest) (ho : Gate.opens s.cfg g = true) (hb : Machine.outOfBounds s.cfg col = false) :
    gotoXY col row s = .done ((s.gated g).wrote false (gotoByte s.cfg col row)) := by
  rw [gotoXY, if_neg (by simp [hb]), writeCommand_opens _ g rest s ha ho]

theorem waitReady_failed {s k t} (h : waitReady s = .failed k t) : k = .notReady := by
  rcases waitReady_cases s with h' | ⟨g, rest, ha, _, _, _, h'⟩ | ⟨polls, rest, ha, hne, hp, hm', h'⟩
  · rw [h'] at h; cases h
  · rw [h'] at h; cases h
  · rw [h'] at h; cases h; rfl
theorem writeCommand_failed {b s k t} (h : writeCommand b s = .failed k t) : k = .notReady := by
  rw [writeCommand] at h
  cases hw : waitReady s with
  | done u => rw [hw] at h; cases h
  | failed k u => rw [hw] at h; cases h; exact waitReady_failed hw
  | undetermined => rw [hw] at h; cases h

/-! ### Print (rule R173) -/

theorem execPrint_busy (text : List Byte) (s : State) (h : s.seq ≠ []) : execPrint text s = .next s := by
  cases text with
  | nil => rfl
  | cons ch rest => cases hs : s.seq with
    | nil => exact absurd hs h
    | cons f callers => simp [execPrint, State.idle, hs]

/-- What `Print` does after its first character came to `t`: it goes on, it ends, or it waits. -/
theorem execPrint_cons (ch : Byte) (rest : List Byte) (s t : State) (hs : s.seq = []) (h : execPutc ch s = .next t) :
    execPrint (ch :: rest) s =
      if t.answeredOk then execPrint rest t else if t.idle then .next t else .next { t with text := rest } := by
  simp [execPrint, State.idle, hs, h]

end Sys2Proof.Machine
end

