-- ==== Sys2Proof/Laws/View.lean ====
section
/-! SUPPORT. The bus view, the length and the delays of the traces of a write, a read, a gate and the pin set-up of
`Initialize`. -/

namespace Sys2Proof.Machine

section StrobesFrom
variable {lat : Bank Level} {c : Option Strobe} {evs : List Event}

theorem strobesFrom_set {p : Pin} (hp : p ≠ .e) (v : Bool) :
    strobesFrom lat c (setEvent p v :: evs) = strobesFrom (lat.set p (levelOf v)) c evs := by
  cases p <;> cases v <;> first | rfl | exact absurd rfl hp

@[simp] theorem strobesFrom_rs (v : Bool) :
    strobesFrom lat c (setEvent .rs v :: evs) = strobesFrom (lat.set .rs (levelOf v)) c evs :=
  strobesFrom_set (by decide) v
@[simp] theorem strobesFrom_db7 (v : Bool) :
    strobesFrom lat c (setEvent .db7 v :: evs) = strobesFrom (lat.set .db7 (levelOf v)) c evs :=
  strobesFrom_set (by decide) v
@[simp] theorem strobesFrom_db6 (v : Bool) :
    strobesFrom lat c (setEvent .db6 v :: evs) = strobesFrom (lat.set .db6 (levelOf v)) c evs :=
  strobesFrom_set (by decide) v
@[simp] theorem strobesFrom_db5 (v : Bool) :
    strobesFrom lat c (setEvent .db5 v :: evs) = strobesFrom (lat.set .db5 (levelOf v)) c evs :=
  strobesFrom_set (by decide) v
@[simp] theorem strobesFrom_db4 (v : Bool) :
    strobesFrom lat c (setEvent .db4 v :: evs) = strobesFrom (lat.set .db4 (levelOf v)) c evs :=
  strobesFrom_set (by decide) v

end StrobesFrom

/-- The latches while a nibble is shown by a write half-cycle. -/
def shownLatches (rs : Bool) (n : Nibble) (l : Bank Level) : Bank Level :=
  nibbleLatches n { l with rs := levelOf rs, rw := .low }

/-- The two strobes of a whole write (rule R121). -/
theorem strobesFrom_write (cfg : Configuration) (rs : Bool) (b : Byte) (lat : Bank Level) (evs : List Event) :
    strobesFrom lat none (writeEvents cfg rs b ++ evs) =
      ⟨shownLatches rs (highNibble b) lat, []⟩ :: ⟨shownLatches rs (lowNibble b) { lat with e := .low }, []⟩ ::
        strobesFrom (writeLatches rs lat) none evs := by
  simp [writeEvents, strobesFrom, shownLatches, nibbleLatches, writeLatches, dataPins]

/-- The two strobes of a whole read (rule R123). -/
theorem strobesFrom_read (cfg : Configuration) (rs : Bool) (b : Byte) (lat : Bank Level) (evs : List Event) :
    strobesFrom lat none (readEvents cfg rs b ++ evs) =
      ⟨{ lat with rs := levelOf rs, rw := .high },
        [(.db7, b.getLsbD 7), (.db6, b.getLsbD 6), (.db5, b.getLsbD 5), (.db4, b.getLsbD 4)]⟩ ::
      ⟨{ lat with e := .low, rs := levelOf rs, rw := .high },
        [(.db7, b.getLsbD 3), (.db6, b.getLsbD 2), (.db5, b.getLsbD 1), (.db4, b.getLsbD 0)]⟩ ::
        strobesFrom (readLatches rs lat) none evs := by
  simp [readEvents, strobesFrom, readLatches]

@[simp] theorem low_bit : Level.low.bit = some false := rfl
@[simp] theorem high_bit : Level.high.bit = some true := rfl
@[simp] theorem levelOf_bit (v : Bool) : (levelOf v).bit = some v := by cases v <;> rfl

theorem nibbleOf_bits (n : Nibble) : nibbleOf (n.getLsbD 3) (n.getLsbD 2) (n.getLsbD 1) (n.getLsbD 0) = n := by
  revert n; decide

theorem half_shown (rs : Bool) (n : Nibble) (l : Bank Level) (vs) :
    Strobe.half ⟨shownLatches rs n l, vs⟩ = .w rs n := by
  have h := nibbleOf_bits n
  simp only [Strobe.half, shownLatches, nibbleLatches, latchedNibble, levelOf_bit, low_bit, h]

theorem half_read (rs : Bool) (l : Bank Level) (a b c d : Bool) (hrs : l.rs = levelOf rs) (hrw : l.rw = .high) :
    Strobe.half ⟨l, [(.db7, a), (.db6, b), (.db5, c), (.db4, d)]⟩ = .r rs (nibbleOf a b c d) := by
  simp [Strobe.half, hrs, hrw]

theorem busView_eq (lat : Bank Level) (evs : List Event) : busView lat evs = (strobesFrom lat none evs).map Strobe.half := rfl

theorem highNibble_eq (b : Byte) : nibbleOf (b.getLsbD 7) (b.getLsbD 6) (b.getLsbD 5) (b.getLsbD 4) = highNibble b := by
  revert b; decide
theorem lowNibble_eq (b : Byte) : nibbleOf (b.getLsbD 3) (b.getLsbD 2) (b.getLsbD 1) (b.getLsbD 0) = lowNibble b := by
  revert b; decide

theorem busView_write (cfg : Configuration) (rs : Bool) (b : Byte) (lat : Bank Level) (evs : List Event) :
    busView lat (writeEvents cfg rs b ++ evs) = halvesOf [.write rs b] ++ busView (writeLatches rs lat) evs := by
  rw [busView_eq, strobesFrom_write, List.map_cons, List.map_cons, half_shown, half_shown]
  rfl

theorem busView_read (cfg : Configuration) (rs : Bool) (b : Byte) (lat : Bank Level) (evs : List Event) :
    busView lat (readEvents cfg rs b ++ evs) = halvesOf [.read rs b] ++ busView (readLatches rs lat) evs := by
  rw [busView_eq, strobesFrom_read, List.map_cons, List.map_cons, half_read rs _ _ _ _ _ rfl rfl, half_read rs _ _ _ _ _ rfl rfl,
    highNibble_eq, lowNibble_eq]
  rfl

@[simp] theorem readLatches_again (rs rs' : Bool) (l : Bank Level) : readLatches rs (readLatches rs' l) = readLatches rs l := rfl

theorem busView_polls (cfg : Configuration) (bytes : List Byte) (lat : Bank Level) (evs : List Event) (h : bytes ≠ []) :
    busView lat (pollEvents cfg bytes ++ evs) = halvesOf (statusReads bytes) ++ busView (readLatches false lat) evs := by
  induction bytes generalizing lat with
  | nil => exact absurd rfl h
  | cons b bs ih =>
    rw [show pollEvents cfg (b :: bs) ++ evs = readEvents cfg false b ++ (pollEvents cfg bs ++ evs) by simp [pollEvents],
      busView_read]
    by_cases hb : bs = []
    · subst hb; rfl
    · rw [ih _ hb, readLatches_again]
      simp [halvesOf, statusReads]

theorem busView_dly (n : Nat) (lat : Bank Level) (evs : List Event) : busView lat (.dly n :: evs) = busView lat evs := rfl

theorem halvesOf_append (a b : List Transaction) : halvesOf (a ++ b) = halvesOf a ++ halvesOf b := by simp [halvesOf]
theorem statusReads_append (a b : List Byte) : statusReads (a ++ b) = statusReads a ++ statusReads b := by simp [statusReads]

theorem busView_gate (cfg : Configuration) (g : Gate) (lat : Bank Level) (evs : List Event) :
    busView lat (g.events cfg ++ evs) = halvesOf (statusReads g.bytes) ++ busView (readLatches false lat) evs := by
  rw [Gate.events, List.append_assoc, List.append_assoc, busView_polls _ _ _ _ (by simp), List.singleton_append, busView_dly,
    busView_read, readLatches_again, ← List.append_assoc, ← halvesOf_append]
  simp [Gate.bytes, statusReads]

@[simp] theorem length_writeEvents (cfg rs b) : (writeEvents cfg rs b).length = 26 := rfl
@[simp] theorem length_readEvents (cfg rs b) : (readEvents cfg rs b).length = 22 := rfl
@[simp] theorem length_pollEvents (cfg) (bs : List Byte) : (pollEvents cfg bs).length = 22 * bs.length := by
  induction bs with
  | nil => rfl
  | cons b bs ih => rw [pollEvents, List.flatMap_cons, ← pollEvents, List.length_append, ih]; simp; omega
theorem length_gateEvents (cfg) (g : Gate) : (g.events cfg).length = 22 * (g.polls.length + 2) + 1 := by
  simp [Gate.events]; omega

theorem delaySum_append (a b : List Event) : delaySum (a ++ b) = delaySum a + delaySum b := by
  induction a with
  | nil => simp [delaySum]
  | cons x a ih => cases x <;> simp [delaySum, ih, Nat.add_assoc]
theorem delaySum_set (p v evs) : delaySum (setEvent p v :: evs) = delaySum evs := by cases v <;> rfl
@[simp] theorem delaySum_write (cfg rs b) : delaySum (writeEvents cfg rs b) = 4 * cfg.tStrobe := by
  simp only [writeEvents, delaySum_set, delaySum]; omega
@[simp] theorem delaySum_read (cfg rs b) : delaySum (readEvents cfg rs b) = 4 * cfg.tStrobe := by
  simp only [readEvents, delaySum_set, delaySum]; omega
@[simp] theorem delaySum_polls (cfg) (bs : List Byte) : delaySum (pollEvents cfg bs) = 4 * bs.length * cfg.tStrobe := by
  induction bs with
  | nil => simp [pollEvents, delaySum]
  | cons b bs ih =>
    rw [pollEvents, List.flatMap_cons, ← pollEvents, delaySum_append, ih]; simp; ring
theorem delaySum_gate (cfg) (g : Gate) :
    delaySum (g.events cfg) = 4 * (g.polls.length + 2) * cfg.tStrobe + cfg.tSettle := by
  simp only [Gate.events, delaySum_append, delaySum_polls, delaySum_read, delaySum]; simp; ring

theorem busView_nil (lat : Bank Level) : busView lat [] = [] := rfl

theorem busView_write_last (cfg : Configuration) (rs : Bool) (b : Byte) (lat : Bank Level) : busView lat (writeEvents cfg rs b) = halvesOf [.write rs b] := by
  have := busView_write cfg rs b lat []
  simpa [busView_nil] using this
theorem busView_gate_last (cfg : Configuration) (g : Gate) (lat : Bank Level) : busView lat (g.events cfg) = halvesOf (statusReads g.bytes) := by
  have := busView_gate cfg g lat []
  simpa [busView_nil] using this

theorem busView_put (cfg : Configuration) (n : Nibble) (lat : Bank Level) (evs : List Event) (d : Nat) (h : lat.rs = .low ∧ lat.rw = .low ∧ lat.e = .low) :
    busView lat (putNibbleEvents cfg n ++ [.dly d] ++ evs) = .w false n :: busView (nibbleLatches n lat) evs := by
  obtain ⟨e, rs, rw_, a, b, c, d'⟩ := lat
  obtain ⟨h1, h2, h3⟩ := h
  simp only at h1 h2 h3
  subst h1 h2 h3
  have hb := nibbleOf_bits n
  simp [busView_eq, putNibbleEvents, strobesFrom, Strobe.half, latchedNibble]
  constructor
  · simpa using hb
  · simp [nibbleLatches]

theorem busView_reset (cfg : Configuration) (l : List (Nibble × Nat)) (lat : Bank Level) (evs : List Event) (h : lat.rs = .low ∧ lat.rw = .low ∧ lat.e = .low) :
    busView lat (resetEvents cfg l ++ evs) = l.map (fun x => .w false x.1) ++ busView (resetLatches lat l) evs := by
  induction l generalizing lat with
  | nil => rfl
  | cons x l ih =>
    rw [show resetEvents cfg (x :: l) ++ evs = putNibbleEvents cfg x.1 ++ [.dly x.2] ++ (resetEvents cfg l ++ evs) by simp [resetEvents], busView_put _ _ _ _ _ h, ih _ (by simpa [nibbleLatches] using h)]
    rfl

theorem busView_init (cfg : Configuration) (lat : Bank Level) (evs : List Event) :
    busView lat (initPinEvents cfg ++ evs) = cfg.resetSeq.map (fun x => .w false x.1) ++ busView (resetLatches { lat with e := .low, rs := .low, rw := .low } cfg.resetSeq) evs := by
  rw [initPinEvents, List.append_assoc]
  have : busView lat ([.out .e, .out .rs, .out .rw, .out .db7, .out .db6, .out .db5, .out .db4, .lo .e, .lo .rs, .lo .rw, .dly cfg.tPowerOn] ++ (resetEvents cfg cfg.resetSeq ++ evs))
     = busView { lat with e := .low, rs := .low, rw := .low } (resetEvents cfg cfg.resetSeq ++ evs) := by
    simp [busView_eq, strobesFrom]
  rw [this, busView_reset _ _ _ _ ⟨rfl, rfl, rfl⟩]

/-- The phase of a trace in two parts. -/
theorem strobePhaseAfter_append (tStrobe : Nat) (phase : StrobePhase) (evs evs' : List Event) :
    strobePhaseAfter tStrobe phase (evs ++ evs') =
      (strobePhaseAfter tStrobe phase evs).bind fun p => strobePhaseAfter tStrobe p evs' := by
  induction evs generalizing phase with
  | nil => rfl
  | cons ev evs ih =>
    simp only [List.cons_append, strobePhaseAfter]
    cases phase.after tStrobe ev with
    | none => rfl
    | some p => exact ih p

end Sys2Proof.Machine
end

