-- ==== Sys2Proof/Tests/Slice0.lean ====
section
/-! SUPPORT. Tests, with their expected results from `spec/95_test_vectors.md` and the tables of the rules, and for every
statement with hypotheses a witness that meets them. -/

namespace Sys2Proof.Tests

open Sys2Proof.Machine

/-! ### States -/

/-- The default configuration with a wiring that can be evaluated. -/
def testCfg : Configuration := { Config.default with wiring := ⟨0, 1, 2, 3, 4, 5, 6⟩, clkHz := 1000000 }

/-- The latches of the write-idle state. -/
def idleLatches : Bank Level := ⟨.low, .low, .low, .high, .high, .high, .high⟩

/-- An initialised block in the write-idle state, whose next status reads are answered with these bytes. -/
def ready (cfg : Configuration) (bytes : List Byte) : State :=
  { State.reset with cfg := cfg, dir := allPins .out, lat := idleLatches, answers := script bytes }

/-- The instruction answers a next state whose new events show the controller these transactions, are this many, and end
with this response. -/
def shows (i : Instr) (s : State) (view : List Transaction) (events : Nat) (r : Response) : Bool :=
  match exec i s with
  | .next t =>
    busView s.lat (t.trace.drop s.trace.length) == halvesOf view && t.trace.length == s.trace.length + events &&
      t.rsp == some r && t.seq == []
  | _ => false

def st (b : Byte) : Transaction := .read false b

def ok : Response := ⟨.ok, 0⟩

def withWrap : Configuration := { testCfg with wrap := true }

def withMaxPoll (n : Nat) : Configuration := { testCfg with maxPoll := some n }

/-! ### Well-formedness (rule R9) -/

theorem test_line_number_2_is_refused : (Instr.gotoxy 0 2).wellFormed = false := by decide

theorem test_line_numbers_0_and_1_are_accepted :
    (Instr.gotoxy 0xFF 0).wellFormed = true ∧ (Instr.gotoxy 0xFF 1).wellFormed = true := by decide

/-! ### Decoding: words from the tables of rules R81, R90, R97 and of section 2.9 -/

theorem test_decode_init : decodeTableWord 16 0x100C = some (.init 0x0C) := by decide
theorem test_decode_clear : decodeTableWord 16 0x2000 = some .clear := by decide
theorem test_decode_home : decodeTableWord 16 0x3000 = some .home := by decide
theorem test_decode_gotoxy : decodeTableWord 16 0x4105 = some (.gotoxy 5 1) := by decide
theorem test_decode_putc : decodeTableWord 16 0x5041 = some (.putc 0x41) := by decide
theorem test_decode_wrcmd : decodeTableWord 16 0x6001 = some (.wrcmd 0x01) := by decide
theorem test_decode_wrdata : decodeTableWord 16 0x70FF = some (.wrdata 0xFF) := by decide
theorem test_decode_rdstat : decodeTableWord 16 0x8000 = some .rdstat := by decide
theorem test_decode_bus_wi : decode (.cycle 0b00 0x28) = .instr (.busWi 0x28) := by decide
theorem test_decode_bus_wd : decode (.cycle 0b10 0x41) = .instr (.busWd 0x41) := by decide
theorem test_decode_bus_rs : decode (.cycle 0b01 0) = .instr .busRs := by decide
theorem test_decode_bus_rd : decode (.cycle 0b11 0) = .instr .busRd := by decide
theorem test_decode_lcd_clear : decodeTableWord 8 0b00000001 = some .lcdClear := by decide
theorem test_decode_lcd_home : decodeTableWord 8 0b00000010 = some .lcdHome := by decide
theorem test_decode_lcd_entry : decodeTableWord 8 0b00000110 = some .lcdEntry := by decide
theorem test_decode_lcd_display : decodeTableWord 8 0b00001100 = some (.lcdDisplay true false false) := by decide
theorem test_decode_lcd_function : decodeTableWord 8 0b00101000 = some .lcdFunction := by decide
theorem test_decode_lcd_setddram : decodeTableWord 8 0b11000101 = some (.lcdSetddram 0x45) := by decide

/-- The reserved words of section 2.9. -/
theorem test_decode_reserved :
    [0x0000, 0x2001, 0x5141, 0x4205, 0x9000, 0x8001].all (fun w => decodeTableWord 16 w == none) = true := by decide

/-! ### The bus (V1, V2, V5, V7) -/

/-- V1. -/
theorem test_bus_wd_v1 : (match exec (.busWd 0x41) (ready testCfg []) with
    | .next t => t.trace == [.hi .rs, .lo .rw, .out .db7, .out .db6, .out .db5, .out .db4, .lo .db7, .hi .db6, .lo .db5,
        .lo .db4, .hi .e, .dly 1, .lo .e, .dly 1, .lo .db7, .lo .db6, .lo .db5, .hi .db4, .hi .e, .dly 1, .lo .e, .dly 1,
        .hi .db7, .hi .db6, .hi .db5, .hi .db4] && t.dreg == 0x41 && t.lat.rs == .high
    | _ => false) = true := by decide +kernel

/-- V2. -/
theorem test_bus_wi_v2 : shows (.busWi 0x28) (ready testCfg []) [.write false 0x28] 26 ok = true := by decide +kernel

/-- V5. -/
theorem test_bus_rs_v5 : (match exec .busRs (ready testCfg [0x85]) with
    | .next t => t.trace == [.lo .rs, .inp .db7, .inp .db6, .inp .db5, .inp .db4, .hi .rw, .hi .e, .dly 1, .rd .db7 true,
        .rd .db6 false, .rd .db5 false, .rd .db4 false, .lo .e, .dly 1, .hi .e, .dly 1, .rd .db7 false, .rd .db6 true,
        .rd .db5 false, .rd .db4 true, .lo .e, .dly 1] && t.sreg == 0x85 && t.lat.db7 == .high && t.dir.db7 == .inp
    | _ => false) = true := by decide +kernel

/-- V7 on V5's answers. -/
theorem test_bus_rd_v7 : shows .busRd (ready testCfg [0x85]) [.read true 0x85] 22 ok = true := by decide +kernel

/-! ### Controller bytes (rule R90) -/

theorem test_lcd_clear : shows .lcdClear (ready testCfg []) [.write false 0x01] 26 ok = true := by decide +kernel
theorem test_lcd_home : shows .lcdHome (ready testCfg []) [.write false 0x02] 26 ok = true := by decide +kernel
theorem test_lcd_entry : shows .lcdEntry (ready testCfg []) [.write false 0x06] 26 ok = true := by decide +kernel
theorem test_lcd_display : shows (.lcdDisplay true false true) (ready testCfg []) [.write false 0x0D] 26 ok = true := by
  decide +kernel
theorem test_lcd_function : shows .lcdFunction (ready testCfg []) [.write false 0x28] 26 ok = true := by decide +kernel
theorem test_lcd_setddram : shows (.lcdSetddram 0x40) (ready testCfg []) [.write false 0xC0] 26 ok = true := by decide +kernel

/-! ### The gate and the gated operations (V8, V10, V12, V13) -/

/-- V8: busy twice, ready, and the answer is the re-read's. -/
theorem test_rdstat_v8 : shows .rdstat (ready testCfg [0x80, 0x80, 0x05, 0x06]) [st 0x80, st 0x80, st 0x05, st 0x06] 89
    ⟨.ok, 0x06⟩ = true := by decide +kernel

/-- V10: a re-read that shows busy is the answer; V12: `MAX_POLL` 3, at its limit and past it. -/
theorem test_rdstat_v10_v12 :
    (shows .rdstat (ready testCfg [0x00, 0x90]) [st 0x00, st 0x90] 45 ⟨.ok, 0x90⟩ &&
      shows .rdstat (ready (withMaxPoll 3) [0x80, 0x80, 0x00, 0x07]) [st 0x80, st 0x80, st 0x00, st 0x07] 89
        ⟨.ok, 0x07⟩ &&
      shows .rdstat (ready (withMaxPoll 3) [0x80, 0x80, 0x80]) [st 0x80, st 0x80, st 0x80] 66 ⟨.notReady, 0⟩) = true := by
  decide +kernel

/-- V13. -/
theorem test_wrcmd_v13 : shows (.wrcmd 0x01) (ready testCfg [0, 0]) [st 0, st 0, .write false 0x01] 71 ok = true := by
  decide +kernel

/-- V13b: the newline code is sent as data. -/
theorem test_wrdata_v13b : shows (.wrdata 0x0A) (ready testCfg [0, 0]) [st 0, st 0, .write true 0x0A] 71 ok = true := by
  decide +kernel

/-! ### The text interface -/

/-- P1: `clear` on a controller that is busy twice. -/
theorem test_clear_p1 : shows .clear (ready testCfg [0x80, 0x80, 0, 0])
    [st 0x80, st 0x80, st 0, st 0, .write false 0x01] 115 ok = true := by decide +kernel

theorem test_home : shows .home (ready testCfg [0, 0]) [st 0, st 0, .write false 0x02] 71 ok = true := by decide +kernel

/-- Section 2.6: the second line, and the sum that loses its carry. -/
theorem test_gotoxy_sums :
    (shows (.gotoxy 5 1) (ready testCfg [0, 0]) [st 0, st 0, .write false 0xC5] 71 ok &&
      shows (.gotoxy 0xC0 1) (ready testCfg [0, 0]) [st 0, st 0, .write false 0x80] 71 ok) = true := by decide +kernel

/-- Section 2.6, `gotoxy 16, 0` with `CHECK_BOUNDS`; P4: `gotoxy 3, 1` times out. -/
theorem test_gotoxy_failures :
    (shows (.gotoxy 16 0) (ready { testCfg with checkBounds := true } [0, 0]) [] 0 ⟨.invalidAddress, 0⟩ &&
      shows (.gotoxy 3 1) (ready (withMaxPoll 3) [0x80, 0x80, 0x80]) [st 0x80, st 0x80, st 0x80] 66
        ⟨.notReady, 0⟩) = true := by decide +kernel

/-- V15, V16, V24: the threshold of the newline, on the address bits alone. -/
theorem test_putc_newline :
    (shows (.putc 0x0A) (ready testCfg [0, 0x3F, 0, 0]) [st 0, st 0x3F, st 0, st 0, .write false 0xC0] 116 ok &&
      shows (.putc 0x0A) (ready testCfg [0, 0x40, 0, 0]) [st 0, st 0x40, st 0, st 0, .write false 0x80] 116 ok &&
      shows (.putc 0x0A) (ready testCfg [0, 0x85, 0, 0]) [st 0, st 0x85, st 0, st 0, .write false 0xC0] 116 ok) = true := by
  decide +kernel

/-- V19, V20, V21, V23: the wrap boundary. -/
theorem test_putc_wrap :
    (shows (.putc 0x51) (ready withWrap [0, 0x50, 0, 0]) [st 0, st 0x50, .write false 0x80, st 0, st 0, .write true 0x51]
        142 ok &&
      shows (.putc 0x51) (ready withWrap [0, 0x0F]) [st 0, st 0x0F, .write true 0x51] 71 ok &&
      shows (.putc 0x51) (ready testCfg [0, 0x10]) [st 0, st 0x10, .write true 0x51] 71 ok &&
      shows (.putc 0x51) (ready withWrap [0, 0x90, 0, 0]) [st 0, st 0x90, .write false 0xC0, st 0, st 0,
        .write true 0x51] 142 ok) = true := by decide +kernel

/-- V22: `print "AB"`. -/
theorem test_print_v22 : (match execPrint [0x41, 0x42] (ready testCfg [0, 0, 0, 1]) with
    | .next t => busView idleLatches t.trace == halvesOf [st 0, st 0, .write true 0x41, st 0, st 1, .write true 0x42] &&
        t.trace.length == 142
    | _ => false) = true := by decide +kernel

/-- Rule R173: the text waits while its first character runs, and is dropped after a `NotReady`. -/
theorem test_print_waits : (match execPrint [0x41, 0x42] (ready testCfg [0]), execPrint [0x41, 0x42] (ready (withMaxPoll 1) [0x80]) with
    | .next t, .next u => t.text == [0x42] && t.seq == [⟨.printChar 0x41, 0⟩] && u.text == [] && u.rsp == some ⟨.notReady, 0⟩
    | _, _ => false) = true := by decide +kernel

/-- V28: `init` from reset with `MAX_POLL` 2 and a controller that never gets ready. -/
theorem test_init_v28 : (match exec (.init 0x0C) { State.reset with cfg := withMaxPoll 2, answers := script [0xFF, 0xFF] } with
    | .next t => busView (allPins .unspecified) t.trace ==
        [.w false 3, .w false 3, .w false 3, .w false 2] ++ halvesOf [st 0xFF, st 0xFF] && t.trace.length == 91 &&
        t.rsp == some ⟨.notReady, 0⟩ && t.lat.rw == .high && t.dir.db4 == .inp
    | _ => false) = true := by decide +kernel

/-! ### Witnesses: for each statement with hypotheses, states and operands that meet all of them -/

/-- A running block with these frames. -/
def running (cfg : Configuration) (frames : List Frame) (bytes : List Byte) : State :=
  { ready cfg bytes with seq := frames }

theorem witness_StepRunsDecodedCommand :
    (State.reset.present (.cw 0x2000)).seq = [] ∧ (State.reset.present (.cw 0x2000)).text = [] ∧
    (State.reset.present (.cw 0x2000)).cmds = .cw 0x2000 :: [] ∧
    decode (.cw 0x2000) = .instr .clear ∧ decodeTableWord 16 0x2000 = some .clear := by
  refine ⟨rfl, rfl, rfl, ?_, ?_⟩ <;> decide

theorem witness_IdleBlockHoldsState : State.reset.seq = [] ∧ State.reset.text = [] ∧ State.reset.cmds = [] :=
  ⟨rfl, rfl, rfl⟩

theorem witness_BusyBlockTakesNoCommand :
    (running testCfg [⟨.clear, 0⟩] []).seq ≠ [] ∧ ∃ t, step (running testCfg [⟨.clear, 0⟩] []) = .next t :=
  ⟨by simp [running], _, rfl⟩

/-- One state for each clause: an event inside, a driven bit, a sampled bit, an event that ends a read for `WaitReady` and one
that ends it, through `WaitReady`, for `PrintChar`, an event that ends everything, step G0, and the two calls. -/
theorem witness_SequencerAdvancesOneStep :
    (stepOf testCfg (.writeByte true 0x41) 0 = some (.event (.hi .rs)) ∧
      Frame.live testCfg (Frame.next ⟨.writeByte true 0x41, 0⟩) = true) ∧
    (stepOf testCfg (.writeByte true 0x41) 6 = some (.drive .db7 7) ∧
      Frame.live testCfg (Frame.next ⟨.writeByte true 0x41, 6⟩) = true) ∧
    (stepOf testCfg (.readByte false) 19 = some (.sample .db4 0) ∧
      Frame.live testCfg (Frame.next ⟨.readByte false, 19⟩) = true) ∧
    (stepOf testCfg (.readByte false) 21 = some (.event (.dly 1)) ∧
      Frame.live testCfg (Frame.next ⟨.readByte false, 21⟩) = false ∧
      Frame.live testCfg (Frame.next ⟨.waitReady, 1⟩) = true) ∧
    (Frame.live testCfg (Frame.next ⟨.waitReady, 4⟩) = false ∧
      Frame.live testCfg (Frame.next ⟨.printChar 0x41, 0⟩) = true) ∧
    (stepOf testCfg (.writeByte false 1) 25 = some (.event (.hi .db4)) ∧
      (∀ x ∈ [(⟨.writeByte false 1, 25⟩ : Frame), ⟨.writeCommand 1, 1⟩, ⟨.clear, 0⟩],
        x.next.live testCfg = false) ∧
      [(⟨.writeByte false 1, 25⟩ : Frame), ⟨.writeCommand 1, 1⟩, ⟨.clear, 0⟩].getLast? = some ⟨.clear, 0⟩) ∧
    ((running testCfg [⟨.waitReady, 0⟩, ⟨.readStatus, 0⟩] []).seq = ⟨.waitReady, 0⟩ :: [⟨.readStatus, 0⟩] ∧
      testCfg.maxPoll = none ∧ (withMaxPoll 2).maxPoll = some 2) ∧
    (stepOf testCfg (.writeCommand 1) 1 = some (.call (.writeByte false 1)) ∧
      stepOf testCfg (.writeCommand 1) 0 = some (.call .waitReady)) := by decide

theorem witness_BranchesFollowTheirTests :
    ((running testCfg [⟨.waitReady, 2⟩] []).seq = ⟨.waitReady, 2⟩ :: [] ∧ busyFlag 0x7F = false ∧
      busyFlag 0x80 = true ∧ testCfg.maxPoll = none ∧ (withMaxPoll 2).maxPoll = some 2 ∧
      (0 : Nat) + 1 ≠ 2 ∧ (1 : Nat) + 1 = 2) ∧
    ((running testCfg [⟨.gotoXY 16 0, 0⟩] []).seq = ⟨.gotoXY 16 0, 0⟩ :: [] ∧
      { testCfg with checkBounds := true }.checkBounds = true ∧ testCfg.lineLength ≤ (16 : Byte).toNat ∧
      (15 : Byte).toNat < testCfg.lineLength ∧ testCfg.checkBounds = false) ∧
    (running testCfg [⟨.printChar 0x0A, 1⟩] []).seq = ⟨.printChar 0x0A, 1⟩ :: [] ∧
    (running testCfg [⟨.printChar 0x0A, 13⟩] []).seq = ⟨.printChar 0x0A, 13⟩ :: [] ∧
    (running withWrap [⟨.printChar 0x41, 2⟩] []).seq = ⟨.printChar 0x41, 2⟩ :: [] ∧
    (currentAddress 0x10).toNat = withWrap.line1Base.toNat + withWrap.lineLength ∧
    (currentAddress 0x50).toNat = withWrap.line2Base.toNat + withWrap.lineLength := by decide

/-- One reserved word of each kind, presented, and the least and the greatest of the legal ones. -/
theorem witness_ReservedWordsAreRefused :
    (State.reset.present (.cw 0x0000)).seq = [] ∧ (State.reset.present (.cw 0x0000)).text = [] ∧
    (State.reset.present (.cw 0x0000)).cmds = .cw 0x0000 :: [] ∧ reservedWord 0x0000 ∧ reservedWord 0x9000 ∧ reservedWord 0xF0FF ∧ reservedWord 0x4205 ∧ reservedWord 0x5141 ∧
    reservedWord 0x8001 ∧ ¬ reservedWord 0x1000 ∧ ¬ reservedWord 0x41FF ∧ ¬ reservedWord 0x8000 := by
  refine ⟨rfl, rfl, rfl, ?_⟩
  simp [reservedWord, CommandWord.op, CommandWord.zero, CommandWord.row, CommandWord.arg]

theorem witness_DecodeOfEncodeIsIdentity : (Instr.gotoxy 0xFF 1).wellFormed = true := by decide

theorem witness_EncodeOfDecodeIsIdentity :
    decode (.cw 0x41FF) = .instr (.gotoxy 0xFF 1) ∧ decode (.cycle 1 0) = .instr .busRs ∧
    decode (.lcdi 0x0F) = .instr (.lcdDisplay true true true) := by decide

theorem witness_EncodingHitsExactlyItsRow :
    Instr.rdstat.wellFormed = true ∧ ⟨"RDSTAT", 16, 0xFFFF, 0x8000⟩ ∈ opcodeTable := by decide

theorem witness_WriteTransactionsComplete : (ready testCfg []).seq = [] := rfl

theorem witness_WriteByteSplitsItsByte : (ready testCfg []).seq = [] := rfl

theorem witness_ReadTransactionsComplete : (ready testCfg [0x85]).seq = [] ∧ State.reset.seq = [] := ⟨rfl, rfl⟩

theorem witness_ReadByteJoinsItsNibbles : (ready testCfg [0x85]).seq = [] := rfl

/-- The levels a write of 0xA5 shows are the answers of the state that reads next. -/
theorem witness_LoopbackReadReturnsWrittenByte :
    (ready testCfg []).seq = [] ∧ (ready testCfg [0xA5]).seq = [] ∧
    (ready testCfg [0xA5]).answers = shownLevels idleLatches (writeEvents testCfg true 0xA5) ++ [] := by decide

theorem witness_ControllerBytesAreWritten : (ready testCfg []).seq = [] := rfl

/-- A gate with two busy polls. -/
def busyGate : Gate := ⟨[0x80, 0x80], 0x05, 0x06⟩

theorem witness_StatusReadReturnsReread :
    (ready testCfg busyGate.bytes).seq = [] ∧ (ready testCfg busyGate.bytes).answers = script busyGate.bytes ++ [] ∧
    busyGate.opens testCfg = true ∧ (ready (withMaxPoll 3) busyGate.bytes).answers = script busyGate.bytes ++ [] ∧
    busyGate.opens (withMaxPoll 3) = true := by decide

theorem witness_GateTraceAndResult :
    (ready testCfg busyGate.bytes).answers = script busyGate.bytes ++ [] ∧ busyGate.opens testCfg = true ∧
    testCfg.tStrobe = 1 ∧ testCfg.tSettle = 2 := by decide

theorem witness_GateTimesOutExactlyAfterMaxPoll :
    (withMaxPoll 1).maxPoll = some 1 ∧ 1 ≤ 1 ∧ (ready (withMaxPoll 1) [0x80]).answers = script [0x80] ++ [] ∧
    [(0x80 : Byte)].length = 1 ∧ [0x80].all busyFlag = true ∧ (ready testCfg []).cfg.maxPoll = none ∧
    ∃ k t, waitReady (ready (withMaxPoll 1) [0x80]) = .failed k t :=
  ⟨rfl, by decide, by decide, rfl, by decide, rfl, _, _, rfl⟩

theorem witness_GatedWritesComplete :
    (ready testCfg busyGate.bytes).seq = [] ∧ (ready testCfg busyGate.bytes).answers = script busyGate.bytes ++ [] ∧
    busyGate.opens testCfg = true := by decide

theorem witness_GatedWriteTraceIsCounted :
    (ready testCfg busyGate.bytes).seq = [] ∧ (ready testCfg busyGate.bytes).answers = script busyGate.bytes ++ [] ∧
    busyGate.opens testCfg = true := by decide

theorem witness_ClearAndHomeComplete :
    (ready testCfg busyGate.bytes).seq = [] ∧ (ready testCfg busyGate.bytes).answers = script busyGate.bytes ++ [] ∧
    busyGate.opens testCfg = true := by decide

/-- The check off with a column past the line, and on with the last column. -/
theorem witness_GotoxySendsBasePlusColumn :
    (ready testCfg busyGate.bytes).seq = [] ∧ (ready testCfg busyGate.bytes).answers = script busyGate.bytes ++ [] ∧
    busyGate.opens testCfg = true ∧ testCfg.checkBounds = false ∧ (15 : Byte).toNat < testCfg.lineLength := by decide

theorem witness_GotoxyBoundsCheck :
    (ready { testCfg with checkBounds := true } []).seq = [] ∧ { testCfg with checkBounds := true }.checkBounds = true ∧
    testCfg.lineLength ≤ (16 : Byte).toNat ∧
    (∃ t, exec (.gotoxy 16 1) (ready { testCfg with checkBounds := true } []) = .next t ∧
      t.rsp = some ⟨.invalidAddress, 0⟩) ∧
    testCfg.checkBounds = false ∧ (ready testCfg busyGate.bytes).answers = script busyGate.bytes ++ [] ∧
    busyGate.opens testCfg = true ∧ decode (.cw 0x41FF) = .instr (.gotoxy 0xFF 1) :=
  ⟨rfl, rfl, by decide, ⟨_, rfl, rfl⟩, rfl, by decide, by decide, by decide⟩

/-- Wrap off, and wrap on next to each boundary. -/
theorem witness_PutcWritesPlainCharacter :
    (ready withWrap [0, 0x0F]).seq = [] ∧ (ready withWrap [0, 0x0F]).answers = script (readyGate 0 0x0F).bytes ++ [] ∧
    (readyGate 0 0x0F).opens withWrap = true ∧ (0x41 : Byte) ≠ withWrap.chNewline ∧ testCfg.wrap = false ∧
    (currentAddress 0x0F).toNat ≠ withWrap.line1Base.toNat + withWrap.lineLength ∧
    (currentAddress 0x0F).toNat ≠ withWrap.line2Base.toNat + withWrap.lineLength ∧
    (currentAddress 0x51).toNat ≠ withWrap.line1Base.toNat + withWrap.lineLength ∧
    (currentAddress 0x51).toNat ≠ withWrap.line2Base.toNat + withWrap.lineLength := by decide

theorem witness_PutcNewlineTogglesLine :
    (ready testCfg [0, 0x3F, 0, 0]).seq = [] ∧
    (ready testCfg [0, 0x3F, 0, 0]).answers = script ((readyGate 0 0x3F).bytes ++ (readyGate 0 0).bytes) ++ [] ∧
    (readyGate 0 0x3F).opens testCfg = true ∧ (readyGate 0 0).opens testCfg = true := by decide

theorem witness_PutcWrapsAtLineEnd :
    (ready withWrap [0, 0x10, 0, 0]).seq = [] ∧
    (ready withWrap [0, 0x10, 0, 0]).answers = script ((readyGate 0 0x10).bytes ++ (readyGate 0 0).bytes) ++ [] ∧
    (readyGate 0 0x10).opens withWrap = true ∧ (readyGate 0 0).opens withWrap = true ∧
    (0x41 : Byte) ≠ withWrap.chNewline ∧ withWrap.wrap = true ∧
    (currentAddress 0x10).toNat = withWrap.line1Base.toNat + withWrap.lineLength ∧
    (ready withWrap [0, 0x50, 0, 0]).answers = script ((readyGate 0 0x50).bytes ++ (readyGate 0 0).bytes) ++ [] ∧
    (readyGate 0 0x50).opens withWrap = true ∧
    (currentAddress 0x50).toNat ≠ withWrap.line1Base.toNat + withWrap.lineLength ∧
    (currentAddress 0x50).toNat = withWrap.line2Base.toNat + withWrap.lineLength := by decide

theorem witness_PutcFollowsItsTable :
    (ready (defaultWithWrap true) [0, 0x10, 0, 0]).seq = [] ∧
    (ready (defaultWithWrap true) [0, 0x10, 0, 0]).cfg = defaultWithWrap true ∧
    (ready (defaultWithWrap true) [0, 0x10, 0, 0]).answers =
      script ((readyGate 0 0x10).bytes ++ (readyGate 0 0).bytes) ++ [] ∧
    (readyGate 0 0x10).opens (defaultWithWrap true) = true ∧ (readyGate 0 0).opens (defaultWithWrap true) = true :=
  ⟨rfl, rfl, by decide, by decide, by decide⟩

theorem witness_InitRunsFourGatedCommands :
    State.reset.seq = [] ∧ (ready testCfg (busyGate.bytes ++ busyGate.bytes ++ busyGate.bytes ++ busyGate.bytes)).answers =
      script (busyGate.bytes ++ busyGate.bytes ++ busyGate.bytes ++ busyGate.bytes) ++ [] ∧
    busyGate.opens testCfg = true :=
  ⟨rfl, by decide, by decide⟩

theorem witness_InitOnReadyController :
    (ready Config.default [0, 0, 0, 0, 0, 0, 0, 0]).seq = [] ∧
    (ready Config.default [0, 0, 0, 0, 0, 0, 0, 0]).cfg = Config.default ∧
    (ready Config.default [0, 0, 0, 0, 0, 0, 0, 0]).answers = script [0, 0, 0, 0, 0, 0, 0, 0] ++ [] ∧
    busyFlag 0 = false :=
  ⟨rfl, rfl, by decide, by decide⟩

/-- A write and a read on pins as `INIT` left them, and `INIT` on any. -/
theorem witness_CompletedOperationsLeavePinsIdle :
    (ready testCfg [0, 0]).seq = [] ∧
    ((ready testCfg [0, 0]).dir.e = .out ∧ (ready testCfg [0, 0]).dir.rs = .out ∧ (ready testCfg [0, 0]).dir.rw = .out) ∧
    (∃ t d, exec (.wrcmd 1) (ready testCfg [0, 0]) = .next t ∧ t.rsp = some ⟨.ok, d⟩ ∧ endsInRead (.wrcmd 1) = false) ∧
    (∃ t d, exec .rdstat (ready testCfg [0, 0]) = .next t ∧ t.rsp = some ⟨.ok, d⟩ ∧ endsInRead .rdstat = true) ∧
    ∃ t d, exec (.init 0x0C) { ready testCfg [0, 0, 0, 0, 0, 0, 0, 0] with dir := allPins .unspecified } = .next t ∧
      t.rsp = some ⟨.ok, d⟩ :=
  ⟨rfl, ⟨rfl, rfl, rfl⟩, ⟨_, _, rfl, rfl, rfl⟩, ⟨_, _, rfl, rfl, rfl⟩, ⟨_, _, rfl, rfl⟩⟩

theorem witness_NotReadyLeavesPinsReadIdle :
    (ready (withMaxPoll 1) [0x80]).seq = [] ∧
    ((ready (withMaxPoll 1) [0x80]).dir.e = .out ∧ (ready (withMaxPoll 1) [0x80]).dir.rs = .out ∧
      (ready (withMaxPoll 1) [0x80]).dir.rw = .out) ∧
    ∃ t d, exec .clear (ready (withMaxPoll 1) [0x80]) = .next t ∧ t.rsp = some ⟨.notReady, d⟩ :=
  ⟨rfl, ⟨rfl, rfl, rfl⟩, ⟨_, _, rfl, rfl⟩⟩

theorem witness_FirstGateTimeoutEndsOperation :
    (ready (withMaxPoll 2) [0x80, 0xFF]).seq = [] ∧ (withMaxPoll 2).maxPoll = some [(0x80 : Byte), 0xFF].length ∧
    [(0x80 : Byte), 0xFF] ≠ [] ∧ [0x80, 0xFF].all busyFlag = true ∧
    (ready (withMaxPoll 2) [0x80, 0xFF]).answers = script [0x80, 0xFF] ++ [] ∧
    gatedFirst (.gotoxy 0xFF 1) = true ∧ passesBounds (withMaxPoll 2) (.gotoxy 0xFF 1) = true := by decide

/-- The boundaries of the wrap clauses are those of `witness_PutcWrapsAtLineEnd`. -/
theorem witness_LaterGateTimeoutEndsOperation :
    (ready (withMaxPoll 1) [0, 0, 0x80]).seq = [] ∧ (withMaxPoll 1).maxPoll = some [(0x80 : Byte)].length ∧
    [(0x80 : Byte)] ≠ [] ∧ [0x80].all busyFlag = true ∧ (readyGate 0 0).opens (withMaxPoll 1) = true ∧
    (ready (withMaxPoll 1) [0, 0, 0x80]).answers = script ((readyGate 0 0).bytes ++ [0x80]) ++ [] ∧
    (0x41 : Byte) ≠ (withMaxPoll 1).chNewline ∧ { withMaxPoll 1 with wrap := true }.wrap = true ∧
    (readyGate 0 0x10).opens { withMaxPoll 1 with wrap := true } = true ∧
    (readyGate 0 0x50).opens { withMaxPoll 1 with wrap := true } = true ∧
    (ready (withMaxPoll 1) [0, 0, 0, 0, 0x80]).answers =
      script ((readyGate 0 0).bytes ++ (readyGate 0 0).bytes ++ [0x80]) ++ [] ∧
    (ready (withMaxPoll 1) [0, 0, 0, 0, 0, 0, 0x80]).answers =
      script ((readyGate 0 0).bytes ++ (readyGate 0 0).bytes ++ (readyGate 0 0).bytes ++ [0x80]) ++ [] := by decide

/-- An idle block with a text waiting, after this response. -/
def printing (r : Response) : State := { ready testCfg [] with text := [0x42], rsp := some r }

/-- A character that ends well, one that fails, one that only starts, a text of two plain characters, and a text waiting. -/
theorem witness_PrintSendsCharactersInOrder :
    (∃ t d, exec (.putc 0x41) (ready testCfg [0, 0]) = .next t ∧ t.seq = [] ∧ t.rsp = some ⟨.ok, d⟩) ∧
    (∃ t d, exec (.putc 0x41) (ready (withMaxPoll 1) [0x80]) = .next t ∧ t.rsp = some ⟨.notReady, d⟩) ∧
    (ready testCfg [0, 0, 0, 1]).seq = [] ∧
    (∀ x ∈ [((0x41 : Byte), readyGate 0 0), (0x42, readyGate 0 1)], x.1 ≠ testCfg.chNewline ∧
      wrapCase testCfg (currentAddress x.2.reread) = .noWrap ∧ x.2.opens testCfg = true) ∧
    (ready testCfg [0, 0, 0, 1]).answers =
      script ([((0x41 : Byte), readyGate 0 0), (0x42, readyGate 0 1)].flatMap fun x => x.2.bytes) ++ [] ∧
    (∃ t, exec (.putc 0x41) (ready testCfg [0]) = .next t ∧ t.seq ≠ []) ∧
    ((running testCfg [⟨.printChar 0x41, 0⟩] []).seq ≠ [] ∧
      ∃ t, step (running testCfg [⟨.printChar 0x41, 0⟩] []) = .next t) ∧
    ((printing ok).seq = [] ∧ (printing ok).text = 0x42 :: [] ∧ (printing ok).rsp = some ok ∧ ok.code = .ok) ∧
    (printing ⟨.notReady, 0⟩).rsp = some ⟨.notReady, 0⟩ ∧ Code.notReady ≠ .ok :=
  ⟨⟨_, _, rfl, rfl, rfl⟩, ⟨_, _, rfl, rfl⟩, rfl, by decide, by decide, ⟨_, rfl, by decide⟩, ⟨by decide, _, rfl⟩,
    ⟨rfl, rfl, rfl, rfl⟩, rfl, by decide⟩

theorem witness_BusyPollsNeverPassTheGate :
    (running testCfg [⟨.waitReady, 1⟩, ⟨.readStatus, 0⟩] [0x80, 0xFF]).seq = ⟨.waitReady, 1⟩ :: [⟨.readStatus, 0⟩] ∧
    testCfg.maxPoll = none ∧
    (running testCfg [⟨.waitReady, 1⟩, ⟨.readStatus, 0⟩] [0x80, 0xFF]).answers = script [0x80, 0xFF] ++ [] ∧
    [0x80, 0xFF].all busyFlag = true := by decide

/-- No answer at all, as at reset; and an answer for the ready poll but none for the re-read. -/
theorem witness_UnansweredGateStartsSequencer :
    State.reset.seq = [] ∧ gatedFirst .clear = true ∧ passesBounds Config.default .clear = true ∧
    passesBounds Config.default (.init 0x0C) = true ∧
    State.reset.answers = script [] ++ [] ∧ ([] : List Byte).all busyFlag = true ∧
    allowsPolls Config.default 0 = true ∧ ([] : List Bool).length < 8 ∧
    (ready testCfg [0x80, 0x05]).answers = script [0x80] ++ bitsOf 0x05 ∧ bitsOf 0x05 = bitsOf 0x05 ++ [] ∧
    busyFlag 0x05 = false ∧ allowsPolls testCfg 1 = true :=
  ⟨rfl, rfl, rfl, rfl, rfl, rfl, rfl, by decide, by decide, by decide, by decide, by decide⟩

theorem witness_SequencerReachesTheSameEnd :
    (ready testCfg [0, 0]).seq = [] ∧ ∃ t, exec .clear (ready testCfg [0, 0]) = .next t ∧ t.seq = [] :=
  ⟨rfl, _, rfl, rfl⟩

/-- A block inside the second strobe of a read, under a gate, as a run leaves it. -/
def inRead : State :=
  { running testCfg [⟨.readByte false, 17⟩, ⟨.waitReady, 1⟩, ⟨.readStatus, 0⟩] [] with
    dir := dataPins (allPins .out) .inp
    lat := { idleLatches with e := .high, rw := .high } }

theorem inRead_inv : inRead.Inv where
  stack := by decide
  enable := by constructor <;> intro <;> rfl
  pins := ⟨fun _ => rfl, fun _ => rfl, fun _ => rfl, fun _ => rfl, fun _ => rfl, fun _ => rfl⟩

theorem witness_StepKeepsInvariant : inRead.Inv ∧ ∃ t, step inRead = .next t := ⟨inRead_inv, _, rfl⟩

theorem witness_InvariantStatesRunForever : inRead.Inv := inRead_inv

theorem witness_SequencerHasAtMostFourFrames : inRead.Inv := inRead_inv

theorem witness_StrobeHoldsPinsStill : inRead.Inv ∧ inRead.lat.e = .high ∧ ∃ t, step inRead = .next t :=
  ⟨inRead_inv, rfl, _, rfl⟩

theorem witness_BlockNeverDrivesAgainstController : inRead.Inv ∧ inRead.lat.e = .high := ⟨inRead_inv, rfl⟩

theorem witness_SamplesAreTakenInsideReadStrobes :
    inRead.Inv ∧ inRead.seq ≠ [] ∧ ∃ t v, step inRead = .next t ∧ t.trace = inRead.trace ++ [.rd .db6 v] :=
  ⟨inRead_inv, by decide, _, _, rfl, rfl⟩

theorem witness_StepKeepsConfigurationAndControlPins :
    (∃ t, step inRead = .next t) ∧ inRead.dir.e = .out ∧ inRead.dir.rs = .out ∧ inRead.dir.rw = .out :=
  ⟨⟨_, rfl⟩, rfl, rfl, rfl⟩

theorem witness_EveryInstructionKeepsItsFrame :
    (∃ t, exec .rdstat (ready testCfg [0, 0]) = .next t) ∧ (∀ ch, Instr.rdstat ≠ .putc ch) ∧
    endsInRead .rdstat = true ∧ plainWrite (.busWi 0) = true ∧ testCfg.maxPoll = none ∧ ∀ a, Instr.rdstat ≠ .init a :=
  ⟨⟨_, rfl⟩, (by intro _ h; cases h), rfl, rfl, rfl, (by intro _ h; cases h)⟩

/-- Two states that differ in pins and registers. -/
theorem witness_OperationDependsOnlyOnAnswers :
    (ready testCfg [0, 0]).seq = [] ∧ { ready testCfg [0, 0] with lat := allPins .unspecified, sreg := 0xFF }.seq = [] ∧
    (∃ t, exec .rdstat (ready testCfg [0, 0]) = .next t) ∧
    ∃ t, exec .rdstat { ready testCfg [0, 0] with lat := allPins .unspecified, sreg := 0xFF } = .next t :=
  ⟨rfl, rfl, ⟨_, rfl⟩, ⟨_, rfl⟩⟩

/-- A response at once, one at a step of the sequencer, and a reserved word. -/
theorem witness_ResponsesFollowTheirFormat :
    (∃ t r, exec .rdstat (ready testCfg [0, 5]) = .next t ∧ t.rsp = some r) ∧
    testCfg.maxPoll = none ∧ testCfg.checkBounds = false ∧
    ((running testCfg [⟨.readByte false, 21⟩, ⟨.waitReady, 4⟩, ⟨.readStatus, 0⟩] []).seq ≠ [] ∧
      ∃ t, step (running testCfg [⟨.readByte false, 21⟩, ⟨.waitReady, 4⟩, ⟨.readStatus, 0⟩] []) = .next t ∧
        t.seq = []) ∧
    ((State.reset.present (.cw 0)).seq = [] ∧ (State.reset.present (.cw 0)).text = [] ∧
      (State.reset.present (.cw 0)).cmds = .cw 0 :: [] ∧ decode (.cw 0) = .reject .reservedOp) :=
  ⟨⟨_, _, rfl, rfl⟩, rfl, rfl, ⟨by decide, _, rfl, rfl⟩, rfl, rfl, rfl, by decide⟩

theorem witness_StrobesKeepTheirShape :
    (ready testCfg []).seq = [] ∧ ∃ t evs, exec (.busWd 0x41) (ready testCfg []) = .next t ∧
      t.trace = (ready testCfg []).trace ++ evs :=
  ⟨rfl, _, writeEvents testCfg true 0x41, rfl, rfl⟩

theorem witness_EveryCommandGatesItsWrites :
    encode (.wrcmd 1) = .cw 0x6001 ∧ (ready testCfg [0, 0]).seq = [] ∧ ∃ t evs,
      exec (.wrcmd 1) (ready testCfg [0, 0]) = .next t ∧ t.trace = (ready testCfg [0, 0]).trace ++ evs :=
  ⟨by decide, rfl, _, _, rfl, rfl⟩

/-- Held answers that are those the draws would give. -/
theorem witness_HeldAndDrawnAnswersStepAlike :
    inRead.seq ≠ [] ∧ inRead.SameAhead { inRead with answers := [Config.rdLevel 0] } ∧ ∃ t, step inRead = .next t := by
  refine ⟨by decide, ⟨rfl, fun k => ?_⟩, _, rfl⟩
  cases k <;> rfl

/-- A bare read on a drawn level and on the same level held. -/
theorem witness_SequencerEndsOnDrawnAnswers :
    (ready testCfg []).seq = [] ∧ (ready testCfg []).SameAhead { ready testCfg [] with answers := [Config.rdLevel 0] } ∧
    ∃ t, exec .busRs { ready testCfg [] with answers := [Config.rdLevel 0] } = .next t ∧ t.seq = [] := by
  refine ⟨rfl, ⟨rfl, fun k => ?_⟩, _, rfl, rfl⟩
  cases k <;> rfl

/-- A block that has passed a gate and stands at its write. -/
def atWrite (frames : List Frame) (written : List Event) : State :=
  { running testCfg frames [] with
    dir := dataPins (allPins .out) .inp
    lat := readLatches false idleLatches
    sreg := 0x05
    trace := gateEnd testCfg 0x00 0x05 ++ written }

/-- The gate invariant of a frame behind the gate. -/
theorem atWrite_gateOk : (atWrite [⟨.writeCommand 1, 1⟩] []).GateOk where
  polling := by intro _ _ _ h; cases h
  polled := by intro _ h; cases h
  ready := by intro _ h; cases h
  settled := by intro _ h; cases h
  rereading := by intro _ _ _ h; cases h
  passed := by intro _ _ _ _; exact ⟨[], 0x00, rfl, by simp [atWrite]; rfl⟩
  writing := by intro _ _ _ _ _ h; cases h

theorem atWrite_inv : (atWrite [⟨.writeCommand 1, 1⟩] []).Inv where
  stack := by decide
  enable := by constructor <;> intro h <;> cases h
  pins := True.intro

/-- The last step of a write behind a gate. -/
def atWriteEnd : State :=
  { atWrite [⟨.writeByte false 1, 25⟩, ⟨.writeCommand 1, 1⟩] ((writeEvents testCfg false 1).take 25) with
    dir := allPins .out
    lat := { idleLatches with db4 := .high }
    dreg := 1 }

theorem atWriteEnd_inv : atWriteEnd.Inv where
  stack := by decide
  enable := by constructor <;> intro h <;> cases h
  pins := by
    constructor
    all_goals first | rfl | (intro _; rfl) | (intro _ h; exact absurd h (by decide)) | (intro _ _; rfl)

theorem witness_SequencerGatesItsWrites :
    ((atWrite [⟨.writeCommand 1, 1⟩] []).Inv ∧ (atWrite [⟨.writeCommand 1, 1⟩] []).GateOk ∧
      ∃ t, step (atWrite [⟨.writeCommand 1, 1⟩] []) = .next t ∧
        t.seq = ⟨.writeByte false 1, 0⟩ :: ⟨.writeCommand 1, 1⟩ :: []) ∧
    (atWriteEnd.Inv ∧ atWriteEnd.GateOk ∧ atWriteEnd.seq = ⟨.writeByte false 1, 25⟩ :: ⟨.writeCommand 1, 1⟩ :: [] ∧
      ∃ t, step atWriteEnd = .next t) := by
  refine ⟨⟨atWrite_inv, atWrite_gateOk, _, rfl, rfl⟩, atWriteEnd_inv, ⟨?_, ?_, ?_, ?_, ?_, ?_, ?_⟩,
    rfl, _, rfl⟩
  · intro _ _ _ h; cases h
  · intro _ h; cases h
  · intro _ h; cases h
  · intro _ h; cases h
  · intro _ _ _ h; cases h
  · intro _ _ h hb; cases h; cases hb
  · intro _ _ _ _ _ h; cases h; exact ⟨[], 0x00, rfl, rfl⟩

/-- A block inside a strobe whose trace says so. -/
def inReadTraced : State := { inRead with trace := (readEvents testCfg false 0x00).take 17 }

theorem witness_StepKeepsStrobeShape :
    inReadTraced.Inv ∧ inReadTraced.StrobesOk ∧ (∃ t, step inReadTraced = .next t) ∧
    State.reset.StrobesOk ∧ State.reset.seq = [] :=
  ⟨⟨inRead_inv.stack, inRead_inv.enable,
    ⟨fun _ => rfl, fun _ => rfl, fun _ => rfl, fun _ => rfl, fun _ => rfl, fun _ => rfl⟩⟩, by unfold State.StrobesOk; decide, ⟨_, rfl⟩, rfl, rfl⟩

theorem witness_FramesFollowTheLevels :
    stepOf testCfg (.writeCommand 1) 0 = some (.call .waitReady) ∧
    stepOf testCfg (.writeCommand 1) 1 = some (.call (.writeByte false 1)) ∧
    inRead.Inv ∧ inRead.nibbleFrames = ⟨.getNibble, 3⟩ :: [] :=
  ⟨rfl, rfl, inRead_inv, rfl⟩

end Sys2Proof.Tests
end

section
/-! SUPPORT. What an operation and a step leave alone: the configuration, the port, the rest of a text, the directions of
the control pins, and the trace so far. -/

namespace Sys2Proof.Machine

/-! ### Events on the control pins -/

/-- The event makes no control pin an input and reads none. -/
def Event.sparesControl : Event → Bool
  | .inp p | .rd p _ => isDataPin p
  | .out _ | .hi _ | .lo _ | .dly _ => true

section SparesControl
variable (p : Pin) (v : Bool) (n : Nat)

@[simp] theorem out_sparesControl : (Event.out p).sparesControl = true := rfl
@[simp] theorem inp_sparesControl : (Event.inp p).sparesControl = isDataPin p := rfl
@[simp] theorem hi_sparesControl : (Event.hi p).sparesControl = true := rfl
@[simp] theorem lo_sparesControl : (Event.lo p).sparesControl = true := rfl
@[simp] theorem rd_sparesControl : (Event.rd p v).sparesControl = isDataPin p := rfl
@[simp] theorem dly_sparesControl : (Event.dly n).sparesControl = true := rfl
@[simp] theorem setEvent_sparesControl : (setEvent p v).sparesControl = true := by cases v <;> rfl

end SparesControl

theorem sparesControl_pin {ev : Event} (h : ev.sparesControl = true) {p : Pin}
    (hp : ev = .inp p ∨ ∃ v, ev = .rd p v) : isDataPin p = true := by
  rcases hp with rfl | ⟨v, rfl⟩ <;> exact h

theorem writeEvents_spareControl (cfg : Configuration) (rs : Bool) (b : Byte) :
    (writeEvents cfg rs b).all Event.sparesControl = true := by
  simp [writeEvents]

theorem readEvents_spareControl (cfg : Configuration) (rs : Bool) (b : Byte) :
    (readEvents cfg rs b).all Event.sparesControl = true := by
  simp [readEvents, isDataPin]

theorem pollEvents_spareControl (cfg : Configuration) (bytes : List Byte) :
    (pollEvents cfg bytes).all Event.sparesControl = true := by
  rw [pollEvents, List.all_flatMap]
  exact List.all_eq_true.2 fun b _ => readEvents_spareControl cfg false b

theorem gateEvents_spareControl (cfg : Configuration) (g : Gate) :
    (g.events cfg).all Event.sparesControl = true := by
  rw [Gate.events, List.all_append, List.all_append, pollEvents_spareControl, readEvents_spareControl]
  rfl

theorem initPinEvents_spareControl (cfg : Configuration) :
    (initPinEvents cfg).all Event.sparesControl = true := by
  have hreset : (resetEvents cfg cfg.resetSeq).all Event.sparesControl = true := by
    rw [resetEvents, List.all_flatMap]
    exact List.all_eq_true.2 fun x _ => by simp [putNibbleEvents]
  rw [initPinEvents, List.all_append, hreset]
  rfl

/-! ### What both an operation and a step keep -/

/-- From `s` the block comes to `t` with events that spare the control pins; the configuration, the port and the rest of a
text stay, and a control pin that is an output stays one. -/
structure State.Extends (s t : State) : Prop where
  cfg : t.cfg = s.cfg
  cmds : t.cmds = s.cmds
  text : t.text = s.text
  enable : s.dir.e = .out → t.dir.e = .out
  select : s.dir.rs = .out → t.dir.rs = .out
  readWrite : s.dir.rw = .out → t.dir.rw = .out
  trace : ∃ evs, t.trace = s.trace ++ evs ∧ evs.all Event.sparesControl = true

section Extends
variable {s t u : State}

theorem State.Extends.trans (h : s.Extends t) (h' : t.Extends u) : s.Extends u where
  cfg := h'.cfg.trans h.cfg
  cmds := h'.cmds.trans h.cmds
  text := h'.text.trans h.text
  enable := h'.enable ∘ h.enable
  select := h'.select ∘ h.select
  readWrite := h'.readWrite ∘ h.readWrite
  trace := by
    obtain ⟨evs, ht, he⟩ := h.trace
    obtain ⟨evs', hu, he'⟩ := h'.trace
    exact ⟨evs ++ evs', by rw [hu, ht, List.append_assoc], by rw [List.all_append, he, he', Bool.and_true]⟩

/-- A change of registers, `SEQ`, response and answers alone. -/
theorem State.Extends.of_eq (hcfg : t.cfg = s.cfg) (hcmds : t.cmds = s.cmds) (htext : t.text = s.text)
    (hdir : t.dir = s.dir) (htrace : t.trace = s.trace) : s.Extends t :=
  ⟨hcfg, hcmds, htext, (hdir ▸ ·), (hdir ▸ ·), (hdir ▸ ·), [], by simp [htrace], rfl⟩

theorem State.Extends.refl (s : State) : s.Extends s := .of_eq rfl rfl rfl rfl rfl

end Extends

/-- An event that spares the control pins. -/
theorem extends_emit (s : State) (ev : Event) (h : ev.sparesControl = true) : s.Extends (s.emit ev) := by
  have hdir : (s.dir.e = .out → (ev.dirAfter s.dir).e = .out) ∧ (s.dir.rs = .out → (ev.dirAfter s.dir).rs = .out) ∧
      (s.dir.rw = .out → (ev.dirAfter s.dir).rw = .out) := by
    cases ev with
    | out p => cases p <;> simp
    | inp p => cases p <;> simp [isDataPin] at h ⊢
    | hi p | lo p | rd p v | dly n => simp
  exact ⟨rfl, rfl, rfl, hdir.1, hdir.2.1, hdir.2.2, [ev], rfl, by simpa using h⟩

/-! ### Operations run at once -/

section Operations
variable (s : State) (rs : Bool) (b : Byte)

theorem extends_wrote : s.Extends (s.wrote rs b) :=
  ⟨rfl, rfl, rfl, id, id, id, _, rfl, writeEvents_spareControl s.cfg rs b⟩

theorem extends_hasRead : s.Extends (s.hasRead rs b) :=
  ⟨rfl, rfl, rfl, id, id, id, _, rfl, readEvents_spareControl s.cfg rs b⟩

theorem extends_gated (g : Gate) : s.Extends (s.gated g) :=
  ⟨rfl, rfl, rfl, id, id, id, _, rfl, gateEvents_spareControl s.cfg g⟩

theorem extends_timedOutAfter (polls : List Byte) : s.Extends (s.timedOutAfter polls) :=
  ⟨rfl, rfl, rfl, id, id, id, _, rfl, pollEvents_spareControl s.cfg polls⟩

theorem extends_pinsSetUp : s.Extends s.pinsSetUp :=
  ⟨rfl, rfl, rfl, fun _ => rfl, fun _ => rfl, fun _ => rfl, _, rfl, initPinEvents_spareControl s.cfg⟩

theorem extends_takePosition : s.Extends s.takePosition := .of_eq rfl rfl rfl rfl rfl

end Operations

/-- Whatever the operation comes to from `s` extends `s`. -/
def Progress.Extends (s : State) : Progress → Prop
  | .done t => s.Extends t
  | .failed _ t => s.Extends t
  | .undetermined => True

theorem andThen_extends {s : State} {p : Progress} {f : State → Progress} (hp : p.Extends s)
    (hf : ∀ t, s.Extends t → (f t).Extends s) : (p.andThen f).Extends s := by
  cases p with
  | done t => exact hf t hp
  | failed k t => exact hp
  | undetermined => exact True.intro

theorem extends_of_extends {s t : State} {p : Progress} (h : s.Extends t) (hp : p.Extends t) : p.Extends s := by
  cases p with
  | done u => exact h.trans hp
  | failed k u => exact h.trans hp
  | undetermined => exact True.intro

theorem waitReady_extends (s : State) : (waitReady s).Extends s := by
  rcases waitReady_cases s with h | ⟨g, _, _, _, _, _, h⟩ | ⟨polls, _, _, _, _, _, h⟩ <;> rw [h]
  · exact True.intro
  · exact extends_gated s g
  · exact extends_timedOutAfter s polls

theorem writeCommand_extends (b : Byte) (s : State) : (writeCommand b s).Extends s :=
  andThen_extends (waitReady_extends s) fun t h => h.trans (writeByte_eq false b t ▸ extends_wrote t false b)

theorem writeData_extends (b : Byte) (s : State) : (writeData b s).Extends s :=
  andThen_extends (waitReady_extends s) fun t h => h.trans (writeByte_eq true b t ▸ extends_wrote t true b)

theorem initAll_extends (attributes : Byte) (s : State) : (initAll attributes s).Extends s := by
  refine andThen_extends (initPins_eq s ▸ extends_pinsSetUp s) fun _ h => extends_of_extends h ?_
  refine andThen_extends (writeCommand_extends _ _) fun _ h => extends_of_extends h ?_
  refine andThen_extends (writeCommand_extends _ _) fun _ h => extends_of_extends h ?_
  refine andThen_extends (writeCommand_extends _ _) fun _ h => extends_of_extends h ?_
  exact writeCommand_extends _ _

theorem gotoXY_extends (col : Byte) (row : Nat) (s : State) : (gotoXY col row s).Extends s := by
  rw [gotoXY]
  split
  · exact State.Extends.refl s
  · exact writeCommand_extends _ s

theorem wrapPath_extends (a : Address) (s : State) : (wrapPath a s).Extends s := by
  rw [wrapPath]
  split
  · exact State.Extends.refl s
  all_goals
    rw [writeByte_eq]
    exact extends_of_extends (extends_wrote s _ _) (waitReady_extends _)

theorem printChar_extends (ch : Byte) (s : State) : (printChar ch s).Extends s := by
  refine andThen_extends (waitReady_extends s) fun t h => extends_of_extends (h.trans (extends_takePosition t)) ?_
  dsimp only
  split
  · exact writeCommand_extends _ _
  · exact andThen_extends (wrapPath_extends _ _) fun u hu => hu.trans (writeByte_eq true ch u ▸ extends_wrote u true ch)

theorem progressOf_extends (i : Instr) (s : State) : (progressOf i s).Extends s := by
  cases i with
  | init attributes => exact initAll_extends attributes s
  | clear | home | wrcmd => exact writeCommand_extends _ s
  | gotoxy col row => exact gotoXY_extends col row s
  | putc ch => exact printChar_extends ch s
  | wrdata b => exact writeData_extends b s
  | rdstat => exact waitReady_extends s
  | busRs | busRd => exact extends_hasRead s _ _
  | busWi | busWd | lcdClear | lcdHome | lcdEntry | lcdDisplay | lcdFunction | lcdSetddram => exact extends_wrote s _ _

/-- The frame that every instruction has in common. -/
theorem exec_extends {i : Instr} {s t : State} (h : exec i s = .next t) : s.Extends t := by
  have hp := progressOf_extends i s.accept
  have ha : s.Extends s.accept := .of_eq rfl rfl rfl rfl rfl
  rw [exec_eq] at h
  rcases operate_cases s (entryRoutine s.cfg i) (progressOf i) with
    ⟨_, he⟩ | ⟨_, u, hu, he⟩ | ⟨_, k, u, hu, he⟩ | ⟨_, _, he⟩ <;> cases he.symm.trans h
  · exact State.Extends.refl s
  · rw [hu] at hp
    exact (ha.trans hp).trans (.of_eq rfl rfl rfl rfl rfl)
  · rw [hu] at hp
    exact (ha.trans hp).trans (.of_eq rfl rfl rfl rfl rfl)
  · exact .of_eq rfl rfl rfl rfl rfl

/-! ### Steps of the sequencer -/

/-- An event or a sample of a step list spares the control pins. -/
def Action.sparesControl : Action → Bool
  | .event ev => ev.sparesControl
  | .sample p _ => isDataPin p
  | .drive _ _ | .call _ | .zeroCount | .busyTest | .boundsTest _ | .newlineTest _ | .lineTest | .wrapTest => true

theorem initSteps_spareControl (cfg : Configuration) (attributes : Byte) :
    (initSteps cfg attributes).all Action.sparesControl = true := by
  rw [initSteps_eq, List.all_append, List.all_map]
  exact Bool.and_eq_true_iff.2 ⟨initPinEvents_spareControl cfg, rfl⟩

theorem stepOf_sparesControl {cfg : Configuration} {r : Routine} {n : Nat} {a : Action} (h : stepOf cfg r n = some a) :
    a.sparesControl = true := by
  cases r with
  | init attributes => exact List.all_eq_true.1 (initSteps_spareControl cfg attributes) a (List.mem_of_getElem? h)
  | clear | home | readStatus =>
    simp only [stepOf] at h
    split at h <;> cases h
    rfl
  | gotoXY col row =>
    simp only [stepOf] at h
    split at h
    · cases h; rfl
    · split at h <;> cases h
      rfl
  | printChar ch =>
    simp only [stepOf, printCharStep] at h
    split at h <;> cases h <;> rfl
  | writeCommand b | writeData b =>
    simp only [stepOf, gatedWriteStep] at h
    split at h <;> cases h <;> rfl
  | waitReady =>
    simp only [stepOf, waitReadyStep] at h
    split at h <;> cases h <;> rfl
  | writeByte rs b =>
    simp only [stepOf, writeByteStep] at h
    split at h <;> cases h <;> simp [Action.sparesControl]
  | readByte rs =>
    simp only [stepOf, readByteStep] at h
    split at h <;> cases h <;> simp [Action.sparesControl, isDataPin]

theorem extends_unwind {s t : State} (h : s.Extends t) (f : Frame) (callers : List Frame) :
    s.Extends (t.unwind f callers) := by
  obtain ⟨q, r, p, hu⟩ := unwind_eq t f callers
  rw [hu]
  exact h.trans (.of_eq rfl rfl rfl rfl rfl)

theorem extends_testBusy (s : State) (f : Frame) (callers : List Frame) : s.Extends (s.testBusy f callers) := by
  have hc : s.Extends s.countPoll := .of_eq rfl rfl rfl rfl rfl
  rw [State.testBusy]
  split
  · split
    · exact hc.trans (.of_eq rfl rfl rfl rfl rfl)
    · exact extends_unwind hc _ _
  · exact extends_unwind (.refl s) _ _

theorem extends_perform (s : State) (a : Action) (f : Frame) (callers : List Frame) (h : a.sparesControl = true) :
    s.Extends (s.perform a f callers) := by
  cases a with
  | event ev => exact extends_unwind (extends_emit s ev h) _ _
  | drive p bit => exact extends_unwind (extends_emit s _ (setEvent_sparesControl p _)) _ _
  | sample p bit =>
    have hp : ([Event.rd p s.answer]).all Event.sparesControl = true := by
      rw [List.all_cons, List.all_nil, Bool.and_true]; exact h
    exact extends_unwind (s := s) (t := { s.rd p with sreg := withBit s.sreg bit s.answer })
      ⟨rfl, rfl, rfl, id, id, id, _, rfl, hp⟩ _ _
  | call r => exact .of_eq rfl rfl rfl rfl rfl
  | zeroCount => exact extends_unwind (s := s) (t := s.zeroCount) (.of_eq rfl rfl rfl rfl rfl) _ _
  | busyTest => exact extends_testBusy s f callers
  | boundsTest col =>
    rw [State.perform]
    split
    · exact .of_eq rfl rfl rfl rfl rfl
    · exact extends_unwind (.refl s) _ _
  | newlineTest ch | lineTest | wrapTest => exact extends_unwind (.refl s) _ _

/-! ### Steps of the machine -/

/-- How much the host still has to send: the words at the port and the characters of a text. -/
def State.waiting (s : State) : Nat := s.text.length + s.cmds.length

theorem waiting_of_extends {s t : State} (h : s.Extends t) : t.waiting = s.waiting := by
  rw [State.waiting, h.text, h.cmds, State.waiting]

/-- A step extends the state, or, in an idle block, first takes a word from the port or drops text. -/
theorem step_extends {s t : State} (h : step s = .next t) :
    (s.Extends t ∧ (s.seq = [] → t = s)) ∨
    (s.seq = [] ∧ ∃ cmds text, State.waiting { s with cmds, text } < s.waiting ∧
      State.Extends { s with cmds, text } t) := by
  rcases step_cases h with ⟨_, _, _, rfl⟩ | ⟨r, rest, i, hs, ht, hc, _, he⟩ | ⟨r, rest, _, hs, ht, hc, _, rfl⟩ |
    ⟨ch, rest, hs, ht, _, he⟩ | ⟨ch, rest, hs, ht, _, rfl⟩ | ⟨f, callers, a, hs, ha, rfl⟩
  · exact .inl ⟨.refl _, fun _ => rfl⟩
  · exact .inr ⟨hs, rest, s.text, by simp [State.waiting, hc], exec_extends he⟩
  · exact .inr ⟨hs, rest, s.text, by simp [State.waiting, hc], .of_eq rfl rfl rfl rfl rfl⟩
  · exact .inr ⟨hs, s.cmds, rest, by simp [State.waiting, ht], exec_extends he⟩
  · exact .inr ⟨hs, s.cmds, [], by simp [State.waiting, ht], .refl _⟩
  · exact .inl ⟨extends_perform s a f callers (stepOf_sparesControl ha), fun hn => by cases hs.symm.trans hn⟩

/-- Settles O49: a step extends the state but for the port and the text. -/
theorem stepKeepsConfigurationAndControlPins : Obligations.StepKeepsConfigurationAndControlPins := by
  intro s t h
  obtain ⟨cmds, text, hu⟩ : ∃ cmds text, State.Extends { s with cmds, text } t := by
    rcases step_extends h with ⟨hu, _⟩ | ⟨_, cmds, text, _, hu⟩
    · exact ⟨s.cmds, s.text, hu⟩
    · exact ⟨cmds, text, hu⟩
  obtain ⟨evs, ht, he⟩ := hu.trace
  exact ⟨hu.cfg, hu.enable, hu.select, hu.readWrite, evs, ht, fun ev hev p =>
    sparesControl_pin (List.all_eq_true.1 he ev hev)⟩

/-! ### Reset -/

/-- Settles O2: the board numbers its pins by a permutation, and the rest are the values of rule R8. -/
theorem resetConfigurationIsLegal : Obligations.ResetConfigurationIsLegal := by
  have hlegal : Config.default.Legal := {
    pins := by
      show (List.map Config.boardNumbering [0, 1, 2, 3, 4, 5, 6]).Nodup
      exact List.Nodup.map Config.boardNumbering.injective (by decide)
    lineLength := rfl
    lines := rfl
    line1Base := rfl
    line2Base := rfl
    strobe := by decide
    settle := by decide
    powerOn := by decide
    resetDelays := by decide
    maxPoll := fun n h => by cases h }
  exact ⟨hlegal, rfl, rfl, rfl, rfl, rfl⟩

end Sys2Proof.Machine
end

section
/-! SUPPORT. Every instruction run at once and its sequencer from its first frame come to the same end. -/

namespace Sys2Proof.Machine

theorem Runs.congr_of_done {p : Progress} {s : State} {finish finish' : State → State} (hr : Runs p s finish)
    (h : ∀ t, p = .done t → finish t = finish' t) : Runs p s finish' :=
  ⟨fun t ht => h t ht ▸ hr.1 t ht, hr.2⟩

theorem Runs.of_failed {k : Code} {t start : State} {finish : State → State} (h : Reaches start (t.raise k)) :
    Runs (.failed k t) start finish :=
  ⟨fun u hu => (by cases hu), fun k' u hu => (by cases hu; exact h)⟩

/-! ### One write or one read -/

theorem runs_lone_writeByte (s : State) (rs : Bool) (b : Byte) :
    Runs (.done (s.wrote rs b)) (s.call (.writeByte rs b) []) fun t => t.complete (.writeByte rs b) := by
  have h := run_writeByte (s.call (.writeByte rs b) []) rs b [] rfl rfl
  rw [unwind_last _ _ (by rfl)] at h
  exact Runs.of_reaches ⟨26, h⟩

theorem runs_lone_readByte (s : State) (rs : Bool) :
    Runs (.done (s.hasRead rs s.byteAhead)) (s.call (.readByte rs) []) fun t => t.complete (.readByte rs) := by
  have h := run_readByte (s.call (.readByte rs) []) rs [] rfl
  rw [unwind_last _ _ (by rfl)] at h
  exact Runs.of_reaches ⟨22, h⟩

/-! ### One gated write -/

/-- A gated command write that is an operation's last step (rules R164 to R166, R169). -/
theorem runs_last_writeCommand (s : State) (b : Byte) (f : Frame)
    (ha : stepOf s.cfg f.routine f.step = some (.call (.writeCommand b))) (hr : ∀ t : State, t.takeResult f = t)
    (hl : ∀ cfg, f.next.live cfg = false) :
    Runs (writeCommand b s) (s.withSeq [f]) fun t => t.complete f.routine :=
  (runs_call_writeCommand s b f [] ha hr).congr fun t => unwind_last t _ (hl t.cfg)

theorem runs_gotoXY (s : State) (col : Byte) (row : Nat) :
    Runs (gotoXY col row s) (s.withSeq [⟨.gotoXY col row, 0⟩]) fun t => t.complete (.gotoXY col row) := by
  have h : Machine.step (s.withSeq [⟨.gotoXY col row, 0⟩]) = .next ((s.withSeq _).perform (.boundsTest col) _ []) :=
    step_action _ ⟨.gotoXY col row, 0⟩ [] _ rfl rfl
  rw [State.perform, withSeq_cfg] at h
  rw [gotoXY]
  cases hb : outOfBounds s.cfg col with
  | true =>
    rw [hb, if_pos rfl] at h
    exact Runs.of_failed (Reaches.step h)
  | false =>
    rw [hb, if_neg Bool.false_ne_true, State.advance, unwind_live _ _ _ (by rfl)] at h
    exact Runs.after (Reaches.step h) (runs_last_writeCommand s _ ⟨.gotoXY col row, 1⟩ rfl (fun _ => rfl) fun _ => rfl)

/-! ### `PrintChar` (rules R168 to R171) -/

/-- The data write that ends `PrintChar`. -/
theorem runs_last_writeByte (s : State) (rs : Bool) (b : Byte) (f : Frame)
    (ha : stepOf s.cfg f.routine f.step = some (.call (.writeByte rs b))) (hr : ∀ t : State, t.takeResult f = t)
    (hl : ∀ cfg, f.next.live cfg = false) :
    Runs (.done (writeByte rs b s)) (s.withSeq [f]) fun t => t.complete f.routine :=
  (runs_call_writeByte s rs b f [] ha hr).congr fun t => unwind_last t _ (hl t.cfg)

/-- A step of `PrintChar` that branches (rule R30). -/
theorem reaches_jump (s : State) (a : Action) (f : Frame) (n : Nat)
    (ha : stepOf s.cfg f.routine f.step = some a)
    (hp : (s.withSeq [f]).perform a f [] = (s.withSeq [f]).jump f [] n)
    (hl : ({ f with step := n } : Frame).live s.cfg = true) :
    Reaches (s.withSeq [f]) (s.withSeq [{ f with step := n }]) := by
  have h := step_action (s.withSeq [f]) f [] a rfl ha
  rw [hp, State.jump, unwind_seq, unwind_live s _ _ hl] at h
  exact Reaches.step h

theorem runs_newlinePath (s : State) (ch : Byte) :
    Runs (newlinePath (currentAddress s.pos) s) (s.withSeq [⟨.printChar ch, 13⟩]) fun t =>
      t.complete (.printChar ch) := by
  rw [newlinePath, newlineByte]
  cases hb : beforeLine2 s.cfg (currentAddress s.pos) with
  | true =>
    refine Runs.after (reaches_jump s .lineTest ⟨.printChar ch, 13⟩ 14 rfl ?_ rfl) ?_
    · simp [State.perform, State.withSeq, hb]
    · exact runs_last_writeCommand s _ ⟨.printChar ch, 14⟩ rfl (fun _ => rfl) fun _ => rfl
  | false =>
    refine Runs.after (reaches_jump s .lineTest ⟨.printChar ch, 13⟩ 16 rfl ?_ rfl) ?_
    · simp [State.perform, State.withSeq, hb]
    · exact runs_last_writeCommand s _ ⟨.printChar ch, 16⟩ rfl (fun _ => rfl) fun _ => rfl

/-- The silent set-address at step `n + 1` of `PrintChar`, its gate, and the character (rule R171). -/
theorem runs_wrapped (s : State) (ch b : Byte) (n : Nat)
    (hset : printCharStep s.cfg ch (n + 1) = some (.call (.writeByte false b)))
    (hgate : ∀ cfg, printCharStep cfg ch (n + 2) = some (.call .waitReady))
    (hsend : ∀ cfg, printCharStep cfg ch (n + 3) = some (.call (.writeByte true ch)))
    (hend : ∀ cfg, printCharStep cfg ch (n + 4) = none) :
    Runs ((waitReady (writeByte false b s)).andThen fun t => .done (writeByte true ch t))
      (s.withSeq [⟨.printChar ch, n + 1⟩]) fun t => t.complete (.printChar ch) := by
  have hwrite : Reaches (s.withSeq [⟨.printChar ch, n + 1⟩])
      ((writeByte false b s).unwind ⟨.printChar ch, n + 2⟩ []) :=
    (runs_call_writeByte s false b ⟨.printChar ch, n + 1⟩ [] hset fun _ => rfl).1 _ rfl
  rw [unwind_live _ ⟨.printChar ch, n + 2⟩ _ (Option.isSome_of_eq_some (hgate _))] at hwrite
  refine Runs.after hwrite ((runs_call_waitReady _ ⟨.printChar ch, n + 2⟩ [] (hgate _)).andThen fun t _ => ?_)
  have hgated : (t.takeResult ⟨.printChar ch, n + 2⟩).unwind (Frame.next ⟨.printChar ch, n + 2⟩) [] =
      t.withSeq [⟨.printChar ch, n + 3⟩] :=
    unwind_live t ⟨.printChar ch, n + 3⟩ [] (Option.isSome_of_eq_some (hsend _))
  rw [hgated]
  exact runs_last_writeByte t true ch ⟨.printChar ch, n + 3⟩ (hsend _) (fun _ => rfl) fun cfg =>
    congrArg Option.isSome (hend cfg)

theorem runs_wrapPath (s : State) (ch : Byte) :
    Runs ((wrapPath (currentAddress s.pos) s).andThen fun t => .done (writeByte true ch t))
      (s.withSeq [⟨.printChar ch, 2⟩]) fun t => t.complete (.printChar ch) := by
  have hjump : Reaches (s.withSeq [⟨.printChar ch, 2⟩])
      (s.withSeq [⟨.printChar ch, wrapTarget (wrapCase s.cfg (currentAddress s.pos))⟩]) :=
    reaches_jump s .wrapTest ⟨.printChar ch, 2⟩ _ rfl rfl (by cases wrapCase s.cfg (currentAddress s.pos) <;> rfl)
  refine Runs.after hjump ?_
  rw [wrapPath]
  cases wrapCase s.cfg (currentAddress s.pos) with
  | noWrap => exact runs_last_writeByte s true ch ⟨.printChar ch, 3⟩ rfl (fun _ => rfl) fun _ => rfl
  | endOfLine1 =>
    exact runs_wrapped s ch _ 4 rfl (fun _ => rfl) (fun _ => rfl) fun _ => rfl
  | endOfLine2 =>
    exact runs_wrapped s ch _ 8 rfl (fun _ => rfl) (fun _ => rfl) fun _ => rfl

theorem runs_printChar (s : State) (ch : Byte) :
    Runs (printChar ch s) (s.withSeq [⟨.printChar ch, 0⟩]) fun t => t.complete (.printChar ch) := by
  refine (runs_call_waitReady s ⟨.printChar ch, 0⟩ [] rfl).andThen fun u _ => ?_
  have hu : (u.takeResult ⟨.printChar ch, 0⟩).unwind ⟨.printChar ch, 1⟩ [] =
      u.takePosition.withSeq [⟨.printChar ch, 1⟩] := unwind_live _ _ _ (by rfl)
  rw [show Frame.next ⟨.printChar ch, 0⟩ = ⟨.printChar ch, 1⟩ from rfl, hu]
  generalize u.takePosition = t
  dsimp only
  have hjump : Reaches (t.withSeq [⟨.printChar ch, 1⟩])
      (t.withSeq [⟨.printChar ch, if ch = t.cfg.chNewline then 13 else 2⟩]) :=
    reaches_jump t (.newlineTest ch) ⟨.printChar ch, 1⟩ _ rfl rfl (by split <;> rfl)
  refine Runs.after hjump ?_
  split
  · exact runs_newlinePath t ch
  · exact runs_wrapPath t ch

/-! ### `Initialize` (rule R160) -/

theorem emitAll_append (s : State) (evs evs' : List Event) : s.emitAll (evs ++ evs') = (s.emitAll evs).emitAll evs' :=
  List.foldl_append

theorem controllerReset_emits (cfg : Configuration) (l : List (Nibble × Nat)) (s : State) (h : s.cfg = cfg) :
    controllerReset l s = s.emitAll (resetEvents cfg l) := by
  subst h
  induction l generalizing s with
  | nil => rfl
  | cons x l ih =>
    obtain ⟨n, d⟩ := x
    rw [controllerReset, ih]
    simp [resetEvents, putNibbleEvents, putNibble, driveNibble, strobe]

theorem initPins_emits (s : State) : initPins s = s.emitAll (initPinEvents s.cfg) := by
  rw [initPins, initPinEvents, emitAll_append]
  exact controllerReset_emits s.cfg _ _ rfl

/-- The four calls that end `Initialize`, by number (rule R160 steps I5 to I8). -/
theorem stepOf_init_call (cfg : Configuration) (attributes : Byte) (k : Nat) :
    stepOf cfg (.init attributes) ((initPinEvents cfg).length + k) =
      ([cfg.cmdFunction, cfg.cmdClear, cfg.cmdEntry, attributes][k]?).map fun b => .call (.writeCommand b) := by
  rw [stepOf, initSteps_eq, List.getElem?_append_right (by simp), List.length_map, Nat.add_sub_cancel_left,
    ← List.getElem?_map]
  rfl

theorem reaches_initPins (s : State) (attributes : Byte) :
    Reaches (s.withSeq [⟨.init attributes, 0⟩])
      ((initPins s).withSeq [⟨.init attributes, (initPinEvents s.cfg).length⟩]) := by
  have hev : ∀ k (hk : k < (initPinEvents s.cfg).length),
      stepOf s.cfg (.init attributes) k = some (.event (initPinEvents s.cfg)[k]) := by
    intro k hk
    rw [stepOf, initSteps_eq, List.getElem?_append_left (by rwa [List.length_map]), List.getElem?_map,
      List.getElem?_eq_getElem hk, Option.map_some]
  have h := reaches_events (initPinEvents s.cfg) s (.init attributes) 0 []
    (fun k hk => by rw [Nat.zero_add]; exact hev k hk)
    (fun k hk => by
      rw [Nat.zero_add]
      by_cases hk' : k + 1 < (initPinEvents s.cfg).length
      · rw [hev _ hk']; rfl
      · rw [show k + 1 = (initPinEvents s.cfg).length + 0 by omega, stepOf_init_call]; rfl)
  rwa [Nat.zero_add, ← initPins_emits] at h

/-- One of the four calls of `Initialize` that another follows. -/
theorem runs_init_call {cfg : Configuration} {attributes b : Byte} {k : Nat} {s : State} (hcfg : s.cfg = cfg) (hk : k < 3)
    (hb : [cfg.cmdFunction, cfg.cmdClear, cfg.cmdEntry, attributes][k]? = some b) :
    Runs (writeCommand b s) (s.withSeq [⟨.init attributes, (initPinEvents cfg).length + k⟩]) fun t =>
      t.withSeq [⟨.init attributes, (initPinEvents cfg).length + (k + 1)⟩] := by
  subst hcfg
  have hcall := runs_call_writeCommand s b ⟨.init attributes, (initPinEvents s.cfg).length + k⟩ []
  refine (hcall ?_ fun _ => rfl).congr_of_done fun t ht => unwind_live _ _ _ ?_
  · rw [stepOf_init_call, hb]; rfl
  · rw [writeCommand_cfg ht, Frame.live, Frame.next, Nat.add_assoc, stepOf_init_call, Option.isSome_map]
    simpa using hk

theorem runs_initAll (s : State) (attributes : Byte) :
    Runs (initAll attributes s) (s.withSeq [⟨.init attributes, 0⟩]) fun t => t.complete (.init attributes) := by
  have hpins : Runs (.done (initPins s)) (s.withSeq [⟨.init attributes, 0⟩]) fun t =>
      t.withSeq [⟨.init attributes, (initPinEvents s.cfg).length + 0⟩] := Runs.of_reaches (reaches_initPins s attributes)
  refine hpins.andThen fun t0 h0 => ?_
  have hc0 : t0.cfg = s.cfg := by cases h0; rw [initPins_eq]; rfl
  refine (runs_init_call (k := 0) hc0 (by decide) (by rw [hc0]; rfl)).andThen fun t1 h1 => ?_
  have hc1 : t1.cfg = s.cfg := (writeCommand_cfg h1).trans hc0
  refine (runs_init_call (k := 1) hc1 (by decide) (by rw [hc1]; rfl)).andThen fun t2 h2 => ?_
  have hc2 : t2.cfg = s.cfg := (writeCommand_cfg h2).trans hc1
  refine (runs_init_call (k := 2) hc2 (by decide) (by rw [hc2]; rfl)).andThen fun t3 h3 => ?_
  have hc3 : t3.cfg = s.cfg := (writeCommand_cfg h3).trans hc2
  refine (runs_call_writeCommand t3 attributes ⟨.init attributes, _ + 3⟩ [] ?_ fun _ => rfl).congr_of_done
    fun t4 h4 => unwind_last _ _ ?_
  · rw [hc3, stepOf_init_call]; rfl
  · rw [writeCommand_cfg h4, hc3, Frame.live, Frame.next, Nat.add_assoc, stepOf_init_call]; rfl

/-! ### Every instruction -/

/-- Entering a routine other than `WriteByte` changes `SEQ` alone (rule R26). -/
theorem call_eq_withSeq (s : State) (r : Routine) (callers : List Frame) (h : ∀ rs b, r ≠ .writeByte rs b) :
    s.call r callers = s.withSeq (⟨r, 0⟩ :: callers) := by
  cases r with
  | writeByte rs b => exact absurd rfl (h rs b)
  | _ => rfl

theorem runs_progressOf (i : Instr) (s : State) :
    Runs (progressOf i s) (s.call (entryRoutine s.cfg i) []) fun t => t.complete (entryRoutine s.cfg i) := by
  cases i with
  | init attributes => exact runs_initAll s attributes
  | clear => exact runs_last_writeCommand s _ ⟨.clear, 0⟩ rfl (fun _ => rfl) fun _ => rfl
  | home => exact runs_last_writeCommand s _ ⟨.home, 0⟩ rfl (fun _ => rfl) fun _ => rfl
  | gotoxy col row => exact runs_gotoXY s col row
  | putc ch => exact runs_printChar s ch
  | wrcmd b => exact (runs_writeCommand b s []).congr fun t => unwind_last t ⟨.writeCommand b, 2⟩ rfl
  | wrdata b => exact (runs_writeData b s []).congr fun t => unwind_last t ⟨.writeData b, 2⟩ rfl
  | rdstat =>
    exact (runs_call_waitReady s ⟨.readStatus, 0⟩ [] rfl).congr fun t => unwind_last t ⟨.readStatus, 1⟩ rfl
  | busRs | busRd => exact runs_lone_readByte s _
  | busWi | busWd | lcdClear | lcdHome | lcdEntry | lcdDisplay | lcdFunction | lcdSetddram =>
    exact runs_lone_writeByte s _ _

/-- An instruction that is over at once ends where its sequencer ends. -/
theorem reaches_of_exec {i : Instr} {s t : State} (hs : s.seq = []) (h : exec i s = .next t) (ht : t.seq = []) :
    Reaches (s.start (entryRoutine s.cfg i)) t := by
  have hr : Runs (progressOf i s.accept) (s.start (entryRoutine s.cfg i)) fun t => t.complete (entryRoutine s.cfg i) :=
    runs_progressOf i s.accept
  cases hp : progressOf i s.accept with
  | done u =>
    cases (exec_done i s u hs hp).symm.trans h
    exact hr.1 u hp
  | failed k u =>
    cases (exec_failed i s u k hs hp).symm.trans h
    exact hr.2 k u hp
  | undetermined =>
    cases (exec_undetermined i s hs hp).symm.trans h
    cases ht

/-- Settles O42, by the runs of its routine's steps. -/
theorem sequencerReachesTheSameEnd : Obligations.SequencerReachesTheSameEnd :=
  fun _ _ _ hs h ht => reaches_of_exec hs h ht

end Sys2Proof.Machine
end

section
/-! SUPPORT. A running operation does not see whether its answers are held or drawn; so what an instruction comes to at once
on held answers its sequencer comes to on drawn ones. -/

namespace Sys2Proof.Machine

section SameAhead
variable {s t : State}

/-- What leaves answers and draws alone leaves the two alike. -/
theorem State.SameAhead.of_eq {s' t' : State} (h : s.SameAhead t) (ha : s'.answers = s.answers)
    (hd : s'.draws = s.draws) (ht : t' = { s' with answers := t.answers }) : s'.SameAhead t' := by
  subst ht
  refine ⟨rfl, fun k => ?_⟩
  have hs : s'.levelAhead k = s.levelAhead k := by rw [State.levelAhead, ha, hd, State.levelAhead]
  have ht : State.levelAhead { s' with answers := t.answers } k = t.levelAhead k := by
    rw [State.levelAhead, State.levelAhead, h.1, hd]
  rw [hs, ht, h.2 k]

theorem State.SameAhead.cfg_eq (h : s.SameAhead t) : t.cfg = s.cfg := by rw [h.1]
theorem State.SameAhead.seq_eq (h : s.SameAhead t) : t.seq = s.seq := by rw [h.1]

theorem State.SameAhead.emit (h : s.SameAhead t) (ev : Event) : (s.emit ev).SameAhead (t.emit ev) :=
  h.of_eq rfl rfl (by rw [h.1]; rfl)

theorem State.SameAhead.call (h : s.SameAhead t) (r : Routine) (callers : List Frame) :
    (s.call r callers).SameAhead (t.call r callers) :=
  h.of_eq rfl rfl (by rw [h.1]; rfl)

theorem State.SameAhead.start (h : s.SameAhead t) (r : Routine) : (s.start r).SameAhead (t.start r) :=
  h.of_eq rfl rfl (by rw [h.1]; rfl)

theorem State.SameAhead.raise (h : s.SameAhead t) (k : Code) : (s.raise k).SameAhead (t.raise k) :=
  h.of_eq rfl rfl (by rw [h.1]; rfl)

theorem State.SameAhead.countPoll (h : s.SameAhead t) : s.countPoll.SameAhead t.countPoll :=
  h.of_eq rfl rfl (by rw [h.1]; rfl)

theorem State.SameAhead.zeroCount (h : s.SameAhead t) : s.zeroCount.SameAhead t.zeroCount :=
  h.of_eq rfl rfl (by rw [h.1]; rfl)

theorem State.SameAhead.complete (h : s.SameAhead t) (r : Routine) : (s.complete r).SameAhead (t.complete r) :=
  h.of_eq rfl rfl (by rw [h.1]; rfl)

theorem State.SameAhead.withSeq (h : s.SameAhead t) (q : List Frame) : (s.withSeq q).SameAhead (t.withSeq q) :=
  h.of_eq rfl rfl (by rw [h.1]; rfl)

theorem State.SameAhead.withSreg (h : s.SameAhead t) (b : Byte) :
    State.SameAhead { s with sreg := b } { t with sreg := b } :=
  h.of_eq rfl rfl (by rw [h.1])

theorem State.SameAhead.takePosition (h : s.SameAhead t) : s.takePosition.SameAhead t.takePosition :=
  h.of_eq rfl rfl (by rw [h.1]; rfl)

theorem State.SameAhead.takeResult (h : s.SameAhead t) (g : Frame) : (s.takeResult g).SameAhead (t.takeResult g) := by
  unfold State.takeResult
  split
  · exact h.takePosition
  · exact h

theorem State.SameAhead.unwind (h : s.SameAhead t) (f : Frame) (callers : List Frame) :
    (s.unwind f callers).SameAhead (t.unwind f callers) := by
  induction callers generalizing s t f with
  | nil =>
    cases hl : f.live s.cfg with
    | true => rw [unwind_live s _ _ hl, unwind_live t _ _ (h.cfg_eq ▸ hl)]; exact h.withSeq _
    | false => rw [unwind_last s _ hl, unwind_last t _ (h.cfg_eq ▸ hl)]; exact h.complete _
  | cons g callers ih =>
    cases hl : f.live s.cfg with
    | true => rw [unwind_live s _ _ hl, unwind_live t _ _ (h.cfg_eq ▸ hl)]; exact h.withSeq _
    | false => rw [unwind_pop s _ _ _ hl, unwind_pop t _ _ _ (h.cfg_eq ▸ hl)]; exact ih (h.takeResult g) _

theorem State.SameAhead.testBusy (h : s.SameAhead t) (f : Frame) (callers : List Frame) :
    (s.testBusy f callers).SameAhead (t.testBusy f callers) := by
  have hsreg : t.sreg = s.sreg := by rw [h.1]
  have htimed : t.countPoll.timedOut = s.countPoll.timedOut := by rw [h.countPoll.1]; rfl
  rw [State.testBusy, State.testBusy, hsreg, htimed]
  split
  · split
    · exact h.countPoll.raise _
    · exact h.countPoll.unwind _ _
  · exact h.unwind _ _

/-- One action of the sequencer leaves the two alike. -/
theorem State.SameAhead.perform (h : s.SameAhead t) (a : Action) (f : Frame) (callers : List Frame) :
    (s.perform a f callers).SameAhead (t.perform a f callers) := by
  have hcfg : t.cfg = s.cfg := h.cfg_eq
  have hpos : t.pos = s.pos := by rw [h.1]
  have hsreg : t.sreg = s.sreg := by rw [h.1]
  have hdreg : t.dreg = s.dreg := by rw [h.1]
  cases a with
  | event ev => exact (h.emit ev).unwind _ _
  | drive p bit => rw [State.perform, State.perform, hdreg]; exact (h.emit _).unwind _ _
  | sample p bit =>
    rw [State.perform, State.perform, hsreg, ← h.answer_eq]
    exact ((h.rd p).withSreg _).unwind _ _
  | call r => exact h.call r _
  | zeroCount => exact h.zeroCount.unwind _ _
  | busyTest => exact h.testBusy f callers
  | boundsTest col =>
    rw [State.perform, State.perform, hcfg]
    split
    · exact h.raise _
    · exact h.unwind _ _
  | newlineTest ch => rw [State.perform, State.perform, hcfg]; exact h.unwind _ _
  | lineTest => rw [State.perform, State.perform, hcfg, hpos]; exact h.unwind _ _
  | wrapTest => rw [State.perform, State.perform, hcfg, hpos]; exact h.unwind _ _

end SameAhead

/-! ### Steps and runs -/

section Runs
variable {s t : State}

/-- A step of a running operation is one action of its top frame (rule R32). -/
theorem step_running_inv (hr : s.seq ≠ []) (h : step s = .next t) :
    ∃ f callers a, s.seq = f :: callers ∧ stepOf s.cfg f.routine f.step = some a ∧ t = s.perform a f callers := by
  obtain ⟨f, callers, hs⟩ := List.exists_cons_of_ne_nil hr
  rw [step_running s f callers hs] at h
  simp only [sequencerStep, hs] at h
  cases ha : stepOf s.cfg f.routine f.step with
  | none => rw [ha] at h; cases h
  | some a =>
    rw [ha] at h
    cases h
    exact ⟨f, callers, a, hs, ha, rfl⟩

/-- A step of a running operation leaves the two alike. -/
theorem step_sameAhead {s' : State} (hr : s.seq ≠ []) (h : s.SameAhead s') (hst : step s = .next t) :
    ∃ t', step s' = .next t' ∧ t.SameAhead t' := by
  obtain ⟨f, callers, a, hs, ha, rfl⟩ := step_running_inv hr hst
  exact ⟨_, step_action s' f callers a (h.seq_eq.trans hs) (h.cfg_eq ▸ ha), h.perform a f callers⟩

theorem waiting_of_step (h : step s = .next t) : t.waiting ≤ s.waiting := by
  rcases step_extends h with ⟨hu, _⟩ | ⟨_, _, _, hlt, hu⟩
  · exact (waiting_of_extends hu).le
  · exact (waiting_of_extends hu).trans_le hlt.le

/-- An idle step that leaves as much waiting does nothing: there was nothing to take. -/
theorem step_idle_same (hs : s.seq = []) (h : step s = .next t) (hw : s.waiting ≤ t.waiting) : t = s := by
  rcases step_extends h with ⟨_, hsame⟩ | ⟨_, _, _, hlt, hu⟩
  · exact hsame hs
  · exact absurd (waiting_of_extends hu ▸ hlt) hw.not_gt

theorem run_succ_inv {k : Nat} (h : Host.Core.run core (k + 1) s = .next t) :
    ∃ u, step s = .next u ∧ Host.Core.run core k u = .next t := by
  simp only [Host.Core.run] at h
  split at h
  · exact ⟨_, ‹_›, h⟩
  · cases h
  · cases h

theorem waiting_of_run {k : Nat} (h : Host.Core.run core k s = .next t) : t.waiting ≤ s.waiting := by
  induction k generalizing s with
  | zero => cases h; exact le_rfl
  | succ k ih =>
    obtain ⟨u, hu, hk⟩ := run_succ_inv h
    exact (ih hk).trans (waiting_of_step hu)

/-- A run that takes nothing of what the host has waiting can be made on the same levels given otherwise. -/
theorem run_sameAhead {k : Nat} {s' : State} (h : s.SameAhead s') (hk : Host.Core.run core k s = .next t)
    (hw : s.waiting ≤ t.waiting) : ∃ t', Reaches s' t' ∧ t.SameAhead t' := by
  induction k generalizing s s' with
  | zero => cases hk; exact ⟨s', .refl s', h⟩
  | succ k ih =>
    obtain ⟨u, hu, hk⟩ := run_succ_inv hk
    by_cases hs : s.seq = []
    · have hus : u = s := step_idle_same hs hu (hw.trans (waiting_of_run hk))
      exact ih h (hus ▸ hk) hw
    · obtain ⟨u', hu', h'⟩ := step_sameAhead hs h hu
      obtain ⟨t', ht', h''⟩ := ih h' hk ((waiting_of_step hu).trans hw)
      exact ⟨t', (Reaches.step hu').trans ht', h''⟩

end Runs

/-- Settles O56: the run that O42 gives on held answers, step by step on the drawn ones. Since the instruction leaves the
port and the text alone, that run takes nothing from them on its way. -/
theorem sequencerEndsOnDrawnAnswers : Obligations.SequencerEndsOnDrawnAnswers := by
  intro i s t answers hs h he ht
  obtain ⟨k, hk⟩ := reaches_of_exec (s := { s with answers := answers }) hs he ht
  have hw : t.waiting = s.waiting := waiting_of_extends (s := { s with answers := answers }) (exec_extends he)
  obtain ⟨u, ⟨j, hj⟩, hu⟩ := run_sameAhead (h.symm.start _) hk hw.ge
  exact ⟨j, u, hj, hu.symm⟩

end Sys2Proof.Machine
end

section
/-! SUPPORT. What one action of the sequencer does to `SEQ`, the pins and the trace, said once. -/

namespace Sys2Proof.Machine

/-! ### Events of an action -/

/-- The event an action emits, a `Rd` with its answer; a call and a test emit none (rules R32, R126). -/
def Action.emits (s : State) : Action → Option Event
  | .event ev => some ev
  | .drive p bit => some (setEvent p (s.dreg.getLsbD bit))
  | .sample p _ => some (.rd p s.answer)
  | .call _ | .zeroCount | .busyTest | .boundsTest _ | .newlineTest _ | .lineTest | .wrapTest => none

/-- From `s` the block comes to `t` by these events: pins and trace are theirs, the configuration stays. -/
structure State.Shows (s : State) (evs : List Event) (t : State) : Prop where
  cfg : t.cfg = s.cfg
  dir : t.dir = evs.foldl (fun d ev => ev.dirAfter d) s.dir
  lat : t.lat = evs.foldl (fun l ev => ev.latAfter l) s.lat
  trace : t.trace = s.trace ++ evs

section Shows
variable {s t u : State} {evs evs' : List Event}

theorem State.Shows.of_eq (hcfg : t.cfg = s.cfg) (hdir : t.dir = s.dir) (hlat : t.lat = s.lat)
    (htrace : t.trace = s.trace) : s.Shows [] t :=
  ⟨hcfg, hdir, hlat, by rw [htrace, List.append_nil]⟩

theorem State.Shows.unwind (h : s.Shows evs t) (f : Frame) (callers : List Frame) :
    s.Shows evs (t.unwind f callers) :=
  ⟨by rw [unwind_cfg, h.cfg], by rw [unwind_dir, h.dir], by rw [unwind_lat, h.lat], by rw [unwind_trace, h.trace]⟩

end Shows

theorem testBusy_shows (s : State) (f : Frame) (callers : List Frame) : s.Shows [] (s.testBusy f callers) := by
  have hc : s.Shows [] s.countPoll := .of_eq rfl rfl rfl rfl
  rw [State.testBusy]
  split
  · split
    · exact .of_eq rfl rfl rfl rfl
    · exact hc.unwind _ _
  · exact State.Shows.unwind (.of_eq rfl rfl rfl rfl) _ _

/-- An action shows its event and no other. -/
theorem perform_shows (s : State) (a : Action) (f : Frame) (callers : List Frame) :
    s.Shows (a.emits s).toList (s.perform a f callers) := by
  cases a with
  | event ev => exact State.Shows.unwind (s := s) (t := s.emit ev) ⟨rfl, rfl, rfl, rfl⟩ _ _
  | drive p bit => exact State.Shows.unwind (s := s) (t := s.emit (setEvent p (s.dreg.getLsbD bit))) ⟨rfl, rfl, rfl, rfl⟩ _ _
  | sample p bit =>
    exact State.Shows.unwind (s := s) (t := { s.rd p with sreg := withBit s.sreg bit s.answer }) ⟨rfl, rfl, rfl, rfl⟩ _ _
  | call r => exact .of_eq rfl rfl rfl rfl
  | zeroCount => exact State.Shows.unwind (s := s) (t := s.zeroCount) (.of_eq rfl rfl rfl rfl) _ _
  | busyTest => exact testBusy_shows s f callers
  | boundsTest col =>
    rw [State.perform]
    split
    · exact .of_eq rfl rfl rfl rfl
    · exact State.Shows.unwind (.of_eq rfl rfl rfl rfl) _ _
  | newlineTest ch | lineTest | wrapTest => exact State.Shows.unwind (.of_eq rfl rfl rfl rfl) _ _

/-! ### The step list of `Initialize`, by number -/

/-- The nine events of one reset nibble and the delay after it (rule R161). -/
def resetNibbleEvents (cfg : Configuration) (x : Nibble × Nat) : List Event := putNibbleEvents cfg x.1 ++ [.dly x.2]

theorem resetEvents_getElem? (cfg : Configuration) (l : List (Nibble × Nat)) (m : Nat) :
    (resetEvents cfg l)[m]? = l[m / 9]?.bind fun x => (resetNibbleEvents cfg x)[m % 9]? := by
  induction l generalizing m with
  | nil => rfl
  | cons x l ih =>
    have hcons : resetEvents cfg (x :: l) = resetNibbleEvents cfg x ++ resetEvents cfg l := rfl
    have hlen : (resetNibbleEvents cfg x).length = 9 := rfl
    rw [hcons]
    by_cases hm : m < 9
    · rw [List.getElem?_append_left (hlen ▸ hm), Nat.div_eq_of_lt hm, Nat.mod_eq_of_lt hm]
      rfl
    · obtain ⟨k, rfl⟩ : ∃ k, m = k + 9 := ⟨m - 9, by omega⟩
      rw [List.getElem?_append_right (by omega), hlen, Nat.add_sub_cancel, ih, Nat.add_mod_right,
        Nat.add_div_right k (by decide)]
      rfl

/-- The events of steps I1 to I3, before the reset sequence (rule R160). -/
def initPrefix (cfg : Configuration) : List Event :=
  [.out .e, .out .rs, .out .rw, .out .db7, .out .db6, .out .db5, .out .db4, .lo .e, .lo .rs, .lo .rw, .dly cfg.tPowerOn]

/-- A step of `Initialize` is an event of steps I1 to I3, an event of a reset nibble, or a call of `WriteCommand`
(rules R160, R161). -/
theorem stepOf_init_cases {cfg : Configuration} {attributes : Byte} {n : Nat} {a : Action}
    (h : stepOf cfg (.init attributes) n = some a) :
    (n < 11 ∧ ∃ ev, (initPrefix cfg)[n]? = some ev ∧ a = .event ev) ∨
    (∃ m x ev, n = 11 + m ∧ m < 9 * cfg.resetSeq.length ∧ cfg.resetSeq[m / 9]? = some x ∧
      (resetNibbleEvents cfg x)[m % 9]? = some ev ∧ a = .event ev) ∨
    (11 + 9 * cfg.resetSeq.length ≤ n ∧ ∃ b, a = .call (.writeCommand b)) := by
  by_cases hn : n < 11 + 9 * cfg.resetSeq.length
  · rw [stepOf, initSteps_eq, List.getElem?_append_left (by simpa using hn), List.getElem?_map, Option.map_eq_some_iff] at h
    obtain ⟨ev, hev, rfl⟩ := h
    rw [show initPinEvents cfg = initPrefix cfg ++ resetEvents cfg cfg.resetSeq from rfl] at hev
    by_cases hn' : n < 11
    · rw [List.getElem?_append_left hn'] at hev
      exact .inl ⟨hn', ev, hev, rfl⟩
    · obtain ⟨m, rfl⟩ : ∃ m, n = 11 + m := ⟨n - 11, by omega⟩
      rw [List.getElem?_append_right (by simp [initPrefix])] at hev
      rw [show 11 + m - (initPrefix cfg).length = m by simp [initPrefix], resetEvents_getElem?,
        Option.bind_eq_some_iff] at hev
      obtain ⟨x, hx, hev⟩ := hev
      exact .inr (.inl ⟨m, x, ev, rfl, by omega, hx, hev, rfl⟩)
  · obtain ⟨k, rfl⟩ : ∃ k, n = 11 + 9 * cfg.resetSeq.length + k := ⟨n - (11 + 9 * cfg.resetSeq.length), by omega⟩
    rw [← length_initPinEvents, stepOf_init_call, Option.map_eq_some_iff] at h
    obtain ⟨b, _, rfl⟩ := h
    exact .inr (.inr ⟨by omega, b, rfl⟩)

/-! ### Calls -/

/-- A call, by the level of its caller (rules R31, R143, R148 to R150); `Initialize` calls after its reset sequence. -/
theorem stepOf_call_cases {cfg : Configuration} {r callee : Routine} {n : Nat} (h : stepOf cfg r n = some (.call callee)) :
    (r.level = 3 ∧ callee.level < 3 ∧ ∀ attributes, r = .init attributes → 11 + 9 * cfg.resetSeq.length ≤ n) ∨
    (r.level = 2 ∧ r ≠ .waitReady ∧ (callee = .waitReady ∨ callee.level = 1)) ∨
    (r = .waitReady ∧ callee.level = 1) := by
  cases r with
  | init attributes =>
    rcases stepOf_init_cases h with ⟨_, ev, _, he⟩ | ⟨m, x, ev, _, _, _, _, he⟩ | ⟨hn, b, hb⟩
    · cases he
    · cases he
    · cases hb
      exact .inl ⟨rfl, by simp [Routine.level], fun _ _ => hn⟩
  | clear | home =>
    simp only [stepOf] at h
    split at h <;> cases h
    exact .inl ⟨rfl, by simp [Routine.level], fun _ h => by cases h⟩
  | readStatus =>
    simp only [stepOf] at h
    split at h <;> cases h
    exact .inr (.inl ⟨rfl, by decide, .inl rfl⟩)
  | gotoXY col row =>
    simp only [stepOf] at h
    split at h
    · cases h
    · split at h <;> cases h
      exact .inl ⟨rfl, by simp [Routine.level], fun _ h => by cases h⟩
  | printChar ch =>
    simp only [stepOf, printCharStep] at h
    split at h <;> cases h <;> exact .inl ⟨rfl, by simp [Routine.level], fun _ h => by cases h⟩
  | writeCommand b | writeData b =>
    simp only [stepOf, gatedWriteStep] at h
    split at h <;> cases h
    · exact .inr (.inl ⟨rfl, by simp, .inl rfl⟩)
    · exact .inr (.inl ⟨rfl, by simp, .inr rfl⟩)
  | waitReady =>
    simp only [stepOf, waitReadyStep] at h
    split at h <;> cases h <;> exact .inr (.inr ⟨rfl, rfl⟩)
  | writeByte rs b =>
    simp only [stepOf, writeByteStep] at h
    split at h <;> cases h
  | readByte rs =>
    simp only [stepOf, readByteStep] at h
    split at h <;> cases h

/-- The routines whose every step is a call (rules R148 to R150, R164, R165). -/
def Routine.onlyCalls : Routine → Bool
  | .clear | .home | .writeCommand _ | .writeData _ | .readStatus => true
  | .init _ | .gotoXY _ _ | .printChar _ | .waitReady | .writeByte _ _ | .readByte _ => false

theorem stepOf_onlyCalls {cfg : Configuration} {r : Routine} {n : Nat} {a : Action} (hr : r.onlyCalls = true)
    (h : stepOf cfg r n = some a) : ∃ callee, a = .call callee := by
  cases r with
  | clear | home | readStatus =>
    simp only [stepOf] at h
    split at h <;> cases h
    exact ⟨_, rfl⟩
  | writeCommand b | writeData b =>
    simp only [stepOf, gatedWriteStep] at h
    split at h <;> cases h <;> exact ⟨_, rfl⟩
  | _ => cases hr

/-- Every routine has a first step. -/
theorem live_zero (cfg : Configuration) (r : Routine) : Frame.live cfg ⟨r, 0⟩ = true := by
  cases r <;> rfl

/-! ### The shape of `SEQ` -/

/-- Each frame was called by the one under it. -/
def CallChain (cfg : Configuration) (seq : List Frame) : Prop :=
  seq.IsChain fun f g => stepOf cfg g.routine g.step = some (.call f.routine)

theorem live_of_call {cfg : Configuration} {g : Frame} {callee : Routine}
    (h : stepOf cfg g.routine g.step = some (.call callee)) : g.live cfg = true := by
  rw [Frame.live, h]; rfl

theorem stackOk_iff (cfg : Configuration) (f : Frame) (callers : List Frame) :
    stackOk cfg (f :: callers) = true ↔ f.live cfg = true ∧ CallChain cfg (f :: callers) := by
  induction callers generalizing f with
  | nil => simp [stackOk, CallChain]
  | cons g callers ih =>
    simp only [stackOk, Bool.and_eq_true, ih, CallChain, List.isChain_cons_cons, Frame.callsFrame, beq_iff_eq]
    constructor
    · rintro ⟨⟨hf, hg⟩, _, hc⟩
      exact ⟨hf, hg, hc⟩
    · rintro ⟨hf, hg, hc⟩
      exact ⟨⟨hf, hg⟩, live_of_call hg, hc⟩

/-- What calls a frame calls it at any step. -/
theorem CallChain.of_routine_eq {cfg : Configuration} {f f' : Frame} {callers : List Frame}
    (h : CallChain cfg (f :: callers)) (hr : f'.routine = f.routine) : CallChain cfg (f' :: callers) := by
  cases callers with
  | nil => exact .singleton f'
  | cons g callers =>
    rw [CallChain, List.isChain_cons_cons] at h ⊢
    rwa [hr]

theorem CallChain.push {cfg : Configuration} {f : Frame} {r : Routine} {callers : List Frame}
    (hr : stepOf cfg f.routine f.step = some (.call r)) (h : CallChain cfg (f :: callers)) :
    CallChain cfg (⟨r, 0⟩ :: f :: callers) :=
  List.isChain_cons_cons.2 ⟨hr, h⟩

/-- A frame that is not the top one stands at a call. -/
theorem CallChain.call_of_suffix {cfg : Configuration} {f g : Frame} {callers rest : List Frame}
    (h : CallChain cfg (f :: callers)) (hs : g :: rest <:+ callers) :
    ∃ callee, stepOf cfg g.routine g.step = some (.call callee) := by
  induction callers generalizing f with
  | nil => exact absurd hs (by simp)
  | cons g' callers ih =>
    obtain ⟨hc, h⟩ := List.isChain_cons_cons.1 h
    rcases List.suffix_cons_iff.1 hs with heq | hs
    · cases heq
      exact ⟨_, hc⟩
    · exact ih h hs

/-- Where a return leads: to the frame itself while it has a further step, else to `IDLE` or to a caller, moved on past its
call (rule R32). -/
inductive ReturnsTo (cfg : Configuration) (f : Frame) (callers : List Frame) : List Frame → Prop where
  | self (live : f.live cfg = true) : ReturnsTo cfg f callers (f :: callers)
  | idle (dead : f.live cfg = false) : ReturnsTo cfg f callers []
  | caller (g : Frame) (rest : List Frame) (callee : Routine) (dead : f.live cfg = false)
      (chain : CallChain cfg (g.next :: rest)) (live : g.next.live cfg = true)
      (call : stepOf cfg g.routine g.step = some (.call callee)) : ReturnsTo cfg f callers (g.next :: rest)

theorem unwind_returnsTo (s : State) (f : Frame) {callers : List Frame} (h : CallChain s.cfg (f :: callers)) :
    ReturnsTo s.cfg f callers (s.unwind f callers).seq := by
  cases hl : f.live s.cfg with
  | true => rw [unwind_live s f callers hl]; exact .self hl
  | false =>
    rcases unwind_seq_cases s f callers with ⟨hl', _⟩ | hs | ⟨g, rest, hsub, hg, hs⟩
    · exact absurd hl' (by simp [hl])
    · rw [hs]; exact .idle hl
    · obtain ⟨callee, hcall⟩ := h.call_of_suffix hsub
      have hchain : CallChain s.cfg (g :: rest) := List.IsChain.suffix h (hsub.trans (List.suffix_cons _ _))
      rw [hs]
      exact .caller g rest callee hl (hchain.of_routine_eq rfl) hg hcall

/-! ### Kinds of actions -/

/-- The routines that have tests among their steps (rules R143, R167 to R171). -/
def Routine.hasTests : Routine → Bool
  | .waitReady | .gotoXY _ _ | .printChar _ => true
  | .init _ | .clear | .home | .writeCommand _ | .writeData _ | .readStatus | .writeByte _ _ | .readByte _ => false

section Kinds
variable {s : State} {f : Frame} {callers : List Frame} {a : Action} {ev : Event}

/-- An action that emits an event ends its frame's step (rule R32). -/
theorem perform_emits (hc : CallChain s.cfg (f :: callers)) (he : a.emits s = some ev) :
    (s.perform a f callers).dreg = s.dreg ∧ ReturnsTo s.cfg f.next callers (s.perform a f callers).seq := by
  have hn : CallChain s.cfg (f.next :: callers) := hc.of_routine_eq rfl
  cases a with
  | event ev => exact ⟨unwind_dreg _ _ _, unwind_returnsTo (s.emit ev) _ hn⟩
  | drive p bit => exact ⟨unwind_dreg _ _ _, unwind_returnsTo (s.emit (setEvent p (s.dreg.getLsbD bit))) _ hn⟩
  | sample p bit =>
    exact ⟨unwind_dreg _ _ _, unwind_returnsTo { s.rd p with sreg := withBit s.sreg bit s.answer } _ hn⟩
  | call | zeroCount | busyTest | boundsTest | newlineTest | lineTest | wrapTest => cases he

/-- A test that goes to a step its routine has stays in its frame. -/
theorem unwind_stays (s : State) (r : Routine) (n : Nat) (callers : List Frame) (h : Frame.live s.cfg ⟨r, n⟩ = true) :
    ∃ m, Frame.live s.cfg ⟨r, m⟩ = true ∧ (s.unwind ⟨r, n⟩ callers).seq = ⟨r, m⟩ :: callers :=
  ⟨n, h, by rw [unwind_live _ _ _ h]; rfl⟩

/-- An action that is no event and no call is a test, or step G0: it stays in its frame or ends the operation (rules R143,
R146, R167 to R171). -/
theorem perform_silent (ha : stepOf s.cfg f.routine f.step = some a) (he : a.emits s = none) (hcall : ∀ r, a ≠ .call r) :
    f.routine.hasTests = true ∧ ((s.perform a f callers).seq = [] ∨
      ∃ n, Frame.live s.cfg ⟨f.routine, n⟩ = true ∧ (s.perform a f callers).seq = ⟨f.routine, n⟩ :: callers) := by
  obtain ⟨r, n⟩ := f
  dsimp only at ha ⊢
  cases r with
  | init attributes =>
    rcases stepOf_init_cases ha with ⟨_, ev, _, rfl⟩ | ⟨m, x, ev, _, _, _, _, rfl⟩ | ⟨_, b, rfl⟩
    · cases he
    · cases he
    · exact absurd rfl (hcall _)
  | clear | home | readStatus | writeCommand | writeData =>
    obtain ⟨callee, rfl⟩ := stepOf_onlyCalls rfl ha
    exact absurd rfl (hcall _)
  | writeByte rs b =>
    simp only [stepOf, writeByteStep] at ha
    split at ha <;> cases ha <;> cases he
  | readByte rs =>
    simp only [stepOf, readByteStep] at ha
    split at ha <;> cases ha <;> cases he
  | gotoXY col row =>
    refine ⟨rfl, ?_⟩
    simp only [stepOf] at ha
    split at ha
    · cases ha
      subst n
      rw [State.perform]
      split
      · exact .inl rfl
      · exact .inr (unwind_stays s (.gotoXY col row) 1 callers rfl)
    · split at ha <;> cases ha
      exact absurd rfl (hcall _)
  | waitReady =>
    refine ⟨rfl, ?_⟩
    simp only [stepOf, waitReadyStep] at ha
    split at ha <;> cases ha
    case h_1 => exact .inr (unwind_stays s.zeroCount .waitReady 1 callers rfl)
    case h_3 =>
      rw [State.perform, State.testBusy]
      split
      · split
        · exact .inl rfl
        · exact .inr (unwind_stays s.countPoll .waitReady 1 callers rfl)
      · exact .inr (unwind_stays s .waitReady 3 callers rfl)
    case h_4 => cases he
    case h_2 | h_5 => exact absurd rfl (hcall _)
  | printChar ch =>
    refine ⟨rfl, ?_⟩
    simp only [stepOf, printCharStep] at ha
    split at ha <;> cases ha
    case h_2 =>
      rw [State.perform, State.jump]
      exact .inr (unwind_stays s (.printChar ch) _ callers (by split <;> rfl))
    case h_3 =>
      rw [State.perform, State.jump]
      exact .inr (unwind_stays s (.printChar ch) _ callers (by cases wrapCase s.cfg (currentAddress s.pos) <;> rfl))
    case h_11 =>
      rw [State.perform, State.jump]
      exact .inr (unwind_stays s (.printChar ch) _ callers (by split <;> rfl))
    all_goals exact absurd rfl (hcall _)

end Kinds

end Sys2Proof.Machine
end

section
/-! SUPPORT. The strobe a frame stands in, step by step, and the shape of `SEQ`. -/

namespace Sys2Proof.Machine

/-! ### The levels of the frames -/

/-- How many frames a routine's calls can put on it, itself counted: `WaitReady` is called within level L2 (rules R30, R31,
R148 to R150). -/
def Routine.depth : Routine → Nat
  | .init _ | .clear | .home | .gotoXY _ _ | .printChar _ => 4
  | .writeCommand _ | .writeData _ | .readStatus => 3
  | .waitReady => 2
  | .writeByte _ _ | .readByte _ => 1

theorem depth_pos (r : Routine) : 1 ≤ r.depth := by cases r <;> simp [Routine.depth]

theorem depth_le (r : Routine) : r.depth ≤ 4 := by cases r <;> simp [Routine.depth]

theorem depth_call {cfg : Configuration} {r callee : Routine} {n : Nat} (h : stepOf cfg r n = some (.call callee)) :
    callee.depth < r.depth := by
  rcases stepOf_call_cases h with ⟨hr, hc, _⟩ | ⟨hr, hne, rfl | hc⟩ | ⟨rfl, hc⟩
  · cases r <;> cases callee <;> simp [Routine.level, Routine.depth] at hr hc ⊢
  · cases r <;> simp [Routine.level, Routine.depth] at hr hne ⊢
  · cases r <;> cases callee <;> simp [Routine.level, Routine.depth] at hr hc hne ⊢
  · cases callee <;> simp [Routine.level, Routine.depth] at hc ⊢

theorem level_call {cfg : Configuration} {r callee : Routine} {n : Nat} (h : stepOf cfg r n = some (.call callee)) :
    callee.level < r.level ∨ (r.level = 2 ∧ callee = .waitReady) := by
  rcases stepOf_call_cases h with ⟨hr, hc, _⟩ | ⟨hr, _, rfl | hc⟩ | ⟨rfl, hc⟩
  · exact .inl (hr ▸ hc)
  · exact .inr ⟨hr, rfl⟩
  · exact .inl (by omega)
  · exact .inl (by rw [hc]; decide)

/-- The frames on a frame take up what its depth leaves. -/
theorem CallChain.length_le {cfg : Configuration} {f : Frame} {callers : List Frame} (h : CallChain cfg (f :: callers)) :
    callers.length + f.routine.depth ≤ 4 := by
  induction callers generalizing f with
  | nil => simpa using depth_le f.routine
  | cons g callers ih =>
    obtain ⟨hc, h⟩ := List.isChain_cons_cons.1 h
    have hlt := depth_call hc
    have hle := ih h
    rw [List.length_cons]
    omega

theorem State.Inv.callChain {s : State} {f : Frame} {callers : List Frame} (h : s.Inv) (hs : s.seq = f :: callers) :
    f.live s.cfg = true ∧ CallChain s.cfg (f :: callers) :=
  (stackOk_iff _ _ _).1 (hs ▸ h.stack)

/-- Settles O45: each call goes to a smaller depth, and no depth is above 4. -/
theorem sequencerHasAtMostFourFrames : Obligations.SequencerHasAtMostFourFrames := by
  intro s h
  cases hs : s.seq with
  | nil => decide
  | cons f callers =>
    have hle := (h.callChain hs).2.length_le
    have hpos := depth_pos f.routine
    rw [List.length_cons]
    omega

/-! ### Strobes -/

theorem setEvent_ne_hi {p q : Pin} (h : p ≠ q) (v : Bool) : setEvent p v ≠ .hi q := by
  cases v <;> simp [setEvent, h]

theorem strobePhase_writeByte {s : State} {rs : Bool} {b : Byte} {n : Nat} {a : Action} {ev : Event}
    (ha : writeByteStep s.cfg rs n = some a) (he : a.emits s = some ev) :
    ((⟨.writeByte rs b, n⟩ : Frame).strobePhase s.cfg).after s.cfg.tStrobe ev =
      some ((⟨.writeByte rs b, n + 1⟩ : Frame).strobePhase s.cfg) := by
  simp only [writeByteStep] at ha
  split at ha <;> cases ha <;> cases he <;> simp [Frame.strobePhase, StrobePhase.after, setEvent_ne_hi]

theorem strobePhase_readByte {s : State} {rs : Bool} {n : Nat} {a : Action} {ev : Event}
    (ha : readByteStep s.cfg rs n = some a) (he : a.emits s = some ev) :
    ((⟨.readByte rs, n⟩ : Frame).strobePhase s.cfg).after s.cfg.tStrobe ev =
      some ((⟨.readByte rs, n + 1⟩ : Frame).strobePhase s.cfg) := by
  simp only [readByteStep] at ha
  split at ha <;> cases ha <;> cases he <;>
    simp [Frame.strobePhase, StrobePhase.after, setEvent_ne_hi, Event.insideStrobe]

/-- The phase before event `k` of a reset nibble (rules R114, R161). -/
def nibblePhase (k : Nat) : StrobePhase :=
  if k = 5 then .rising else if k = 6 then .high else if k = 7 then .falling else .outside

theorem nibblePhase_after {cfg : Configuration} {x : Nibble × Nat} {k : Nat} {ev : Event} (hk : k < 9)
    (he : (resetNibbleEvents cfg x)[k]? = some ev) :
    (nibblePhase k).after cfg.tStrobe ev = some (nibblePhase ((k + 1) % 9)) := by
  interval_cases k <;> cases he <;> simp [nibblePhase, StrobePhase.after, setEvent_ne_hi]

theorem strobePhase_init_reset {cfg : Configuration} {attributes : Byte} {m : Nat} (hm : m ≤ 9 * cfg.resetSeq.length) :
    (⟨.init attributes, 11 + m⟩ : Frame).strobePhase cfg = nibblePhase (m % 9) := by
  rcases Nat.lt_or_eq_of_le hm with hlt | rfl
  · simp [Frame.strobePhase, nibblePhase, hlt]
  · simp [Frame.strobePhase, nibblePhase]

theorem strobePhase_init_outside {cfg : Configuration} {attributes : Byte} {n : Nat}
    (h : n ≤ 11 ∨ 11 + 9 * cfg.resetSeq.length ≤ n) :
    (⟨.init attributes, n⟩ : Frame).strobePhase cfg = .outside := by
  by_cases hn : n = 11
  · subst hn
    exact strobePhase_init_reset (m := 0) (Nat.zero_le _)
  · have hout : ¬ (11 ≤ n ∧ n < 11 + 9 * cfg.resetSeq.length) := by omega
    simp only [Frame.strobePhase, if_neg hout]

theorem strobePhase_init {s : State} {attributes : Byte} {n : Nat} {a : Action} {ev : Event}
    (ha : stepOf s.cfg (.init attributes) n = some a) (he : a.emits s = some ev) :
    ((⟨.init attributes, n⟩ : Frame).strobePhase s.cfg).after s.cfg.tStrobe ev =
      some ((⟨.init attributes, n + 1⟩ : Frame).strobePhase s.cfg) := by
  rcases stepOf_init_cases ha with ⟨hn, ev', hev, rfl⟩ | ⟨m, x, ev', rfl, hm, _, hev, rfl⟩ | ⟨_, b, rfl⟩ <;> cases he
  · rw [strobePhase_init_outside (.inl hn.le), strobePhase_init_outside (.inl hn)]
    interval_cases n <;> cases hev <;> rfl
  · have hmod : m % 9 < 9 := Nat.mod_lt m (by decide)
    rw [Nat.add_assoc, strobePhase_init_reset hm.le, strobePhase_init_reset hm, nibblePhase_after hmod hev,
      Nat.mod_add_mod]

/-- An event of a frame leads from the phase it stands in to the one of its next step (rules R37, R230). -/
theorem strobePhase_next {s : State} {f : Frame} {a : Action} {ev : Event}
    (ha : stepOf s.cfg f.routine f.step = some a) (he : a.emits s = some ev) :
    (f.strobePhase s.cfg).after s.cfg.tStrobe ev = some (f.next.strobePhase s.cfg) := by
  obtain ⟨r, n⟩ := f
  cases r with
  | init attributes => exact strobePhase_init ha he
  | writeByte rs b => exact strobePhase_writeByte ha he
  | readByte rs => exact strobePhase_readByte ha he
  | waitReady =>
    simp only [stepOf, waitReadyStep] at ha
    split at ha <;> cases ha <;> cases he
    rfl
  | clear | home | readStatus | writeCommand | writeData =>
    obtain ⟨callee, rfl⟩ := stepOf_onlyCalls rfl ha
    cases he
  | gotoXY col row =>
    simp only [stepOf] at ha
    split at ha
    · cases ha; cases he
    · split at ha <;> cases ha
      cases he
  | printChar ch =>
    simp only [stepOf, printCharStep] at ha
    split at ha <;> cases ha <;> cases he

/-- At a call and past it a frame stands in no strobe; so too at a test, and at the end of its steps. -/
theorem strobePhase_of_call {cfg : Configuration} {g : Frame} {callee : Routine}
    (h : stepOf cfg g.routine g.step = some (.call callee)) {n : Nat} (hn : g.step ≤ n) :
    (⟨g.routine, n⟩ : Frame).strobePhase cfg = .outside := by
  obtain ⟨r, k⟩ := g
  dsimp only at h hn ⊢
  rcases stepOf_call_cases h with ⟨hr, _, hinit⟩ | ⟨hr, _⟩ | ⟨rfl, _⟩
  · cases r with
    | init attributes => exact strobePhase_init_outside (.inr ((hinit _ rfl).trans hn))
    | clear | home | gotoXY | printChar => rfl
    | _ => cases hr
  · cases r with
    | writeCommand | writeData | readStatus | waitReady => rfl
    | _ => cases hr
  · rfl

theorem strobePhase_of_hasTests {cfg : Configuration} {f : Frame} (h : f.routine.hasTests = true) :
    f.strobePhase cfg = .outside := by
  obtain ⟨r, n⟩ := f
  cases r with
  | waitReady | gotoXY | printChar => rfl
  | _ => cases h

/-- The ends of the three step lists that have strobes (rules R126, R160). -/
theorem writeByte_ends {cfg : Configuration} {rs : Bool} {b : Byte} {n : Nat}
    (h : Frame.live cfg ⟨.writeByte rs b, n⟩ = false) : 26 ≤ n := by
  by_contra hn
  interval_cases n <;> cases h

theorem readByte_ends {cfg : Configuration} {rs : Bool} {n : Nat} (h : Frame.live cfg ⟨.readByte rs, n⟩ = false) :
    22 ≤ n := by
  by_contra hn
  interval_cases n <;> cases h

theorem init_ends {cfg : Configuration} {attributes : Byte} {n : Nat} (h : Frame.live cfg ⟨.init attributes, n⟩ = false) :
    11 + 9 * cfg.resetSeq.length ≤ n := by
  have hnone : (initSteps cfg attributes)[n]? = none := by simpa [Frame.live, stepOf] using h
  have hlen := List.getElem?_eq_none_iff.1 hnone
  rw [initSteps_eq, List.length_append, List.length_map, length_initPinEvents] at hlen
  exact (Nat.le_add_right _ _).trans hlen

theorem strobePhase_of_dead {cfg : Configuration} {f : Frame} (h : f.live cfg = false) :
    f.strobePhase cfg = .outside := by
  obtain ⟨r, n⟩ := f
  cases r with
  | init attributes => exact strobePhase_init_outside (.inr (init_ends h))
  | writeByte rs b =>
    have hn := writeByte_ends h
    simp (disch := omega) only [Frame.strobePhase, if_neg]
  | readByte rs =>
    have hn := readByte_ends h
    simp (disch := omega) only [Frame.strobePhase, if_neg]
  | _ => rfl

/-- An action that emits nothing is taken outside every strobe. -/
theorem strobePhase_of_silent {s : State} {f : Frame} {a : Action} (ha : stepOf s.cfg f.routine f.step = some a)
    (he : a.emits s = none) : f.strobePhase s.cfg = .outside := by
  by_cases hcall : ∃ r, a = .call r
  · obtain ⟨r, rfl⟩ := hcall
    exact strobePhase_of_call ha le_rfl
  · exact strobePhase_of_hasTests (perform_silent (callers := []) ha he fun r hr => hcall ⟨r, hr⟩).1

theorem strobePhase_of_seq {s : State} {f : Frame} {callers : List Frame} (h : s.seq = f :: callers) :
    s.strobePhase = f.strobePhase s.cfg := by
  rw [State.strobePhase, h]

/-- A return leaves the phase that the frame's next step stands in. -/
theorem ReturnsTo.strobePhase {t : State} {cfg : Configuration} {f : Frame} {callers : List Frame} (hcfg : t.cfg = cfg)
    (h : ReturnsTo cfg f callers t.seq) : t.strobePhase = f.strobePhase cfg := by
  subst hcfg
  generalize hq : t.seq = q at h
  cases h with
  | self live => exact strobePhase_of_seq hq
  | idle dead => rw [strobePhase_of_dead dead, State.strobePhase, hq]
  | caller g rest callee dead chain live call =>
    rw [strobePhase_of_dead dead, strobePhase_of_seq hq]
    exact strobePhase_of_call call (Nat.le_succ _)

theorem strobePhase_zero (cfg : Configuration) (r : Routine) : Frame.strobePhase cfg ⟨r, 0⟩ = .outside := by
  cases r <;> rfl

/-- The phase after one action of the sequencer, of which the trace shows the event (rule R37). -/
theorem perform_strobePhase {s : State} {f : Frame} {callers : List Frame} {a : Action}
    (hc : CallChain s.cfg (f :: callers)) (ha : stepOf s.cfg f.routine f.step = some a) :
    strobePhaseAfter s.cfg.tStrobe (f.strobePhase s.cfg) (a.emits s).toList = some (s.perform a f callers).strobePhase := by
  have hcfg : (s.perform a f callers).cfg = s.cfg := (perform_shows s a f callers).cfg
  cases he : a.emits s with
  | some ev =>
    have hret := (perform_emits hc he).2.strobePhase hcfg
    rw [hret]
    simp only [Option.toList_some, strobePhaseAfter, strobePhase_next ha he]
  | none =>
    rw [strobePhase_of_silent ha he]
    refine congrArg some (Eq.symm ?_)
    by_cases hcall : ∃ r, a = .call r
    · obtain ⟨r, rfl⟩ := hcall
      exact strobePhase_zero s.cfg r
    · obtain ⟨htest, hseq | ⟨n, _, hseq⟩⟩ := perform_silent (callers := callers) ha he fun r hr => hcall ⟨r, hr⟩
      · rw [State.strobePhase, hseq]
      · rw [strobePhase_of_seq hseq]
        exact strobePhase_of_hasTests htest

/-! ### `E` in a strobe -/

/-- The phases in which `E` is high: between `Hi(E)` and `Lo(E)` (rule R37). -/
def StrobePhase.enabled : StrobePhase → Bool
  | .rising | .high => true
  | .outside | .falling => false

theorem inStrobe_eq (cfg : Configuration) (f : Frame) : f.inStrobe cfg = (f.strobePhase cfg).enabled := by
  obtain ⟨r, n⟩ := f
  rw [Bool.eq_iff_iff]
  cases r with
  | init attributes =>
    simp only [Frame.inStrobe, Frame.strobePhase, Bool.and_eq_true, Bool.or_eq_true, decide_eq_true_eq, beq_iff_eq]
    split_ifs <;> simp only [StrobePhase.enabled, iff_true, iff_false, Bool.false_eq_true] <;> omega
  | writeByte rs b =>
    simp only [Frame.inStrobe, Frame.strobePhase, Bool.or_eq_true, beq_iff_eq]
    split_ifs <;> simp only [StrobePhase.enabled, iff_true, iff_false, Bool.false_eq_true] <;> omega
  | readByte rs =>
    simp only [Frame.inStrobe, Frame.strobePhase, Bool.and_eq_true, Bool.or_eq_true, decide_eq_true_eq]
    split_ifs <;> simp only [StrobePhase.enabled, iff_true, iff_false, Bool.false_eq_true] <;> omega
  | _ => exact Iff.rfl

theorem state_inStrobe_eq (s : State) : s.inStrobe = s.strobePhase.enabled := by
  rw [State.inStrobe, State.strobePhase]
  cases s.seq with
  | nil => rfl
  | cons f callers => exact inStrobe_eq s.cfg f

/-- Only `Hi(E)` and `Lo(E)` set the level of `E` (rule R22). -/
theorem latAfter_enable (ev : Event) (l : Bank Level) :
    (ev.latAfter l).e = if ev = .hi .e then .high else if ev = .lo .e then .low else l.e := by
  cases ev with
  | hi p | lo p => cases p <;> rfl
  | out | inp | rd | dly => rfl

/-- An event that keeps the shape of a strobe keeps `E` high exactly inside it. -/
theorem enabled_after {tStrobe : Nat} {phase phase' : StrobePhase} {ev : Event} {l : Bank Level}
    (h : phase.after tStrobe ev = some phase') (hl : l.e = .high ↔ phase.enabled = true) :
    (ev.latAfter l).e = .high ↔ phase'.enabled = true := by
  have hrest : ev ≠ .hi .e → ev ≠ .lo .e → (ev.latAfter l).e = l.e := fun h1 h2 => by
    rw [latAfter_enable, if_neg h1, if_neg h2]
  cases phase with
  | outside =>
    simp only [StrobePhase.after] at h
    split at h <;> cases h
    · subst ev; exact ⟨fun _ => rfl, fun _ => rfl⟩
    · by_cases hlo : ev = .lo .e
      · subst hlo
        constructor <;> intro h <;> cases h
      · rwa [hrest ‹_› hlo]
  | rising =>
    simp only [StrobePhase.after] at h
    split at h <;> cases h
    subst ev; exact hl
  | high =>
    simp only [StrobePhase.after] at h
    split at h
    · cases h
      subst ev
      constructor <;> intro h <;> cases h
    · split at h <;> cases h
      rwa [hrest (fun he => by subst he; contradiction) ‹_›]
  | falling =>
    simp only [StrobePhase.after] at h
    split at h <;> cases h
    subst ev; exact hl

end Sys2Proof.Machine
end

section
/-! SUPPORT. The pins and `SEQ` step by step: what each step of a transaction puts there, and what stays. -/

namespace Sys2Proof.Machine

/-! ### A value set at one step and held -/

section Held
variable {α : Type} {x x' u v w : α} {n i j k : Nat}

/-- A value that only step `i` sets stays from then on. -/
theorem held_of_set (hset : x' = if n = i then v else x) (hold : i + 1 ≤ n → x = v) : i + 1 ≤ n + 1 → x' = v := by
  intro h
  by_cases hn : n = i
  · rw [hset, if_pos hn]
  · rw [hset, if_neg hn, hold (by omega)]

/-- A value set at steps `i`, `j` and `k`: what step `i` set stays until step `j`. -/
theorem held_until_next (hset : x' = if n = i then v else if n = j then w else if n = k then u else x)
    (hlt : i < j ∧ j < k) (hold : i + 1 ≤ n → n ≤ j → x = v) : i + 1 ≤ n + 1 → n + 1 ≤ j → x' = v := by
  intro h h'
  by_cases hn : n = i
  · rw [hset, if_pos hn]
  · rw [hset, if_neg hn, if_neg (by omega), if_neg (by omega), hold (by omega) (by omega)]

/-- And what step `j` set stays until step `k`. -/
theorem held_until_last (hset : x' = if n = i then v else if n = j then w else if n = k then u else x)
    (hlt : i < j ∧ j < k) (hold : j + 1 ≤ n → n ≤ k → x = w) : j + 1 ≤ n + 1 → n + 1 ≤ k → x' = w := by
  intro h h'
  by_cases hn : n = j
  · rw [hset, if_neg (by omega), if_pos hn]
  · rw [hset, if_neg (by omega), if_neg hn, if_neg (by omega), hold (by omega) (by omega)]

end Held

/-! ### What each step puts on the pins -/

section WriteStep
variable {s : State} {rs : Bool} {n : Nat} {a : Action} {ev : Event}

/-- The steps of `WriteByte` that set a control pin (rule R126). -/
theorem writeByteStep_control (ha : writeByteStep s.cfg rs n = some a) (he : a.emits s = some ev) (l : Bank Level) :
    (ev.latAfter l).rs = (if n = 0 then levelOf rs else l.rs) ∧
    (ev.latAfter l).rw = (if n = 1 then .low else l.rw) := by
  simp only [writeByteStep] at ha
  split at ha <;> cases ha <;> cases he <;> simp

/-- The steps of `WriteByte` that make a data pin an output (rule R126). -/
theorem writeByteStep_dir (ha : writeByteStep s.cfg rs n = some a) (he : a.emits s = some ev) (d : Bank Dir) :
    (ev.dirAfter d).db7 = (if n = 2 then .out else d.db7) ∧ (ev.dirAfter d).db6 = (if n = 3 then .out else d.db6) ∧
    (ev.dirAfter d).db5 = (if n = 4 then .out else d.db5) ∧ (ev.dirAfter d).db4 = (if n = 5 then .out else d.db4) := by
  simp only [writeByteStep] at ha
  split at ha <;> cases ha <;> cases he <;> simp

/-- The steps of `WriteByte` that set a data latch (rule R126). -/
theorem writeByteStep_data (ha : writeByteStep s.cfg rs n = some a) (he : a.emits s = some ev) (l : Bank Level) :
    (ev.latAfter l).db7 =
      (if n = 6 then levelOf (s.dreg.getLsbD 7) else if n = 14 then levelOf (s.dreg.getLsbD 3) else
        if n = 22 then .high else l.db7) ∧
    (ev.latAfter l).db6 =
      (if n = 7 then levelOf (s.dreg.getLsbD 6) else if n = 15 then levelOf (s.dreg.getLsbD 2) else
        if n = 23 then .high else l.db6) ∧
    (ev.latAfter l).db5 =
      (if n = 8 then levelOf (s.dreg.getLsbD 5) else if n = 16 then levelOf (s.dreg.getLsbD 1) else
        if n = 24 then .high else l.db5) ∧
    (ev.latAfter l).db4 =
      (if n = 9 then levelOf (s.dreg.getLsbD 4) else if n = 17 then levelOf (s.dreg.getLsbD 0) else
        if n = 25 then .high else l.db4) := by
  simp only [writeByteStep] at ha
  split at ha <;> cases ha <;> cases he <;> simp

/-- A step of `WriteByte` keeps what the steps before it put on the pins and adds its own (rules R120, R233). -/
theorem writePins_next {b : Byte} {t : State} (h : WritePins s rs b n) (ha : writeByteStep s.cfg rs n = some a)
    (he : a.emits s = some ev) (ht : s.Shows [ev] t) (hdreg : t.dreg = s.dreg) : WritePins t rs b (n + 1) := by
  have hdir : t.dir = ev.dirAfter s.dir := ht.dir
  have hlat : t.lat = ev.latAfter s.lat := ht.lat
  obtain ⟨ers, erw⟩ := writeByteStep_control ha he s.lat
  obtain ⟨d7, d6, d5, d4⟩ := writeByteStep_dir ha he s.dir
  obtain ⟨e7, e6, e5, e4⟩ := writeByteStep_data ha he s.lat
  rw [← hdir] at d7 d6 d5 d4
  rw [← hlat] at ers erw
  rw [← hlat, h.byte] at e7 e6 e5 e4
  exact {
    byte := hdreg.trans h.byte
    rs := held_of_set ers h.rs
    rw := held_of_set erw h.rw
    out7 := held_of_set d7 h.out7
    out6 := held_of_set d6 h.out6
    out5 := held_of_set d5 h.out5
    out4 := held_of_set d4 h.out4
    hi7 := held_until_next e7 (by decide) h.hi7
    hi6 := held_until_next e6 (by decide) h.hi6
    hi5 := held_until_next e5 (by decide) h.hi5
    hi4 := held_until_next e4 (by decide) h.hi4
    lo7 := held_until_last e7 (by decide) h.lo7
    lo6 := held_until_last e6 (by decide) h.lo6
    lo5 := held_until_last e5 (by decide) h.lo5
    lo4 := held_until_last e4 (by decide) h.lo4 }

end WriteStep

section ReadStep
variable {s : State} {rs : Bool} {n : Nat} {a : Action} {ev : Event}

theorem readByteStep_control (ha : readByteStep s.cfg rs n = some a) (he : a.emits s = some ev) (l : Bank Level) :
    (ev.latAfter l).rs = (if n = 0 then levelOf rs else l.rs) ∧
    (ev.latAfter l).rw = (if n = 5 then .high else l.rw) := by
  simp only [readByteStep] at ha
  split at ha <;> cases ha <;> cases he <;> simp

theorem readByteStep_dir (ha : readByteStep s.cfg rs n = some a) (he : a.emits s = some ev) (d : Bank Dir) :
    (ev.dirAfter d).db7 = (if n = 1 then .inp else d.db7) ∧ (ev.dirAfter d).db6 = (if n = 2 then .inp else d.db6) ∧
    (ev.dirAfter d).db5 = (if n = 3 then .inp else d.db5) ∧ (ev.dirAfter d).db4 = (if n = 4 then .inp else d.db4) := by
  simp only [readByteStep] at ha
  split at ha <;> cases ha <;> cases he <;> simp

/-- A step of `ReadByte` keeps what the steps before it put on the pins and adds its own (rules R122, R234). -/
theorem readPins_next {t : State} (h : ReadPins s rs n) (ha : readByteStep s.cfg rs n = some a)
    (he : a.emits s = some ev) (ht : s.Shows [ev] t) : ReadPins t rs (n + 1) := by
  have hdir : t.dir = ev.dirAfter s.dir := ht.dir
  have hlat : t.lat = ev.latAfter s.lat := ht.lat
  obtain ⟨ers, erw⟩ := readByteStep_control ha he s.lat
  obtain ⟨d7, d6, d5, d4⟩ := readByteStep_dir ha he s.dir
  rw [← hdir] at d7 d6 d5 d4
  rw [← hlat] at ers erw
  exact {
    rs := held_of_set ers h.rs
    in7 := held_of_set d7 h.in7
    in6 := held_of_set d6 h.in6
    in5 := held_of_set d5 h.in5
    in4 := held_of_set d4 h.in4
    rw := held_of_set erw h.rw }

end ReadStep

section InitStep
variable {s : State} {attributes : Byte} {n : Nat} {a : Action} {ev : Event}

/-- The reset half-cycles touch no direction, no `RS` and no `RW` (rule R161). -/
theorem resetNibbleEvents_spare (cfg : Configuration) (x : Nibble × Nat) (d : Bank Dir) (l : Bank Level) :
    ∀ ev ∈ resetNibbleEvents cfg x,
      ev.dirAfter d = d ∧ (ev.latAfter l).rs = l.rs ∧ (ev.latAfter l).rw = l.rw := by
  simp [resetNibbleEvents, putNibbleEvents]

/-- The steps of `Initialize` that make a pin an output (rule R160). -/
theorem stepOf_init_dir (ha : stepOf s.cfg (.init attributes) n = some a) (he : a.emits s = some ev) (d : Bank Dir) :
    (ev.dirAfter d).e = (if n = 0 then .out else d.e) ∧ (ev.dirAfter d).rs = (if n = 1 then .out else d.rs) ∧
    (ev.dirAfter d).rw = (if n = 2 then .out else d.rw) ∧
    (ev.dirAfter d).db7 = (if n = 3 then .out else d.db7) ∧ (ev.dirAfter d).db6 = (if n = 4 then .out else d.db6) ∧
    (ev.dirAfter d).db5 = (if n = 5 then .out else d.db5) ∧ (ev.dirAfter d).db4 = (if n = 6 then .out else d.db4) := by
  rcases stepOf_init_cases ha with ⟨hn, ev', hev, rfl⟩ | ⟨m, x, ev', rfl, hm, _, hev, rfl⟩ | ⟨_, b, rfl⟩ <;> cases he
  · interval_cases n <;> cases hev <;> simp
  · have hspare := (resetNibbleEvents_spare s.cfg x d s.lat ev (List.mem_of_getElem? hev)).1
    rw [hspare]
    simp (disch := omega) only [if_neg, and_self]

/-- The steps of `Initialize` that set `RS` and `RW` low (rule R160). -/
theorem stepOf_init_control (ha : stepOf s.cfg (.init attributes) n = some a) (he : a.emits s = some ev) (l : Bank Level) :
    (ev.latAfter l).rs = (if n = 8 then .low else l.rs) ∧ (ev.latAfter l).rw = (if n = 9 then .low else l.rw) := by
  rcases stepOf_init_cases ha with ⟨hn, ev', hev, rfl⟩ | ⟨m, x, ev', rfl, hm, _, hev, rfl⟩ | ⟨_, b, rfl⟩ <;> cases he
  · interval_cases n <;> cases hev <;> simp
  · obtain ⟨_, hrs, hrw⟩ := resetNibbleEvents_spare s.cfg x s.dir l ev (List.mem_of_getElem? hev)
    rw [hrs, hrw]
    simp (disch := omega) only [if_neg, and_self]

/-- A step of `Initialize` keeps what the steps before it put on the pins and adds its own (rule R160). -/
theorem initPins_next {t : State} (h : InitPins s n) (ha : stepOf s.cfg (.init attributes) n = some a)
    (he : a.emits s = some ev) (ht : s.Shows [ev] t) : InitPins t (n + 1) := by
  have hdir : t.dir = ev.dirAfter s.dir := ht.dir
  have hlat : t.lat = ev.latAfter s.lat := ht.lat
  obtain ⟨de, drs, drw, d7, d6, d5, d4⟩ := stepOf_init_dir ha he s.dir
  obtain ⟨ers, erw⟩ := stepOf_init_control ha he s.lat
  rw [← hdir] at de drs drw d7 d6 d5 d4
  rw [← hlat] at ers erw
  exact {
    outE := held_of_set de h.outE
    outRs := held_of_set drs h.outRs
    outRw := held_of_set drw h.outRw
    out7 := held_of_set d7 h.out7
    out6 := held_of_set d6 h.out6
    out5 := held_of_set d5 h.out5
    out4 := held_of_set d4 h.out4
    rs := held_of_set ers h.rs
    rw := held_of_set erw h.rw }

end InitStep

/-! ### The pins of a frame -/

/-- The pins show what the frame's transaction has put there. -/
def Frame.PinsOk (s : State) (f : Frame) : Prop :=
  match f.routine with
  | .init _ => f.step ≤ 11 + 9 * s.cfg.resetSeq.length → InitPins s f.step
  | .writeByte rs b => WritePins s rs b f.step
  | .readByte rs => ReadPins s rs f.step
  | _ => True

theorem pinsOk_cons {s : State} {f : Frame} {callers : List Frame} (h : s.seq = f :: callers) :
    s.PinsOk ↔ f.PinsOk s := by
  obtain ⟨r, n⟩ := f
  rw [State.PinsOk, h]
  cases r <;> exact Iff.rfl

theorem pinsOk_idle {s : State} (h : s.seq = []) : s.PinsOk := by
  rw [State.PinsOk, h]; exact True.intro

theorem pinsOk_of_hasTests {s : State} {f : Frame} (h : f.routine.hasTests = true) : f.PinsOk s := by
  obtain ⟨r, n⟩ := f
  cases r with
  | waitReady | gotoXY | printChar => exact True.intro
  | _ => cases h

/-- Past a call nothing is asked of the pins. -/
theorem pinsOk_past_call {s : State} {g : Frame} {callee : Routine}
    (h : stepOf s.cfg g.routine g.step = some (.call callee)) : g.next.PinsOk s := by
  obtain ⟨r, k⟩ := g
  dsimp only at h
  rcases stepOf_call_cases h with ⟨hr, _, hinit⟩ | ⟨hr, _⟩ | ⟨rfl, _⟩
  · cases r with
    | init attributes =>
      intro hle
      have hk := hinit _ rfl
      exact absurd hle (by simp only [Frame.next]; omega)
    | clear | home | gotoXY | printChar => exact True.intro
    | _ => cases hr
  · cases r with
    | writeCommand | writeData | readStatus | waitReady => exact True.intro
    | _ => cases hr
  · exact True.intro

/-- A routine starts with nothing asked of the pins; `WriteByte` has its byte in `DREG` (rule R26). -/
theorem pinsOk_call (s : State) (r : Routine) (callers : List Frame) : (s.call r callers).PinsOk := by
  refine (pinsOk_cons rfl).2 ?_
  cases r with
  | init attributes =>
    intro _
    constructor <;> intro h <;> exact absurd h (Nat.not_succ_le_zero _)
  | writeByte rs b =>
    refine ⟨rfl, ?_, ?_, ?_, ?_, ?_, ?_, ?_, ?_, ?_, ?_, ?_, ?_, ?_, ?_⟩ <;> intro h <;>
      exact absurd h (Nat.not_succ_le_zero _)
  | readByte rs => constructor <;> intro h <;> exact absurd h (Nat.not_succ_le_zero _)
  | _ => exact True.intro

/-- An event moves the pins of its frame on by one step. -/
theorem pinsOk_next {s t : State} {f : Frame} {a : Action} {ev : Event} (h : f.PinsOk s)
    (ha : stepOf s.cfg f.routine f.step = some a) (he : a.emits s = some ev) (ht : s.Shows [ev] t)
    (hdreg : t.dreg = s.dreg) : f.next.PinsOk t := by
  obtain ⟨r, n⟩ := f
  cases r with
  | init attributes =>
    intro hle
    rw [ht.cfg] at hle
    exact initPins_next (h ((Nat.le_succ n).trans hle)) ha he ht
  | writeByte rs b => exact writePins_next h ha he ht hdreg
  | readByte rs => exact readPins_next h ha he ht
  | _ => exact True.intro

theorem ReturnsTo.pinsOk {t : State} {cfg : Configuration} {f : Frame} {callers : List Frame} (hcfg : t.cfg = cfg)
    (h : ReturnsTo cfg f callers t.seq) (hf : f.PinsOk t) : t.PinsOk := by
  subst hcfg
  generalize hq : t.seq = q at h
  cases h with
  | self live => exact (pinsOk_cons hq).2 hf
  | idle dead => exact pinsOk_idle hq
  | caller g rest callee dead chain live call => exact (pinsOk_cons hq).2 (pinsOk_past_call call)

theorem ReturnsTo.stackOk {cfg : Configuration} {f : Frame} {callers q : List Frame}
    (h : ReturnsTo cfg f callers q) (hc : CallChain cfg (f :: callers)) : stackOk cfg q = true := by
  cases h with
  | self live => exact (stackOk_iff _ _ _).2 ⟨live, hc⟩
  | idle dead => rfl
  | caller g rest callee dead chain live call => exact (stackOk_iff _ _ _).2 ⟨live, chain⟩

/-! ### The invariant -/

theorem enableOk_iff (s : State) : s.EnableOk ↔ (s.lat.e = .high ↔ s.strobePhase.enabled = true) := by
  rw [State.EnableOk, state_inStrobe_eq]

/-- One action of the sequencer keeps the invariant. -/
theorem perform_inv {s : State} {f : Frame} {callers : List Frame} {a : Action} (h : s.Inv) (hs : s.seq = f :: callers)
    (ha : stepOf s.cfg f.routine f.step = some a) : (s.perform a f callers).Inv := by
  obtain ⟨hlive, hc⟩ := h.callChain hs
  have henable := (enableOk_iff s).1 h.enable
  rw [strobePhase_of_seq hs] at henable
  have hphase := perform_strobePhase hc ha
  have hshows := perform_shows s a f callers
  have hcfg := hshows.cfg
  cases he : a.emits s with
  | some ev =>
    rw [he] at hshows hphase
    obtain ⟨hdreg, hret⟩ := perform_emits hc he
    have hpins := pinsOk_next ((pinsOk_cons hs).1 h.pins) ha he hshows hdreg
    refine ⟨hcfg ▸ hret.stackOk (hc.of_routine_eq rfl), (enableOk_iff _).2 ?_, hret.pinsOk hcfg hpins⟩
    rw [hret.strobePhase hcfg, hshows.lat]
    exact enabled_after (strobePhase_next ha he) henable
  | none =>
    rw [he] at hshows hphase
    have hlat : (s.perform a f callers).lat = s.lat := hshows.lat
    have hsame : (s.perform a f callers).strobePhase = f.strobePhase s.cfg := (Option.some.inj hphase).symm
    have henable' : (s.perform a f callers).EnableOk := (enableOk_iff _).2 (by rw [hlat, hsame]; exact henable)
    by_cases hcall : ∃ r, a = .call r
    · obtain ⟨r, rfl⟩ := hcall
      exact ⟨(stackOk_iff _ _ _).2 ⟨live_zero _ r, hc.push ha⟩, henable', pinsOk_call s r _⟩
    · obtain ⟨htest, hseq | ⟨n, hn, hseq⟩⟩ := perform_silent (callers := callers) ha he fun r hr => hcall ⟨r, hr⟩
      · exact ⟨by rw [hseq]; rfl, henable', pinsOk_idle hseq⟩
      · refine ⟨?_, henable', (pinsOk_cons hseq).2 (pinsOk_of_hasTests htest)⟩
        rw [hseq, hcfg]
        exact (stackOk_iff _ _ _).2 ⟨hn, hc.of_routine_eq rfl⟩

end Sys2Proof.Machine
end

section
/-! SUPPORT. An instruction run at once, as a row of whole transactions and gates: what all of them keep, an instruction keeps. -/

namespace Sys2Proof.Machine

/-! ### What an operation is made of -/

/-- The instruction waits at a gate: every command, but no cycle kind and no controller byte (rules R90, R120, R122, R140). -/
def HasGate (i : Instr) : Prop := plainWrite i = false ∧ i ≠ .busRs ∧ i ≠ .busRd

/-- One thing an instruction does when it runs at once: a whole write or read, a whole gate, the pin set-up of `INIT`, or the
assignment to `POS` of `PUTC` (rules R120, R122, R143, R146, R160, R168). -/
inductive Act (i : Instr) (s : State) : State → Prop where
  | pins (h : ∃ attributes, i = .init attributes) : Act i s s.pinsSetUp
  | position (h : ∃ ch, i = .putc ch) : Act i s s.takePosition
  | write (h : endsInRead i = false) (rs : Bool) (b : Byte) : Act i s (s.wrote rs b)
  | read (h : i = .busRs ∨ i = .busRd) (rs : Bool) (b : Byte) : Act i s (s.hasRead rs b)
  | gate (h : HasGate i) (g : Gate) : Act i s (s.gated g)
  | timeout (h : HasGate i) (polls : List Byte) (hmax : s.cfg.maxPoll = some polls.length) : Act i s (s.timedOutAfter polls)

/-- A row of them. -/
def Acts (i : Instr) : State → State → Prop := Relation.ReflTransGen (Act i)

theorem Acts.refl {i : Instr} (s : State) : Acts i s s := Relation.ReflTransGen.refl

theorem Acts.tail {i : Instr} {s t u : State} (h : Acts i s t) (hact : Act i t u) : Acts i s u :=
  Relation.ReflTransGen.tail h hact

/-- The end or the failure the operation comes to has the property. -/
def Progress.All (P : State → Prop) : Progress → Prop
  | .done t => P t
  | .failed _ t => P t
  | .undetermined => True

theorem andThen_all {P Q : State → Prop} {p : Progress} {f : State → Progress} (hp : p.All P) (hPQ : ∀ t, P t → Q t)
    (hf : ∀ t, P t → (f t).All Q) : (p.andThen f).All Q := by
  cases p with
  | done t => exact hf t hp
  | failed k t => exact hPQ t hp
  | undetermined => exact True.intro

section Operations
variable {i : Instr} {s t : State}

theorem waitReady_acts (hi : HasGate i) (h : Acts i s t) : (waitReady t).All (Acts i s) := by
  rcases waitReady_cases t with he | ⟨g, _, _, _, _, _, he⟩ | ⟨polls, _, _, _, _, hmax, he⟩ <;> rw [he]
  · exact True.intro
  · exact h.tail (.gate hi g)
  · exact h.tail (.timeout hi polls hmax)

theorem writeByte_acts (hi : endsInRead i = false) (rs : Bool) (b : Byte) (h : Acts i s t) :
    Acts i s (writeByte rs b t) :=
  writeByte_eq rs b t ▸ h.tail (.write hi rs b)

theorem writeCommand_acts (hg : HasGate i) (hw : endsInRead i = false) (b : Byte) (h : Acts i s t) :
    (writeCommand b t).All (Acts i s) :=
  andThen_all (waitReady_acts hg h) (fun _ => id) fun _ h => writeByte_acts hw false b h

theorem initAll_acts (attributes : Byte) (s : State) : (initAll attributes s).All (Acts (.init attributes) s) := by
  have hg : HasGate (.init attributes) := ⟨rfl, by simp, by simp⟩
  have hpins : Acts (.init attributes) s (initPins s) := initPins_eq s ▸ (Acts.refl s).tail (.pins ⟨_, rfl⟩)
  refine andThen_all hpins (fun _ => id) fun _ h => ?_
  refine andThen_all (writeCommand_acts hg rfl _ h) (fun _ => id) fun _ h => ?_
  refine andThen_all (writeCommand_acts hg rfl _ h) (fun _ => id) fun _ h => ?_
  refine andThen_all (writeCommand_acts hg rfl _ h) (fun _ => id) fun _ h => ?_
  exact writeCommand_acts hg rfl _ h

theorem wrapPath_acts (hg : HasGate i) (hw : endsInRead i = false) (a : Address) (h : Acts i s t) :
    (wrapPath a t).All (Acts i s) := by
  rw [wrapPath]
  split
  · exact h
  · exact waitReady_acts hg (writeByte_acts hw false _ h)
  · exact waitReady_acts hg (writeByte_acts hw false _ h)

theorem printChar_acts (ch : Byte) (s : State) : (printChar ch s).All (Acts (.putc ch) s) := by
  have hg : HasGate (.putc ch) := ⟨rfl, by simp, by simp⟩
  refine andThen_all (waitReady_acts hg (Acts.refl s)) (fun _ => id) fun t h => ?_
  have hpos : Acts (.putc ch) s t.takePosition := h.tail (.position ⟨ch, rfl⟩)
  dsimp only
  split
  · exact writeCommand_acts hg rfl _ hpos
  · exact andThen_all (wrapPath_acts hg rfl _ hpos) (fun _ => id) fun _ h => writeByte_acts rfl true ch h

/-- Every instruction is a row of whole transactions and gates. -/
theorem progressOf_acts (i : Instr) (s : State) : (progressOf i s).All (Acts i s) := by
  cases i with
  | init attributes => exact initAll_acts attributes s
  | clear | home | wrcmd => exact writeCommand_acts ⟨rfl, by simp, by simp⟩ rfl _ (Acts.refl s)
  | gotoxy col row =>
    rw [progressOf, gotoXY]
    split
    · exact Acts.refl s
    · exact writeCommand_acts ⟨rfl, by simp, by simp⟩ rfl _ (Acts.refl s)
  | putc ch => exact printChar_acts ch s
  | wrdata b =>
    exact andThen_all (waitReady_acts ⟨rfl, by simp, by simp⟩ (Acts.refl s)) (fun _ => id) fun _ h =>
      writeByte_acts rfl true b h
  | rdstat => exact waitReady_acts ⟨rfl, by simp, by simp⟩ (Acts.refl s)
  | busRs => exact (Acts.refl s).tail (.read (.inl rfl) _ _)
  | busRd => exact (Acts.refl s).tail (.read (.inr rfl) _ _)
  | busWi | busWd | lcdClear | lcdHome | lcdEntry | lcdDisplay | lcdFunction | lcdSetddram =>
    exact (Acts.refl s).tail (.write rfl _ _)

/-- Only a gate can want for answers. -/
theorem hasGate_of_undetermined (h : progressOf i s = .undetermined) : HasGate i := by
  cases i with
  | busWi | busWd | busRs | busRd | lcdClear | lcdHome | lcdEntry | lcdDisplay | lcdFunction | lcdSetddram => cases h
  | _ => exact ⟨rfl, by simp, by simp⟩

/-- What an instruction that `exec` runs on an idle block comes to: a row of transactions and gates and then its answer, or
the sequencer's start. -/
theorem exec_idle_cases (hs : s.seq = []) (h : exec i s = .next t) :
    (∃ u r, Acts i s.accept u ∧ t = { u with seq := [], rsp := r }) ∨
      (HasGate i ∧ t = s.start (entryRoutine s.cfg i)) := by
  have hacts := progressOf_acts i s.accept
  cases hp : progressOf i s.accept with
  | done u =>
    rw [hp] at hacts
    cases (exec_done i s u hs hp).symm.trans h
    exact .inl ⟨u, _, hacts, rfl⟩
  | failed k u =>
    rw [hp] at hacts
    cases (exec_failed i s u k hs hp).symm.trans h
    exact .inl ⟨u, _, hacts, rfl⟩
  | undetermined =>
    cases (exec_undetermined i s hs hp).symm.trans h
    exact .inr ⟨hasGate_of_undetermined hp, rfl⟩

end Operations

/-! ### The frame -/

/-- What an instruction leaves alone, by its kind (rules R26 to R29). -/
structure State.KeepsFrame (i : Instr) (s t : State) : Prop where
  cfg : t.cfg = s.cfg
  pos : (∀ ch, i ≠ .putc ch) → t.pos = s.pos
  dreg : endsInRead i = true → t.dreg = s.dreg
  reads : plainWrite i = true → t.sreg = s.sreg ∧ t.answers = s.answers ∧ t.draws = s.draws
  pcnt : s.cfg.maxPoll = none ∨ plainWrite i = true ∨ i = .busRs ∨ i = .busRd → t.pcnt = s.pcnt
  control : (∀ attributes, i ≠ .init attributes) → t.dir.e = s.dir.e ∧ t.dir.rs = s.dir.rs ∧ t.dir.rw = s.dir.rw

section KeepsFrame
variable {i : Instr} {s t u : State}

theorem State.KeepsFrame.trans (h : s.KeepsFrame i t) (h' : t.KeepsFrame i u) : s.KeepsFrame i u where
  cfg := h'.cfg.trans h.cfg
  pos hi := (h'.pos hi).trans (h.pos hi)
  dreg hi := (h'.dreg hi).trans (h.dreg hi)
  reads hi := by
    obtain ⟨hs, ha, hd⟩ := h.reads hi
    obtain ⟨hs', ha', hd'⟩ := h'.reads hi
    exact ⟨hs'.trans hs, ha'.trans ha, hd'.trans hd⟩
  pcnt hi := (h'.pcnt (h.cfg ▸ hi)).trans (h.pcnt hi)
  control hi := by
    obtain ⟨he, hr, hw⟩ := h.control hi
    obtain ⟨he', hr', hw'⟩ := h'.control hi
    exact ⟨he'.trans he, hr'.trans hr, hw'.trans hw⟩

theorem State.KeepsFrame.refl (i : Instr) (s : State) : s.KeepsFrame i s :=
  ⟨rfl, fun _ => rfl, fun _ => rfl, fun _ => ⟨rfl, rfl, rfl⟩, fun _ => rfl, fun _ => ⟨rfl, rfl, rfl⟩⟩

/-- A gate touches `PCNT` only with `MAX_POLL` a number (rules R29, R143, R146). -/
theorem hasGate_cases {P : Prop} (hg : HasGate i) (hm : s.cfg.maxPoll = none → P)
    (h : s.cfg.maxPoll = none ∨ plainWrite i = true ∨ i = .busRs ∨ i = .busRd) : P := by
  obtain ⟨hplain, hrs, hrd⟩ := hg
  rcases h with h | h | h | h
  · exact hm h
  · exact absurd h (by simp [hplain])
  · exact absurd h hrs
  · exact absurd h hrd

/-- Each transaction and each gate keeps the frame of the instructions that make it. -/
theorem act_keepsFrame (h : Act i s t) : s.KeepsFrame i t := by
  cases h with
  | pins h =>
    obtain ⟨attributes, rfl⟩ := h
    exact ⟨rfl, fun _ => rfl, fun _ => rfl, fun _ => ⟨rfl, rfl, rfl⟩, fun _ => rfl, fun hi => absurd rfl (hi attributes)⟩
  | position h =>
    obtain ⟨ch, rfl⟩ := h
    exact ⟨rfl, fun hi => absurd rfl (hi ch), fun _ => rfl, fun _ => ⟨rfl, rfl, rfl⟩, fun _ => rfl,
      fun _ => ⟨rfl, rfl, rfl⟩⟩
  | write h rs b =>
    exact ⟨rfl, fun _ => rfl, fun hr => absurd hr (by simp [h]), fun _ => ⟨rfl, rfl, rfl⟩, fun _ => rfl,
      fun _ => ⟨rfl, rfl, rfl⟩⟩
  | read h rs b =>
    have hplain : plainWrite i ≠ true := by rcases h with rfl | rfl <;> decide
    exact ⟨rfl, fun _ => rfl, fun _ => rfl, fun hp => absurd hp hplain, fun _ => rfl, fun _ => ⟨rfl, rfl, rfl⟩⟩
  | gate hg g =>
    refine ⟨rfl, fun _ => rfl, fun _ => rfl, fun hp => absurd hp (by simp [hg.1]), hasGate_cases hg fun hm => ?_,
      fun _ => ⟨rfl, rfl, rfl⟩⟩
    simp [State.gated, countAfter, hm]
  | timeout hg polls hmax =>
    exact ⟨rfl, fun _ => rfl, fun _ => rfl, fun hp => absurd hp (by simp [hg.1]),
      hasGate_cases hg fun hm => absurd (hmax.symm.trans hm) (by simp), fun _ => ⟨rfl, rfl, rfl⟩⟩

theorem acts_keepFrame (h : Acts i s t) : s.KeepsFrame i t := by
  induction h with
  | refl => exact .refl i s
  | tail _ hact ih => exact ih.trans (act_keepsFrame hact)

theorem exec_keepsFrame (h : exec i s = .next t) : s.KeepsFrame i t := by
  by_cases hs : s.seq = []
  · rcases exec_idle_cases hs h with ⟨u, r, hu, rfl⟩ | ⟨hg, rfl⟩
    · obtain ⟨hcfg, hpos, hdreg, hreads, hpcnt, hcontrol⟩ := acts_keepFrame hu
      exact ⟨hcfg, hpos, hdreg, hreads, hpcnt, hcontrol⟩
    · refine ⟨rfl, fun _ => rfl, fun hr => ?_, fun _ => ⟨rfl, rfl, rfl⟩, fun _ => rfl, fun _ => ⟨rfl, rfl, rfl⟩⟩
      cases i with
      | rdstat | busRs | busRd => rfl
      | _ => cases hr
  · cases (exec_busy i s hs).symm.trans h
    exact .refl i s

end KeepsFrame

/-- Settles O50: the frame all instructions share, and what each kind leaves alone. -/
theorem everyInstructionKeepsItsFrame : Obligations.EveryInstructionKeepsItsFrame := by
  intro i s t h
  have hall := exec_extends h
  have hkind := exec_keepsFrame h
  obtain ⟨evs, htrace, _⟩ := hall.trace
  exact ⟨hall.cfg, hall.cmds, hall.text, ⟨evs, htrace⟩, hkind.pos, hkind.dreg, hkind.reads, hkind.pcnt, hkind.control⟩

/-! ### Strobes -/

/-- From `s` the block comes to `t` with whole strobes. -/
structure State.Strobes (s t : State) : Prop where
  cfg : t.cfg = s.cfg
  trace : ∃ evs, t.trace = s.trace ++ evs ∧ strobePhaseAfter s.cfg.tStrobe .outside evs = some .outside

theorem strobePhaseAfter_write (cfg : Configuration) (rs : Bool) (b : Byte) :
    strobePhaseAfter cfg.tStrobe .outside (writeEvents cfg rs b) = some .outside := by
  simp [writeEvents, strobePhaseAfter, StrobePhase.after, setEvent_ne_hi]

theorem strobePhaseAfter_read (cfg : Configuration) (rs : Bool) (b : Byte) :
    strobePhaseAfter cfg.tStrobe .outside (readEvents cfg rs b) = some .outside := by
  simp [readEvents, strobePhaseAfter, StrobePhase.after, setEvent_ne_hi, Event.insideStrobe]

/-- Rows of events with whole strobes, one after the other. -/
theorem strobePhaseAfter_flatMap {α : Type} (tStrobe : Nat) (l : List α) (f : α → List Event)
    (h : ∀ x ∈ l, strobePhaseAfter tStrobe .outside (f x) = some .outside) :
    strobePhaseAfter tStrobe .outside (l.flatMap f) = some .outside := by
  induction l with
  | nil => rfl
  | cons x l ih =>
    rw [List.flatMap_cons, strobePhaseAfter_append, h x List.mem_cons_self]
    exact ih fun y hy => h y (List.mem_cons_of_mem x hy)

theorem strobePhaseAfter_polls (cfg : Configuration) (bytes : List Byte) :
    strobePhaseAfter cfg.tStrobe .outside (pollEvents cfg bytes) = some .outside :=
  strobePhaseAfter_flatMap _ _ _ fun b _ => strobePhaseAfter_read cfg false b

theorem strobePhaseAfter_gate (cfg : Configuration) (g : Gate) :
    strobePhaseAfter cfg.tStrobe .outside (g.events cfg) = some .outside := by
  rw [Gate.events, strobePhaseAfter_append, strobePhaseAfter_append, strobePhaseAfter_polls]
  exact strobePhaseAfter_read cfg false g.reread

theorem strobePhaseAfter_initPins (cfg : Configuration) :
    strobePhaseAfter cfg.tStrobe .outside (initPinEvents cfg) = some .outside := by
  have hprefix : strobePhaseAfter cfg.tStrobe .outside (initPrefix cfg) = some .outside := by
    simp [initPrefix, strobePhaseAfter, StrobePhase.after]
  rw [show initPinEvents cfg = initPrefix cfg ++ resetEvents cfg cfg.resetSeq from rfl, strobePhaseAfter_append, hprefix]
  exact strobePhaseAfter_flatMap _ _ _ fun x _ => by
    simp [putNibbleEvents, strobePhaseAfter, StrobePhase.after, setEvent_ne_hi]

section Strobes
variable {i : Instr} {s t u : State}

theorem State.Strobes.refl (s : State) : s.Strobes s := ⟨rfl, [], by simp, rfl⟩

theorem State.Strobes.trans (h : s.Strobes t) (h' : t.Strobes u) : s.Strobes u := by
  obtain ⟨hcfg, evs, ht, he⟩ := h
  obtain ⟨hcfg', evs', hu, he'⟩ := h'
  refine ⟨hcfg'.trans hcfg, evs ++ evs', by rw [hu, ht, List.append_assoc], ?_⟩
  rw [strobePhaseAfter_append, he, ← hcfg]
  exact he'

theorem act_strobes (h : Act i s t) : s.Strobes t := by
  cases h with
  | pins h => exact ⟨rfl, _, rfl, strobePhaseAfter_initPins s.cfg⟩
  | position h => exact ⟨rfl, [], (List.append_nil _).symm, rfl⟩
  | write h rs b => exact ⟨rfl, _, rfl, strobePhaseAfter_write s.cfg rs b⟩
  | read h rs b => exact ⟨rfl, _, rfl, strobePhaseAfter_read s.cfg rs b⟩
  | gate hg g => exact ⟨rfl, _, rfl, strobePhaseAfter_gate s.cfg g⟩
  | timeout hg polls hmax => exact ⟨rfl, _, rfl, strobePhaseAfter_polls s.cfg polls⟩

theorem acts_strobes (h : Acts i s t) : s.Strobes t := by
  induction h with
  | refl => exact .refl s
  | tail _ hact ih => exact ih.trans (act_strobes hact)

/-- An instruction on an idle block emits whole strobes and leaves none half done. -/
theorem exec_strobes (hs : s.seq = []) (h : exec i s = .next t) : s.Strobes t ∧ t.strobePhase = .outside := by
  rcases exec_idle_cases hs h with ⟨u, r, hu, rfl⟩ | ⟨_, rfl⟩
  · obtain ⟨hcfg, htrace⟩ := acts_strobes hu
    exact ⟨⟨hcfg, htrace⟩, rfl⟩
  · exact ⟨⟨rfl, [], (List.append_nil _).symm, rfl⟩, strobePhase_zero s.cfg _⟩

end Strobes

/-- Settles O53: an instruction is a row of whole transactions and gates, and each of them of whole strobes. -/
theorem strobesKeepTheirShape : Obligations.StrobesKeepTheirShape := by
  intro i s t evs hs h ht
  obtain ⟨⟨_, evs', ht', he⟩, _⟩ := exec_strobes hs h
  obtain rfl : evs = evs' := List.append_cancel_left (ht.symm.trans ht')
  rw [strobesKept, he]
  rfl

end Sys2Proof.Machine
end

section
/-! SUPPORT. The invariants of every step: of `SEQ` and the pins, and of the strobes. -/

namespace Sys2Proof.Machine

/-! ### Idle blocks -/

section Idle
variable {i : Instr} {s t : State}

/-- Of an idle block the invariant says that `E` is not high (rule R37). -/
theorem inv_idle_iff (hs : s.seq = []) : s.Inv ↔ s.lat.e ≠ .high := by
  have hphase : s.strobePhase = .outside := by rw [State.strobePhase, hs]
  have henable : s.EnableOk ↔ s.lat.e ≠ .high := by
    rw [enableOk_iff, hphase]
    simp [StrobePhase.enabled]
  exact ⟨fun h => henable.1 h.enable, fun h => ⟨by rw [hs]; rfl, henable.2 h, pinsOk_idle hs⟩⟩

theorem resetLatches_enable (l : Bank Level) (nibbles : List (Nibble × Nat)) : (resetLatches l nibbles).e = l.e := by
  induction nibbles generalizing l with
  | nil => rfl
  | cons x nibbles ih => exact ih _

/-- Every transaction and every gate leaves `E` low. -/
theorem act_enable (h : Act i s t) (hs : s.lat.e ≠ .high) : t.lat.e ≠ .high := by
  cases h with
  | pins h =>
    rw [State.pinsSetUp, resetLatches_enable]
    exact Level.noConfusion
  | position h => exact hs
  | write | read | gate | timeout => exact Level.noConfusion

theorem acts_enable (h : Acts i s t) (hs : s.lat.e ≠ .high) : t.lat.e ≠ .high := by
  induction h with
  | refl => exact hs
  | tail _ hact ih => exact act_enable hact ih

/-- An instruction on an idle block keeps the invariant. -/
theorem exec_inv (hs : s.seq = []) (hinv : s.Inv) (h : exec i s = .next t) : t.Inv := by
  have he := (inv_idle_iff hs).1 hinv
  rcases exec_idle_cases hs h with ⟨u, r, hu, rfl⟩ | ⟨_, rfl⟩
  · have hlow : u.lat.e ≠ .high := acts_enable hu he
    exact (inv_idle_iff rfl).2 hlow
  · refine ⟨live_zero _ _, (enableOk_iff _).2 ?_, pinsOk_call _ _ _⟩
    rw [strobePhase_of_seq rfl, strobePhase_zero]
    exact ⟨fun h => absurd h he, Bool.noConfusion⟩

/-- Two idle blocks with the same pins meet the invariant alike. -/
theorem inv_of_shows (hs : s.seq = []) (ht : t.seq = []) (hshows : s.Shows [] t) (hinv : s.Inv) : t.Inv := by
  rw [inv_idle_iff ht, hshows.lat]
  exact (inv_idle_iff hs).1 hinv

end Idle

/-! ### Every step -/

/-- What changes of an idle block's port, text and response keep, every instruction on an idle block, and every action of the
sequencer, every step keeps. -/
theorem step_keeps {P : State → Prop} (hport : ∀ s t, s.seq = [] → t.seq = [] → s.Shows [] t → P s → P t)
    (hexec : ∀ i s t, s.seq = [] → exec i s = .next t → P s → P t)
    (hperform : ∀ s f callers a, s.seq = f :: callers → stepOf s.cfg f.routine f.step = some a → P s →
      P (s.perform a f callers)) {s t : State} (h : step s = .next t) (hs : P s) : P t := by
  have hset : ∀ cmds text, s.seq = [] → P { s with cmds, text } := fun cmds text hidle =>
    hport s _ hidle hidle (.of_eq rfl rfl rfl rfl) hs
  rcases step_cases h with ⟨_, _, _, rfl⟩ | ⟨r, rest, i, hidle, _, _, _, he⟩ | ⟨r, rest, _, hidle, _, _, _, rfl⟩ |
    ⟨ch, rest, hidle, _, _, he⟩ | ⟨ch, rest, hidle, _, _, rfl⟩ | ⟨f, callers, a, hseq, ha, rfl⟩
  · exact hs
  · exact hexec i { s with cmds := rest } t hidle he (hset rest s.text hidle)
  · exact hport s _ hidle rfl (.of_eq rfl rfl rfl rfl) hs
  · exact hexec (.putc ch) { s with text := rest } t hidle he (hset s.cmds rest hidle)
  · exact hset s.cmds [] hidle
  · exact hperform s f callers a hseq ha hs

/-- Settles O43: an action of the sequencer by the frame it returns to, an instruction by the `E` it leaves low. -/
theorem stepKeepsInvariant : Obligations.StepKeepsInvariant := by
  intro s t hinv h
  exact step_keeps (P := State.Inv) (fun _ _ hs ht hshows hs' => inv_of_shows hs ht hshows hs')
    (fun _ _ _ hs he hs' => exec_inv hs hs' he) (fun _ _ _ _ hseq ha hs' => perform_inv hs' hseq ha) h hinv

theorem exec_strobesOk {i : Instr} {s t : State} (hs : s.seq = []) (hok : s.StrobesOk) (h : exec i s = .next t) :
    t.StrobesOk := by
  obtain ⟨⟨hcfg, evs, ht, he⟩, hphase⟩ := exec_strobes hs h
  rw [State.StrobesOk, State.strobePhase, hs] at hok
  rw [State.StrobesOk, hcfg, ht, hphase, strobePhaseAfter_append, hok]
  exact he

theorem perform_strobesOk {s : State} {f : Frame} {callers : List Frame} {a : Action} (hinv : s.Inv)
    (hs : s.seq = f :: callers) (ha : stepOf s.cfg f.routine f.step = some a) (hok : s.StrobesOk) :
    (s.perform a f callers).StrobesOk := by
  have hshows := perform_shows s a f callers
  rw [State.StrobesOk, strobePhase_of_seq hs] at hok
  rw [State.StrobesOk, hshows.cfg, hshows.trace, strobePhaseAfter_append, hok]
  exact perform_strobePhase (hinv.callChain hs).2 ha

/-- Settles O58: an action of the sequencer by the phases of its frame, an instruction by its whole strobes. -/
theorem stepKeepsStrobeShape : Obligations.StepKeepsStrobeShape := by
  refine ⟨fun s t hinv hok h => ?_, fun s hok hs => ?_⟩
  · refine (step_keeps (P := fun s => s.Inv ∧ s.StrobesOk) ?_ ?_ ?_ h ⟨hinv, hok⟩).2
    · rintro s t hs ht hshows ⟨hs', hok⟩
      refine ⟨inv_of_shows hs ht hshows hs', ?_⟩
      rw [State.StrobesOk, State.strobePhase, hs] at hok
      rw [State.StrobesOk, State.strobePhase, ht, hshows.cfg, hshows.trace, List.append_nil]
      exact hok
    · rintro i s t hs he ⟨hs', hok⟩
      exact ⟨exec_inv hs hs' he, exec_strobesOk hs hok he⟩
    · rintro s f callers a hseq ha ⟨hs', hok⟩
      exact ⟨perform_inv hs' hseq ha, perform_strobesOk hs' hseq ha hok⟩
  · rw [State.StrobesOk, State.strobePhase, hs] at hok
    rw [strobesKept, hok]
    rfl

/-! ### Reset -/

/-- Settles O1: the values of `State.reset`, and an idle block with nothing presented does nothing. -/
theorem resetStartsIdleAndSilent : Obligations.ResetStartsIdleAndSilent :=
  ⟨rfl, rfl, rfl, rfl, rfl, rfl, rfl, rfl, step_idle State.reset rfl rfl rfl⟩

theorem gateOk_of_idle {s : State} (hs : s.seq = []) : s.GateOk := by
  constructor <;> intros <;> simp_all

/-- Settles O3: at reset the block is idle, no level is set and nothing was emitted. -/
theorem resetMeetsInvariant : Obligations.ResetMeetsInvariant :=
  ⟨(inv_idle_iff rfl).2 Level.noConfusion, gateOk_of_idle rfl, rfl⟩

end Sys2Proof.Machine
end

section
/-! SUPPORT. What the invariant says of one step: the strobe that stands, and the frames of level L0 the block stands within. -/

namespace Sys2Proof.Machine

/-! ### Inside a strobe -/

theorem insideStrobe_keeps {ev : Event} (h : ev.insideStrobe = true) (d : Bank Dir) (l : Bank Level) :
    ev.dirAfter d = d ∧ ev.latAfter l = l := by
  cases ev with
  | dly | rd => exact ⟨rfl, rfl⟩
  | out | inp | hi | lo => cases h

/-- While `E` is high only a `Dly`, a `Rd` or the `Lo(E)` keeps the shape of the strobe (rule R37). -/
theorem after_enabled {tStrobe : Nat} {phase phase' : StrobePhase} {ev : Event} (he : phase.enabled = true)
    (h : phase.after tStrobe ev = some phase') : ev.insideStrobe = true ∨ ev = .lo .e := by
  cases phase with
  | outside | falling => cases he
  | rising =>
    simp only [StrobePhase.after] at h
    split at h <;> cases h
    subst ev
    exact .inl rfl
  | high =>
    simp only [StrobePhase.after] at h
    split at h
    · exact .inr ‹_›
    · split at h
      · exact .inl ‹_›
      · cases h

/-- Settles O46: the step's action must emit, and inside a strobe it can only be one of the three events. -/
theorem strobeHoldsPinsStill : Obligations.StrobeHoldsPinsStill := by
  intro s t hinv hhigh h
  have henabled : s.strobePhase.enabled = true := ((enableOk_iff s).1 hinv.enable).1 hhigh
  have hrunning : s.seq ≠ [] := fun hs => by rw [State.strobePhase, hs] at henabled; cases henabled
  obtain ⟨f, callers, a, hs, ha, rfl⟩ := step_running_inv hrunning h
  rw [strobePhase_of_seq hs] at henabled
  have hshows := perform_shows s a f callers
  cases he : a.emits s with
  | none =>
    rw [strobePhase_of_silent ha he] at henabled
    cases henabled
  | some ev =>
    rw [he] at hshows
    obtain ⟨-, hdir, hlat, htrace⟩ := hshows
    refine ⟨ev, htrace, ?_⟩
    rw [hdir, hlat]
    rcases after_enabled henabled (strobePhase_next ha he) with hinside | rfl
    · obtain ⟨hd, hl⟩ := insideStrobe_keeps hinside s.dir s.lat
      exact ⟨hd, .inl ⟨hinside, hl⟩⟩
    · exact ⟨rfl, .inr ⟨rfl, rfl⟩⟩

/-! ### Level L0 -/

/-- The action emits the event of the step at which the frame of level L0 stands. -/
def EmitsNibbleEvent (s : State) (a : Option Action) (q : NibbleFrame) : Prop :=
  ∃ act ev, a = some act ∧ act.emits s = some ev ∧ (q.routine.events s.cfg s.answer)[q.step]? = some ev

theorem writeByteNibbles_event {s : State} {rs : Bool} {n : Nat} {q : NibbleFrame} {outer : List NibbleFrame}
    (h : writeByteNibbles rs s.dreg n = q :: outer) : EmitsNibbleEvent s (writeByteStep s.cfg rs n) q := by
  have hn : n < 26 := by
    by_contra hn
    simp (disch := omega) only [writeByteNibbles, if_neg] at h
    cases h
  interval_cases n <;> cases h <;> refine ⟨_, _, rfl, rfl, ?_⟩ <;>
    simp [NibbleRoutine.events]

theorem readByteNibbles_event {s : State} {rs : Bool} {n : Nat} {q : NibbleFrame} {outer : List NibbleFrame}
    (h : readByteNibbles rs n = q :: outer) : EmitsNibbleEvent s (readByteStep s.cfg rs n) q := by
  have hn : n < 22 := by
    by_contra hn
    simp (disch := omega) only [readByteNibbles, if_neg] at h
    cases h
  interval_cases n <;> cases h <;> exact ⟨_, _, rfl, rfl, rfl⟩

/-- The steps of a reset nibble, by number (rule R161). -/
theorem stepOf_init_reset {cfg : Configuration} {attributes : Byte} {m : Nat} {x : Nibble × Nat}
    (hx : cfg.resetSeq[m / 9]? = some x) :
    stepOf cfg (.init attributes) (11 + m) = ((resetNibbleEvents cfg x)[m % 9]?).map .event := by
  have hlt : m / 9 < cfg.resetSeq.length := (List.getElem?_eq_some_iff.1 hx).1
  have hget : (initPinEvents cfg)[11 + m]? = (resetEvents cfg cfg.resetSeq)[m]? := by
    rw [show initPinEvents cfg = initPrefix cfg ++ resetEvents cfg cfg.resetSeq from rfl,
      List.getElem?_append_right (by simp [initPrefix])]
    simp [initPrefix]
  rw [stepOf, initSteps_eq, List.getElem?_append_left (by simp; omega), List.getElem?_map, hget,
    resetEvents_getElem?, hx, Option.bind_some]

theorem initNibbles_event {s : State} {attributes : Byte} {n : Nat} {q : NibbleFrame} {outer : List NibbleFrame}
    (h : initNibbles s.cfg n = q :: outer) : EmitsNibbleEvent s (stepOf s.cfg (.init attributes) n) q := by
  rw [initNibbles] at h
  split at h
  · cases h
  obtain ⟨m, rfl⟩ : ∃ m, n = 11 + m := ⟨n - 11, by omega⟩
  rw [Nat.add_sub_cancel_left] at h
  split at h
  · rename_i nibble delay hx
    rw [stepOf_init_reset hx]
    split at h
    · generalize m % 9 = k at *
      interval_cases k <;> cases h <;> exact ⟨_, _, rfl, rfl, rfl⟩
    · cases h
  · cases h

/-- A frame of level L0 is at the event its frame of `SEQ` emits (rules R111 to R118, R126). -/
theorem nibbleFrames_event {s : State} {f : Frame} {q : NibbleFrame} {outer : List NibbleFrame} (hpins : f.PinsOk s)
    (h : f.nibbleFrames s.cfg = q :: outer) : EmitsNibbleEvent s (stepOf s.cfg f.routine f.step) q := by
  obtain ⟨r, n⟩ := f
  cases r with
  | init attributes => exact initNibbles_event h
  | writeByte rs b =>
    have hbyte : s.dreg = b := WritePins.byte hpins
    subst hbyte
    exact writeByteNibbles_event h
  | readByte rs => exact readByteNibbles_event h
  | _ => cases h

/-- The levels of the frames, from the top of `SEQ` down (rule R31). -/
theorem levels_pairwise {s : State} (h : s.Inv) : (s.seq.map fun f => f.routine.level).Pairwise (· ≤ ·) := by
  cases hs : s.seq with
  | nil => exact List.Pairwise.nil
  | cons f callers =>
    refine List.isChain_iff_pairwise.1 (List.isChain_map_of_isChain _ (fun f g hcall => ?_) (h.callChain hs).2)
    rcases level_call hcall with hlt | ⟨hlevel, hcallee⟩
    · exact hlt.le
    · rw [hlevel, hcallee]
      exact le_rfl

/-- Settles O59: the levels of a call, and the frame of level L0 by the step's number. -/
theorem framesFollowTheLevels : Obligations.FramesFollowTheLevels := by
  refine ⟨fun cfg r callee n h => level_call h, fun s h => levels_pairwise h, fun s q outer hinv h => ?_⟩
  cases hs : s.seq with
  | nil => rw [State.nibbleFrames, hs] at h; cases h
  | cons f callers =>
    rw [State.nibbleFrames, hs] at h
    obtain ⟨a, ev, ha, he, hq⟩ := nibbleFrames_event ((pinsOk_cons hs).1 hinv.pins) h
    have hshows := perform_shows s a f callers
    rw [he] at hshows
    exact ⟨_, ev, step_action s f callers a hs ha, hshows.trace, hq⟩

end Sys2Proof.Machine
end

section
/-! SUPPORT. Where `SEQ` goes: the return through callers whose last step is done, and the branches. -/

namespace Sys2Proof.Machine

/-! ### Returns -/

/-- A caller that has no further step keeps no result: `PrintChar` has one after its first gate (rule R168). -/
theorem takeResult_of_dead {s : State} {g : Frame} {cfg : Configuration} (h : g.next.live cfg = false) :
    s.takeResult g = s := by
  rw [State.takeResult]
  split
  · rename_i ch hr hn
    rw [Frame.live, Frame.next, hr, hn] at h
    cases h
  · rfl

theorem takeResult_cfg (s : State) (g : Frame) : (s.takeResult g).cfg = s.cfg := by
  rcases takeResult_cases s g with h | h <;> rw [h]
  rfl

/-- A return through callers whose last step is done stops at the first that has a further one (rule R32). -/
theorem unwind_to_live {s : State} {f g : Frame} {ended outer : List Frame}
    (hdead : ∀ x ∈ f :: ended, x.next.live s.cfg = false) (hlive : g.next.live s.cfg = true) :
    s.unwind f.next (ended ++ g :: outer) = (s.takeResult g).withSeq (g.next :: outer) := by
  induction ended generalizing f with
  | nil =>
    rw [List.nil_append, unwind_pop _ _ _ _ (hdead f List.mem_cons_self)]
    exact unwind_live _ _ _ (takeResult_cfg s g ▸ hlive)
  | cons x ended ih =>
    have hx : ∀ y ∈ x :: ended, y.next.live s.cfg = false := fun y hy => hdead y (List.mem_cons_of_mem f hy)
    rw [List.cons_append, unwind_pop _ _ _ _ (hdead f List.mem_cons_self), takeResult_of_dead (hx x List.mem_cons_self)]
    exact ih hx

/-- A return through every frame ends the operation (rule R32). -/
theorem unwind_to_idle {s : State} {f outer : Frame} {callers : List Frame}
    (hdead : ∀ x ∈ f :: callers, x.next.live s.cfg = false) (hlast : (f :: callers).getLast? = some outer) :
    s.unwind f.next callers = s.complete outer.routine := by
  induction callers generalizing f with
  | nil =>
    cases hlast
    exact unwind_last _ _ (hdead f List.mem_cons_self)
  | cons x callers ih =>
    have hx : ∀ y ∈ x :: callers, y.next.live s.cfg = false := fun y hy => hdead y (List.mem_cons_of_mem f hy)
    rw [unwind_pop _ _ _ _ (hdead f List.mem_cons_self), takeResult_of_dead (hx x List.mem_cons_self)]
    exact ih hx (by rwa [List.getLast?_cons_cons] at hlast)

/-- Settles O7: one action of the top frame, and the return it leads to. -/
theorem sequencerAdvancesOneStep : Obligations.SequencerAdvancesOneStep := by
  intro s f callers hs
  refine ⟨fun ev ha hl => step_event hs ha hl, fun p bit ha hl => step_drive hs ha hl,
    fun p bit ha hl => step_sample hs ha hl, ?_, ?_, ?_, ?_, ?_⟩
  · rintro ev ended g outer ha rfl hdead hlive
    rw [step_action s f _ _ hs ha, State.perform, State.advance, unwind_to_live (s := s.emit ev) hdead hlive]
    refine congrArg _ ?_
    rw [State.takeResult]
    split <;> simp_all <;> rfl
  · intro ev outer ha hdead hlast
    rw [step_action s f _ _ hs ha, State.perform, State.advance, unwind_to_idle (s := s.emit ev) hdead hlast]
    rfl
  · rintro rfl
    have hstep : step s = .next (s.zeroCount.withSeq (⟨.waitReady, 1⟩ :: callers)) := by
      rw [step_action s ⟨.waitReady, 0⟩ callers .zeroCount hs rfl]
      exact congrArg _ (unwind_live s.zeroCount ⟨.waitReady, 1⟩ callers rfl)
    refine ⟨fun hm => ?_, fun n hm => ?_⟩ <;> rw [hstep] <;> simp [State.zeroCount, State.withSeq, hm]
  · intro rs b ha
    rw [step_call hs ha]
    rfl
  · intro r ha hr
    rw [step_call hs ha, call_eq_withSeq s r _ hr]
    rfl

/-! ### Branches -/

/-- A test that goes to a step its routine has (rule R30). -/
theorem step_jump {s : State} {r : Routine} {n m : Nat} {callers : List Frame} {a : Action}
    (hs : s.seq = ⟨r, n⟩ :: callers) (ha : stepOf s.cfg r n = some a)
    (hp : s.perform a ⟨r, n⟩ callers = s.unwind ⟨r, m⟩ callers) (hl : Frame.live s.cfg ⟨r, m⟩ = true) :
    step s = .next { s with seq := ⟨r, m⟩ :: callers } := by
  rw [step_action s ⟨r, n⟩ callers a hs ha, hp, unwind_live s _ _ hl]
  rfl

theorem wrapTarget_wrapCase (cfg : Configuration) (a : Address) :
    wrapTarget (wrapCase cfg a) =
      if cfg.wrap = true ∧ a.toNat = cfg.line1Base.toNat + cfg.lineLength then 5
      else if cfg.wrap = true ∧ a.toNat = cfg.line2Base.toNat + cfg.lineLength then 9
      else 3 := by
  rw [wrapCase]
  split_ifs <;> simp_all [wrapTarget]

/-- Settles O8: each test by its outcomes. -/
theorem branchesFollowTheirTests : Obligations.BranchesFollowTheirTests := by
  intro s callers
  refine ⟨fun hs => ?_, fun col row hs => ?_, fun ch hs => ?_, fun ch hs => ?_, fun ch hs => ?_⟩
  · have hstep : step s = .next (s.testBusy ⟨.waitReady, 2⟩ callers) := step_action s _ callers .busyTest hs rfl
    refine ⟨fun hb => ?_, fun hb hm => ?_, fun n hb hm => ⟨fun hne => ?_, fun heq => ?_⟩⟩
    · rw [hstep, testBusy_ready s callers hb]
      rfl
    · rw [hstep, testBusy_again s callers hb (by simp [State.timedOut, hm])]
      simp [State.countPoll, State.withSeq, hm]
    · rw [hstep, testBusy_again s callers hb (by simp [State.timedOut, State.countPoll, hm]; omega)]
      simp [State.countPoll, State.withSeq, hm]
    · rw [hstep, testBusy_timeout s callers hb (by simp [State.timedOut, State.countPoll, hm, heq])]
      simp [State.countPoll, State.raise, hm]
  · refine ⟨fun ⟨hc, hlen⟩ => ?_, fun hin => step_jump hs rfl ?_ rfl⟩
    · rw [step_action s _ callers (.boundsTest col) hs rfl, State.perform, if_pos (by simp [outOfBounds, hc, hlen])]
      rfl
    · rw [State.perform, if_neg (by rcases hin with h | h <;> simp [outOfBounds, h])]
      rfl
  · exact step_jump hs rfl rfl (by split <;> rfl)
  · refine step_jump hs rfl ?_ (by split <;> rfl)
    rw [State.perform, State.jump]
    simp only [beforeLine2, decide_eq_true_eq]
  · rw [← wrapTarget_wrapCase]
    exact step_jump hs rfl rfl (by cases wrapCase s.cfg (currentAddress s.pos) <;> rfl)

end Sys2Proof.Machine
end

section
/-! SUPPORT. Operations run at once: the pins they leave, a gate that its answers leave open, and what they depend on. -/

namespace Sys2Proof.Machine

/-! ### The pins an operation leaves -/

theorem andThen_eq_done {p : Progress} {f : State → Progress} {t : State} (h : p.andThen f = .done t) :
    ∃ u, p = .done u ∧ f u = .done t := by
  cases p with
  | done u => exact ⟨u, rfl, h⟩
  | failed k u => cases h
  | undetermined => cases h

theorem writeByte_done {rs : Bool} {b : Byte} {s t : State} (h : Progress.done (writeByte rs b s) = .done t) :
    t = s.wrote rs b := by
  rw [writeByte_eq] at h
  cases h
  rfl

/-- A gated command write ends in its write (rule R148). -/
theorem writeCommand_done {b : Byte} {s t : State} (h : writeCommand b s = .done t) : ∃ u : State, t = u.wrote false b := by
  obtain ⟨u, _, h⟩ := andThen_eq_done h
  exact ⟨u, writeByte_done h⟩

theorem initAll_done {attributes : Byte} {s t : State} (h : initAll attributes s = .done t) :
    ∃ u : State, t = u.wrote false attributes := by
  obtain ⟨_, _, h⟩ := andThen_eq_done h
  obtain ⟨_, _, h⟩ := andThen_eq_done h
  obtain ⟨_, _, h⟩ := andThen_eq_done h
  obtain ⟨_, _, h⟩ := andThen_eq_done h
  exact writeCommand_done h

/-- Every instruction that ends well and does not end in a read ends in a whole write. -/
theorem progressOf_ends_in_write {i : Instr} {s t : State} (hi : endsInRead i = false) (h : progressOf i s = .done t) :
    ∃ (u : State) (rs : Bool) (b : Byte), t = u.wrote rs b := by
  have hcommand : ∀ {b : Byte} {s : State}, writeCommand b s = .done t →
      ∃ (u : State) (rs : Bool) (b : Byte), t = u.wrote rs b := fun h => by
    obtain ⟨u, hu⟩ := writeCommand_done h
    exact ⟨u, _, _, hu⟩
  cases i with
  | init attributes =>
    obtain ⟨u, hu⟩ := initAll_done h
    exact ⟨u, _, _, hu⟩
  | clear | home | wrcmd => exact hcommand h
  | gotoxy col row =>
    rw [progressOf, gotoXY] at h
    split at h
    · cases h
    · exact hcommand h
  | putc ch =>
    obtain ⟨u, _, h⟩ := andThen_eq_done h
    dsimp only at h
    split at h
    · exact hcommand h
    · obtain ⟨v, _, h⟩ := andThen_eq_done h
      exact ⟨v, _, _, writeByte_done h⟩
  | wrdata b =>
    obtain ⟨u, _, h⟩ := andThen_eq_done h
    exact ⟨u, _, _, writeByte_done h⟩
  | rdstat | busRs | busRd => cases hi
  | busWi | busWd | lcdClear | lcdHome | lcdEntry | lcdDisplay | lcdFunction | lcdSetddram =>
    cases h
    exact ⟨s, _, _, rfl⟩

/-- One that ends in a read leaves the pins of a read, and the data latches alone (rules R36, R122, R150). -/
theorem progressOf_ends_in_read {i : Instr} {s t : State} (hi : endsInRead i = true) (h : progressOf i s = .done t) :
    t.dir = dataPins s.dir .inp ∧ ∃ rs, t.lat = readLatches rs s.lat := by
  cases i with
  | rdstat =>
    rcases waitReady_cases s with he | ⟨g, _, _, _, _, _, he⟩ | ⟨polls, _, _, _, _, _, he⟩ <;> cases he.symm.trans h
    exact ⟨rfl, false, rfl⟩
  | busRs | busRd =>
    cases h
    exact ⟨rfl, _, rfl⟩
  | _ => cases hi

/-- `INIT` makes the control pins outputs, and what follows leaves them so (rules R110, R160). -/
theorem initAll_control {attributes : Byte} {s t : State} (h : initAll attributes s = .done t) :
    t.dir.e = .out ∧ t.dir.rs = .out ∧ t.dir.rw = .out := by
  have hall : (initAll attributes s).Extends s.pinsSetUp := by
    refine andThen_extends (p := .done (initPins s)) (initPins_eq s ▸ .refl _) fun _ h => extends_of_extends h ?_
    refine andThen_extends (writeCommand_extends _ _) fun _ h => extends_of_extends h ?_
    refine andThen_extends (writeCommand_extends _ _) fun _ h => extends_of_extends h ?_
    refine andThen_extends (writeCommand_extends _ _) fun _ h => extends_of_extends h ?_
    exact writeCommand_extends _ _
  rw [h] at hall
  exact ⟨hall.enable rfl, hall.select rfl, hall.readWrite rfl⟩

/-- The control pins are outputs after an operation that ended well, if they were before it or it is `INIT`. -/
theorem progressOf_control {i : Instr} {s t : State} (h : progressOf i s = .done t)
    (hout : (∃ a, i = .init a) ∨ (s.dir.e = .out ∧ s.dir.rs = .out ∧ s.dir.rw = .out)) :
    t.dir.e = .out ∧ t.dir.rs = .out ∧ t.dir.rw = .out := by
  rcases hout with ⟨a, rfl⟩ | ⟨he, hrs, hrw⟩
  · exact initAll_control h
  · have hext := progressOf_extends i s
    rw [h] at hext
    exact ⟨hext.enable he, hext.select hrs, hext.readWrite hrw⟩

/-- If the operation fails, its code is not `Ok`. -/
def Progress.FailsWithError : Progress → Prop
  | .failed k _ => k ≠ .ok
  | .done _ | .undetermined => True

theorem andThen_failsWithError {p : Progress} {f : State → Progress} (hp : p.FailsWithError)
    (hf : ∀ t, (f t).FailsWithError) : (p.andThen f).FailsWithError := by
  cases p with
  | done t => exact hf t
  | failed k t => exact hp
  | undetermined => exact True.intro

theorem waitReady_failsWithError (s : State) : (waitReady s).FailsWithError := by
  cases h : waitReady s with
  | failed k t => cases waitReady_failed h; exact Code.noConfusion
  | done | undetermined => exact True.intro

theorem writeCommand_failsWithError (b : Byte) (s : State) : (writeCommand b s).FailsWithError :=
  andThen_failsWithError (waitReady_failsWithError s) fun _ => True.intro

theorem wrapPath_failsWithError (a : Address) (s : State) : (wrapPath a s).FailsWithError := by
  rw [wrapPath]
  split
  · exact True.intro
  · exact waitReady_failsWithError _
  · exact waitReady_failsWithError _

theorem progressOf_failsWithError (i : Instr) (s : State) : (progressOf i s).FailsWithError := by
  cases i with
  | init attributes =>
    rw [progressOf, initAll, andThen_done]
    refine andThen_failsWithError (writeCommand_failsWithError _ _) fun t => ?_
    refine andThen_failsWithError (writeCommand_failsWithError _ t) fun t => ?_
    refine andThen_failsWithError (writeCommand_failsWithError _ t) fun t => ?_
    exact writeCommand_failsWithError _ t
  | clear | home | wrcmd => exact writeCommand_failsWithError _ s
  | gotoxy col row =>
    rw [progressOf, gotoXY]
    split
    · exact Code.noConfusion
    · exact writeCommand_failsWithError _ s
  | putc ch =>
    refine andThen_failsWithError (waitReady_failsWithError s) fun t => ?_
    dsimp only
    split
    · exact writeCommand_failsWithError _ _
    · exact andThen_failsWithError (wrapPath_failsWithError _ _) fun _ => True.intro
  | wrdata b => exact andThen_failsWithError (waitReady_failsWithError s) fun _ => True.intro
  | rdstat => exact waitReady_failsWithError s
  | busWi | busWd | busRs | busRd | lcdClear | lcdHome | lcdEntry | lcdDisplay | lcdFunction | lcdSetddram =>
    exact True.intro

/-- An operation with the answer `Ok` ran to its end. -/
theorem done_of_ok {i : Instr} {s t : State} {d : Byte} (hs : s.seq = []) (h : exec i s = .next t)
    (hok : t.rsp = some ⟨.ok, d⟩) : ∃ u, progressOf i s.accept = .done u ∧ t = u.complete (entryRoutine s.cfg i) := by
  have hfail := progressOf_failsWithError i s.accept
  cases hp : progressOf i s.accept with
  | done u =>
    cases (exec_done i s u hs hp).symm.trans h
    exact ⟨u, rfl, rfl⟩
  | failed k u =>
    cases (exec_failed i s u k hs hp).symm.trans h
    rw [hp] at hfail
    cases hok
    exact absurd rfl hfail
  | undetermined =>
    cases (exec_undetermined i s hs hp).symm.trans h
    cases hok

theorem writeIdle_wrote {s : State} {rs : Bool} {b : Byte}
    (hcontrol : s.dir.e = .out ∧ s.dir.rs = .out ∧ s.dir.rw = .out) : (s.wrote rs b).WriteIdle := by
  obtain ⟨he, hrs, hrw⟩ := hcontrol
  refine ⟨?_, rfl, rfl, rfl, rfl, rfl, rfl⟩
  simp [State.wrote, dataPins, allPins, he, hrs, hrw]

/-- Settles O35: the last transaction of the operation sets the pins, and its control pins are outputs. -/
theorem completedOperationsLeavePinsIdle : Obligations.CompletedOperationsLeavePinsIdle := by
  intro i s t d hs hout h hok
  obtain ⟨u, hu, rfl⟩ := done_of_ok hs h hok
  have hcontrol := progressOf_control hu hout
  refine ⟨fun hi => ?_, fun hi => ?_, ?_⟩
  · obtain ⟨v, rs, b, rfl⟩ := progressOf_ends_in_write hi hu
    obtain ⟨hdir, he, hrw, hdata⟩ := writeIdle_wrote (b := b) hcontrol
    exact ⟨hdir, he, hrw, hdata⟩
  · obtain ⟨hdir, hlat⟩ := progressOf_ends_in_read hi hu
    obtain ⟨rs', hlat⟩ := hlat
    have hlat' : (u.complete (entryRoutine s.cfg i)).lat = readLatches rs' s.lat := hlat
    have hdir' : (u.complete (entryRoutine s.cfg i)).dir = dataPins s.dir .inp := hdir
    refine ⟨⟨hcontrol, ?_, ?_, ?_⟩, ?_⟩
    · rw [hdir']; exact ⟨rfl, rfl, rfl, rfl⟩
    · rw [hlat']; rfl
    · rw [hlat']; rfl
    · rw [hlat']; exact ⟨rfl, rfl, rfl, rfl⟩
  · rintro a rfl
    obtain ⟨v, rfl⟩ := initAll_done hu
    rfl

end Sys2Proof.Machine
end

section
/-! SUPPORT. The answers an operation run at once is given: a gate that they leave open, and what the operation depends on. -/

namespace Sys2Proof.Machine

/-! ### A gate that is not answered in full -/

/-- The answers leave a gate open after its busy polls: the next poll is not answered in full, or it shows ready and the
re-read is not (rule R143). -/
def LeavesGateOpen (rest : List Bool) : Prop :=
  rest.length < 8 ∨ ∃ ready more, rest = bitsOf ready ++ more ∧ busyFlag ready = false ∧ more.length < 8

theorem pollLoop_open {polls : List Byte} {rest : List Bool} (fuel : Nat) (s : State)
    (h : s.answers = script polls ++ rest) (hp : ∀ b ∈ polls, busyFlag b = true)
    (ht : ∀ n, s.cfg.maxPoll = some n → s.pcnt + polls.length < n) (hrest : LeavesGateOpen rest) :
    pollLoop fuel s = .undetermined := by
  induction polls generalizing fuel s with
  | nil =>
    cases fuel with
    | zero => rfl
    | succ fuel =>
      rcases hrest with hshort | ⟨ready, more, rfl, hready, hmore⟩
      · rw [pollLoop, readHeldStatus_short s (by simpa [h] using hshort)]
        rfl
      · have hshort : (s.hasRead false ready).answers.length < 8 := by simpa [State.hasRead, h] using hmore
        rw [pollLoop, readHeldStatus_eq ready more s h, andThen_done, hasRead_sreg, if_neg (by simp [hready]),
          settleAndReread]
        exact readHeldStatus_short _ hshort
  | cons b polls ih =>
    cases fuel with
    | zero => rfl
    | succ fuel =>
      have hcount : ∀ n, s.cfg.maxPoll = some n → (s.polledBusy b).pcnt + polls.length < n := by
        intro n hm
        have hlt := ht n hm
        rw [List.length_cons] at hlt
        simp [State.polledBusy, State.countPoll, State.hasRead, hm]
        omega
      have hto : (s.polledBusy b).timedOut = false := by
        cases hm : s.cfg.maxPoll with
        | none => simp [State.polledBusy, State.timedOut, State.hasRead, hm]
        | some n =>
          have hlt := hcount n hm
          have hcfg : (s.polledBusy b).cfg.maxPoll = some n := hm
          simp [State.timedOut, hcfg]
          omega
      rw [pollLoop_busy fuel b (script polls ++ rest) s (by simpa using h) (hp b List.mem_cons_self) hto]
      exact ih fuel _ (by simp [State.polledBusy, State.hasRead, h]) (fun c hc => hp c (List.mem_cons_of_mem b hc)) hcount

theorem waitReady_open {polls : List Byte} {rest : List Bool} {s : State} (h : s.answers = script polls ++ rest)
    (hp : polls.all busyFlag = true) (ha : allowsPolls s.cfg polls.length = true) (hrest : LeavesGateOpen rest) :
    waitReady s = .undetermined := by
  refine pollLoop_open _ s.zeroCount h (List.all_eq_true.1 hp) (fun n hm => ?_) hrest
  have hm' : s.cfg.maxPoll = some n := hm
  simpa [State.zeroCount, allowsPolls, hm'] using ha

/-- An instruction whose first gate wants for answers is only started. -/
theorem progressOf_open {i : Instr} {polls : List Byte} {rest : List Bool} {s : State}
    (hi : gatedFirst i = true ∨ ∃ a, i = .init a) (hb : passesBounds s.cfg i = true)
    (h : s.answers = script polls ++ rest) (hp : polls.all busyFlag = true)
    (ha : allowsPolls s.cfg polls.length = true) (hrest : LeavesGateOpen rest) : progressOf i s = .undetermined := by
  have hgate := waitReady_open h hp ha hrest
  have hcommand : ∀ b, writeCommand b s = .undetermined := fun b => by rw [writeCommand, hgate]; rfl
  cases i with
  | init attributes =>
    have hgate' : waitReady (initPins s) = .undetermined := by
      rw [initPins_eq]
      exact waitReady_open (s := s.pinsSetUp) h hp ha hrest
    rw [progressOf, initAll, andThen_done, writeCommand, hgate']
    rfl
  | clear | home | wrcmd => exact hcommand _
  | gotoxy col row =>
    rw [progressOf, gotoXY, if_neg (by simpa [passesBounds] using hb)]
    exact hcommand _
  | putc ch => rw [progressOf, printChar, hgate]; rfl
  | wrdata b => rw [progressOf, writeData, hgate]; rfl
  | rdstat => exact hgate
  | busWi | busWd | busRs | busRd | lcdClear | lcdHome | lcdEntry | lcdDisplay | lcdFunction | lcdSetddram =>
    rcases hi with hi | ⟨a, hi⟩ <;> cases hi

/-- Settles O41: the first gate's polls leave the operation undetermined, and the sequencer starts. -/
theorem unansweredGateStartsSequencer : Obligations.UnansweredGateStartsSequencer := by
  intro i s polls rest hs hi hb h hp ha hrest
  rw [exec_undetermined i s hs (progressOf_open (s := s.accept) hi hb h hp ha hrest), State.start, call_eq_withSeq]
  · rfl
  · intro rs b hr
    cases i with
    | busWi | busWd | busRs | busRd | lcdClear | lcdHome | lcdEntry | lcdDisplay | lcdFunction | lcdSetddram =>
      rcases hi with hi | ⟨a, hi⟩ <;> cases hi
    | _ => cases hr

/-! ### What an operation depends on -/

/-- The two states agree in the configuration and the answers to come, and show the same events after what they showed
before (rule R41). -/
structure Alike (before before' : List Event) (s s' : State) : Prop where
  cfg : s.cfg = s'.cfg
  answers : s.answers = s'.answers
  draws : s.draws = s'.draws
  trace : ∃ evs, s.trace = before ++ evs ∧ s'.trace = before' ++ evs

/-- The two operations come to the same end: both done, both failed with one code, or both undetermined. -/
inductive SameEnd (R : State → State → Prop) : Progress → Progress → Prop where
  | done {t t' : State} (h : R t t') : SameEnd R (.done t) (.done t')
  | failed {t t' : State} (k : Code) (h : R t t') : SameEnd R (.failed k t) (.failed k t')
  | undetermined : SameEnd R .undetermined .undetermined

theorem andThen_sameEnd {R Q : State → State → Prop} {p p' : Progress} {f f' : State → Progress} (hp : SameEnd R p p')
    (hRQ : ∀ t t', R t t' → Q t t') (hf : ∀ t t', R t t' → SameEnd Q (f t) (f' t')) :
    SameEnd Q (p.andThen f) (p'.andThen f') := by
  cases hp with
  | done h => exact hf _ _ h
  | failed k h => exact .failed k (hRQ _ _ h)
  | undetermined => exact .undetermined

theorem SameEnd.mono {R Q : State → State → Prop} {p p' : Progress} (hp : SameEnd R p p') (h : ∀ t t', R t t' → Q t t') :
    SameEnd Q p p' := by
  cases hp with
  | done hr => exact .done (h _ _ hr)
  | failed k hr => exact .failed k (h _ _ hr)
  | undetermined => exact .undetermined

/-- Alike after a status read too, with its byte in `SREG`. -/
def AlikeRead (before before' : List Event) (s s' : State) : Prop := Alike before before' s s' ∧ s.sreg = s'.sreg

@[simp] theorem hasRead_cfg (s : State) (rs : Bool) (b : Byte) : (s.hasRead rs b).cfg = s.cfg := rfl

section Alike
variable {before before' : List Event} {s s' : State}

/-- The same events, and the same answers used up, keep the two alike. -/
theorem Alike.extend {t t' : State} {evs : List Event} (h : Alike before before' s s') (hc : t.cfg = s.cfg)
    (hc' : t'.cfg = s'.cfg) (ha : t.answers = t'.answers) (hd : t.draws = t'.draws) (ht : t.trace = s.trace ++ evs)
    (ht' : t'.trace = s'.trace ++ evs) : Alike before before' t t' := by
  obtain ⟨hcfg, _, _, evs', he, he'⟩ := h
  exact ⟨by rw [hc, hc', hcfg], ha, hd, evs' ++ evs, by rw [ht, he, List.append_assoc],
    by rw [ht', he', List.append_assoc]⟩

theorem Alike.byteAhead_eq (h : Alike before before' s s') : s.byteAhead = s'.byteAhead := by
  have hlevel : ∀ k, s.levelAhead k = s'.levelAhead k := fun k => by
    rw [State.levelAhead, State.levelAhead, h.answers, h.draws]
  simp only [State.byteAhead, hlevel]

theorem Alike.wrote (h : Alike before before' s s') (rs : Bool) (b : Byte) :
    Alike before before' (s.wrote rs b) (s'.wrote rs b) :=
  h.extend (evs := writeEvents s.cfg rs b) rfl rfl h.answers h.draws rfl (by rw [h.cfg]; rfl)

theorem Alike.hasRead (h : Alike before before' s s') (rs : Bool) (b : Byte) :
    Alike before before' (s.hasRead rs b) (s'.hasRead rs b) :=
  h.extend (evs := readEvents s.cfg rs b) rfl rfl (congrArg (List.drop 8) h.answers) (congrArg (· + 8) h.draws) rfl
    (by rw [h.cfg]; rfl)

theorem Alike.dly (h : Alike before before' s s') (n : Nat) :
    Alike before before' (s.emit (.dly n)) (s'.emit (.dly n)) :=
  h.extend rfl rfl h.answers h.draws rfl rfl

/-- A change of registers alone. -/
theorem Alike.of_eq {t t' : State} (h : Alike before before' s s') (hc : t.cfg = s.cfg) (hc' : t'.cfg = s'.cfg)
    (ha : t.answers = s.answers) (ha' : t'.answers = s'.answers) (hd : t.draws = s.draws) (hd' : t'.draws = s'.draws)
    (ht : t.trace = s.trace) (ht' : t'.trace = s'.trace) : Alike before before' t t' :=
  h.extend hc hc' (ha.trans (h.answers.trans ha'.symm)) (hd.trans (h.draws.trans hd'.symm)) (ht.trans (by simp))
    (ht'.trans (List.append_nil _).symm)

/-- A status read leaves both undetermined or returns both the same byte. -/
theorem readHeldStatus_alike (h : Alike before before' s s') :
    (readHeldStatus s = .undetermined ∧ readHeldStatus s' = .undetermined) ∨
    ∃ b, readHeldStatus s = .done (s.hasRead false b) ∧ readHeldStatus s' = .done (s'.hasRead false b) := by
  rcases readHeldStatus_cases s with ⟨hshort, he⟩ | ⟨hans, he⟩
  · exact .inl ⟨he, readHeldStatus_short s' (h.answers ▸ hshort)⟩
  · exact .inr ⟨_, he, readHeldStatus_eq _ _ s' (h.answers ▸ hans)⟩

/-- Alike in a gate: with `MAX_POLL` a number the two have counted the same polls (rule R29). -/
def AlikeCounted (before before' : List Event) (s s' : State) : Prop :=
  Alike before before' s s' ∧ ∀ n, s.cfg.maxPoll = some n → s.pcnt = s'.pcnt

theorem Alike.zeroCount (h : Alike before before' s s') : AlikeCounted before before' s.zeroCount s'.zeroCount := by
  refine ⟨h.of_eq rfl rfl rfl rfl rfl rfl rfl rfl, fun n hm => ?_⟩
  have hm' : s.cfg.maxPoll = some n := hm
  simp only [State.zeroCount, ← h.cfg, hm']

theorem AlikeCounted.hasRead (h : AlikeCounted before before' s s') (rs : Bool) (b : Byte) :
    AlikeCounted before before' (s.hasRead rs b) (s'.hasRead rs b) :=
  ⟨h.1.hasRead rs b, h.2⟩

theorem AlikeCounted.countPoll (h : AlikeCounted before before' s s') :
    AlikeCounted before before' s.countPoll s'.countPoll := by
  refine ⟨h.1.of_eq rfl rfl rfl rfl rfl rfl rfl rfl, fun n hm => ?_⟩
  have hm' : s.cfg.maxPoll = some n := hm
  simp only [State.countPoll, ← h.1.cfg, hm', h.2 n hm']

theorem AlikeCounted.timedOut_eq (h : AlikeCounted before before' s s') : s.timedOut = s'.timedOut := by
  rw [State.timedOut, State.timedOut, ← h.1.cfg]
  cases hm : s.cfg.maxPoll with
  | none => rfl
  | some n => rw [h.2 n hm]

/-- A gate comes to the same end, with the same byte in `SREG`. -/
theorem pollLoop_alike (fuel : Nat) (h : AlikeCounted before before' s s') :
    SameEnd (AlikeRead before before') (pollLoop fuel s) (pollLoop fuel s') := by
  induction fuel generalizing s s' with
  | zero => exact .undetermined
  | succ fuel ih =>
    rw [pollLoop, pollLoop]
    rcases readHeldStatus_alike h.1 with ⟨he, he'⟩ | ⟨b, he, he'⟩ <;> rw [he, he']
    · exact .undetermined
    have hread := h.hasRead false b
    rw [andThen_done, andThen_done, hasRead_sreg, hasRead_sreg, hread.countPoll.timedOut_eq]
    by_cases hbusy : busyFlag b = true
    · rw [if_pos hbusy, if_pos hbusy]
      by_cases hout : (s'.hasRead false b).countPoll.timedOut = true
      · rw [if_pos hout, if_pos hout]
        exact .failed _ ⟨hread.countPoll.1, rfl⟩
      · rw [if_neg hout, if_neg hout]
        exact ih hread.countPoll
    · rw [if_neg hbusy, if_neg hbusy, settleAndReread, settleAndReread, hasRead_cfg, hasRead_cfg, h.1.cfg]
      have hsettled := hread.1.dly s'.cfg.tSettle
      rcases readHeldStatus_alike hsettled with ⟨he, he'⟩ | ⟨c, he, he'⟩ <;> rw [he, he']
      · exact .undetermined
      · exact .done ⟨hsettled.hasRead false c, rfl⟩

theorem waitReady_alike (h : Alike before before' s s') :
    SameEnd (AlikeRead before before') (waitReady s) (waitReady s') := by
  rw [waitReady, waitReady, h.answers]
  exact pollLoop_alike _ h.zeroCount

/-- A gate and what follows it. -/
theorem gated_alike {f f' : State → Progress} (h : Alike before before' s s')
    (hf : ∀ t t', AlikeRead before before' t t' → SameEnd (Alike before before') (f t) (f' t')) :
    SameEnd (Alike before before') ((waitReady s).andThen f) ((waitReady s').andThen f') :=
  andThen_sameEnd (waitReady_alike h) (fun _ _ h => h.1) hf

theorem writeByte_alike (h : Alike before before' s s') (rs : Bool) (b : Byte) :
    SameEnd (Alike before before') (.done (writeByte rs b s)) (.done (writeByte rs b s')) := by
  rw [writeByte_eq, writeByte_eq]
  exact .done (h.wrote rs b)

theorem writeCommand_alike (h : Alike before before' s s') (b : Byte) :
    SameEnd (Alike before before') (writeCommand b s) (writeCommand b s') :=
  gated_alike h fun _ _ h => writeByte_alike h.1 false b

/-- A gated command write, whose byte is the configuration's, and what follows it. -/
theorem writeCommand_andThen_alike {f f' : State → Progress} {b b' : Byte} (hb : b = b') (h : Alike before before' s s')
    (hf : ∀ t t', Alike before before' t t' → SameEnd (Alike before before') (f t) (f' t')) :
    SameEnd (Alike before before') ((writeCommand b s).andThen f) ((writeCommand b' s').andThen f') :=
  hb ▸ andThen_sameEnd (writeCommand_alike h b) (fun _ _ h => h) hf

theorem pinsSetUp_alike (h : Alike before before' s s') : Alike before before' s.pinsSetUp s'.pinsSetUp :=
  h.extend (evs := initPinEvents s.cfg) rfl rfl h.answers h.draws rfl (by rw [h.cfg]; rfl)

theorem initAll_alike (h : Alike before before' s s') (attributes : Byte) :
    SameEnd (Alike before before') (initAll attributes s) (initAll attributes s') := by
  rw [initAll, initAll, andThen_done, andThen_done, initPins_eq, initPins_eq]
  have h0 := pinsSetUp_alike h
  refine writeCommand_andThen_alike (by rw [h0.cfg]) h0 fun _ _ h => ?_
  refine writeCommand_andThen_alike (by rw [h.cfg]) h fun _ _ h => ?_
  refine writeCommand_andThen_alike (by rw [h.cfg]) h fun _ _ h => ?_
  exact writeCommand_alike h attributes

theorem wrapPath_alike (h : Alike before before' s s') (a : Address) :
    SameEnd (Alike before before') (wrapPath a s) (wrapPath a s') := by
  rw [wrapPath, wrapPath, h.cfg]
  have hgate : ∀ b, SameEnd (Alike before before') (waitReady (writeByte false b s)) (waitReady (writeByte false b s')) :=
    fun b => by
      rw [writeByte_eq, writeByte_eq]
      exact (waitReady_alike (h.wrote false b)).mono fun _ _ h => h.1
  split
  · exact .done h
  · exact hgate _
  · exact hgate _

theorem printChar_alike (h : Alike before before' s s') (ch : Byte) :
    SameEnd (Alike before before') (printChar ch s) (printChar ch s') := by
  refine gated_alike h fun t t' ⟨ht, hsreg⟩ => ?_
  have hpos : Alike before before' t.takePosition t'.takePosition := ht.of_eq rfl rfl rfl rfl rfl rfl rfl rfl
  have hcfg : t.takePosition.cfg = t'.takePosition.cfg := hpos.cfg
  have haddress : currentAddress t.takePosition.pos = currentAddress t'.takePosition.pos := congrArg currentAddress hsreg
  dsimp only
  rw [hcfg, haddress]
  split
  · rw [newlinePath, newlinePath, hcfg]
    exact writeCommand_alike hpos _
  · exact andThen_sameEnd (wrapPath_alike hpos _) (fun _ _ h => h) fun _ _ h => writeByte_alike h true ch

theorem progressOf_alike (h : Alike before before' s s') (i : Instr) (hi : i ≠ .rdstat) :
    SameEnd (Alike before before') (progressOf i s) (progressOf i s') := by
  cases i with
  | init attributes => exact initAll_alike h attributes
  | clear | home =>
    simp only [progressOf, h.cfg]
    exact writeCommand_alike h _
  | wrcmd b => exact writeCommand_alike h b
  | gotoxy col row =>
    rw [progressOf, gotoXY, gotoXY, h.cfg]
    split
    · exact .failed _ h
    · exact writeCommand_alike h _
  | putc ch => exact printChar_alike h ch
  | wrdata b => exact gated_alike h fun _ _ h => writeByte_alike h.1 true b
  | rdstat => exact absurd rfl hi
  | busRs | busRd =>
    simp only [progressOf, h.byteAhead_eq]
    exact .done (h.hasRead _ _)
  | busWi | busWd | lcdClear | lcdHome | lcdEntry | lcdDisplay | lcdFunction | lcdSetddram =>
    simp only [progressOf, h.cfg]
    exact .done (h.wrote _ _)

/-- With the status byte of `RDSTAT`, which its answer carries (rule R150). -/
theorem progressOf_alike_answer (h : Alike before before' s s') (i : Instr) :
    SameEnd (fun t t' => Alike before before' t t' ∧ (i = .rdstat → t.sreg = t'.sreg)) (progressOf i s) (progressOf i s') := by
  by_cases hi : i = .rdstat
  · subst hi
    exact (waitReady_alike h).mono fun _ _ h => ⟨h.1, fun _ => h.2⟩
  · exact (progressOf_alike h i hi).mono fun _ _ h => ⟨h, fun hr => absurd hr hi⟩

/-- The data of an answer is the status byte for `RDSTAT` and zero for every other instruction (rule R99). -/
theorem responseData_entry (cfg : Configuration) (i : Instr) (s : State) :
    s.responseData (entryRoutine cfg i) = if i = .rdstat then s.sreg else 0 := by
  cases i <;> rfl

end Alike

/-- Settles O51: the two operations come to the same end, with the same events and the same byte in `SREG` for `RDSTAT`. -/
theorem operationDependsOnlyOnAnswers : Obligations.OperationDependsOnlyOnAnswers := by
  intro i s s' t t' hs hs' hcfg hans hdraws h h'
  have halike : Alike s.trace s'.trace s.accept s'.accept :=
    ⟨hcfg, hans, hdraws, [], (List.append_nil _).symm, (List.append_nil _).symm⟩
  have hend := progressOf_alike_answer halike i
  generalize hp : progressOf i s.accept = p at hend
  generalize hp' : progressOf i s'.accept = p' at hend
  cases hend with
  | done hu =>
    obtain ⟨⟨_, _, _, htrace⟩, hsreg⟩ := hu
    cases (exec_done i s _ hs hp).symm.trans h
    cases (exec_done i s' _ hs' hp').symm.trans h'
    refine ⟨?_, rfl, htrace⟩
    simp only [complete_rsp, responseData_entry]
    split
    · rw [hsreg ‹_›]
    · rfl
  | failed k hu =>
    cases (exec_failed i s _ k hs hp).symm.trans h
    cases (exec_failed i s' _ k hs' hp').symm.trans h'
    exact ⟨rfl, rfl, hu.1.trace⟩
  | undetermined =>
    cases (exec_undetermined i s hs hp).symm.trans h
    cases (exec_undetermined i s' hs' hp').symm.trans h'
    refine ⟨rfl, ?_, [], (List.append_nil _).symm, (List.append_nil _).symm⟩
    rw [start_seq, start_seq, hcfg]

end Sys2Proof.Machine
end

section
/-! SUPPORT. Acceptance and the rest of a text: what an idle block takes from the port, and what a running one leaves there. -/

namespace Sys2Proof.Machine

/-- A step of a running operation keeps the port, the rest of a text, and whatever else a step keeps (rules R59, R70). -/
theorem step_running_extends {s t : State} (hs : s.seq ≠ []) (h : step s = .next t) : s.Extends t := by
  rcases step_extends h with ⟨hext, _⟩ | ⟨hidle, _⟩
  · exact hext
  · exact absurd hidle hs

/-- Settles O6: an operation needs an idle block, and an action of the sequencer touches neither the port nor the text. -/
theorem busyBlockTakesNoCommand : Obligations.BusyBlockTakesNoCommand :=
  ⟨exec_busy, fun _ _ hs h => ⟨(step_running_extends hs h).cmds, (step_running_extends hs h).text⟩⟩

/-- Settles O55: one action of the sequencer, made on both states. -/
theorem heldAndDrawnAnswersStepAlike : Obligations.HeldAndDrawnAnswersStepAlike :=
  fun _ _ _ hs hsame h => step_sameAhead hs hsame h

theorem decodeTableWord_eq_some_iff {nbits w : Nat} {i : Instr} :
    decodeTableWord nbits w = some i ↔ decode (requestOf nbits w) = .instr i := by
  rw [decodeTableWord]
  cases decode (requestOf nbits w) <;> simp

/-- Settles O4: the step of an idle block on the word at the head of its port, which `withFetchWord` puts there. -/
theorem stepRunsDecodedCommand : Obligations.StepRunsDecodedCommand := by
  refine ⟨fun s r rest i hs ht hc hd => step_instr s r rest i hs ht hc hd, fun s nbits w i h => ?_⟩
  exact step_instr (s.withFetchWord nbits w) _ s.cmds i rfl rfl rfl (decodeTableWord_eq_some_iff.1 h)

end Sys2Proof.Machine
end

section
/-! SUPPORT. Where the sequencer reads a pin: only in the strobes of `ReadByte`. -/

namespace Sys2Proof.Machine

theorem setEvent_ne_rd (p q : Pin) (v w : Bool) : setEvent p v ≠ .rd q w := by
  cases v <;> simp [setEvent]

/-- `Initialize` reads no pin in its own frame (rule R163). -/
theorem initSteps_emit_no_rd {s : State} {cfg : Configuration} {attributes : Byte} {a : Action}
    (ha : a ∈ initSteps cfg attributes) (p : Pin) (v : Bool) : a.emits s ≠ some (.rd p v) := by
  have hreset : Event.rd p v ∉ resetEvents cfg cfg.resetSeq := by
    simp [resetEvents, putNibbleEvents, (setEvent_ne_rd _ p _ v).symm]
  have hpins : Event.rd p v ∉ initPinEvents cfg := by
    simp [initPinEvents, hreset]
  intro he
  rw [initSteps_eq, List.mem_append, List.mem_map] at ha
  rcases ha with ⟨ev, hev, rfl⟩ | hcall
  · cases he
    exact hpins hev
  · simp only [List.mem_cons, List.not_mem_nil, or_false] at hcall
    rcases hcall with rfl | rfl | rfl | rfl <;> cases he

/-- A `Rd` is one of the eight samples of `ReadByte`, in the high phase of one of its two strobes (rules R118, R126). -/
theorem readByte_of_emits_rd {s : State} {f : Frame} {a : Action} {p : Pin} {v : Bool}
    (ha : stepOf s.cfg f.routine f.step = some a) (he : a.emits s = some (.rd p v)) :
    ∃ rs, f.routine = .readByte rs ∧ 8 ≤ f.step ∧ f.strobePhase s.cfg = .high := by
  obtain ⟨r, n⟩ := f
  cases r with
  | init attributes => exact absurd he (initSteps_emit_no_rd (List.mem_of_getElem? ha) p v)
  | writeByte rs b =>
    simp only [stepOf, writeByteStep] at ha
    split at ha <;> cases ha <;> simp [Action.emits, setEvent_ne_rd] at he
  | readByte rs =>
    refine ⟨rs, rfl, ?_⟩
    simp only [stepOf, readByteStep] at ha
    split at ha <;> cases ha <;> simp [Action.emits, setEvent_ne_rd] at he <;> simp [Frame.strobePhase]
  | waitReady =>
    simp only [stepOf, waitReadyStep] at ha
    split at ha <;> cases ha <;> cases he
  | clear | home | readStatus | writeCommand | writeData =>
    obtain ⟨callee, rfl⟩ := stepOf_onlyCalls rfl ha
    cases he
  | gotoXY col row =>
    simp only [stepOf] at ha
    split at ha
    · cases ha; cases he
    · split at ha <;> cases ha
      cases he
  | printChar ch =>
    simp only [stepOf, printCharStep] at ha
    split at ha <;> cases ha <;> cases he

/-- A step list's `Rd` is of a data pin (rule R11). -/
theorem isDataPin_of_emits_rd {s : State} {r : Routine} {n : Nat} {a : Action} {p : Pin} {v : Bool}
    (ha : stepOf s.cfg r n = some a) (he : a.emits s = some (.rd p v)) : isDataPin p = true := by
  have hspare := stepOf_sparesControl ha
  cases a with
  | event ev => cases he; exact hspare
  | sample q bit => cases he; exact hspare
  | drive q bit => exact absurd (Option.some.inj he) (setEvent_ne_rd q p _ v)
  | _ => cases he

/-- From step 6 of `ReadByte` on, every data pin is an input and `RW` is high (rule R234). -/
theorem ReadPins.inputs {s : State} {rs : Bool} {n : Nat} (h : ReadPins s rs n) (hn : 6 ≤ n) {p : Pin}
    (hp : isDataPin p = true) : s.dir.get p = .inp ∧ s.lat.rw = .high := by
  refine ⟨?_, h.rw hn⟩
  cases p with
  | db7 => exact h.in7 (by omega)
  | db6 => exact h.in6 (by omega)
  | db5 => exact h.in5 (by omega)
  | db4 => exact h.in4 (by omega)
  | e | rs | rw => cases hp

/-- Settles O48: the step is a sample of `ReadByte`, and the invariant says what its pins show there. -/
theorem samplesAreTakenInsideReadStrobes : Obligations.SamplesAreTakenInsideReadStrobes := by
  intro s t p v hinv hrun h htrace
  obtain ⟨f, callers, a, hs, ha, rfl⟩ := step_running_inv hrun h
  have he : a.emits s = some (.rd p v) := by
    rw [(perform_shows s a f callers).trace] at htrace
    exact Option.toList_eq_singleton_iff.1 (List.append_cancel_left htrace)
  obtain ⟨rs, hroutine, hstep, hphase⟩ := readByte_of_emits_rd ha he
  have hpin : isDataPin p = true := isDataPin_of_emits_rd ha he
  have hpins : ReadPins s rs f.step := by
    have hf := (pinsOk_cons hs).1 hinv.pins
    rwa [Frame.PinsOk, hroutine] at hf
  have henable : s.lat.e = .high :=
    ((enableOk_iff s).1 hinv.enable).2 (by rw [strobePhase_of_seq hs, hphase]; rfl)
  obtain ⟨hdir, hrw⟩ := hpins.inputs (by omega) hpin
  exact ⟨hpin, hdir, hrw, henable⟩

end Sys2Proof.Machine
end

section
/-! SUPPORT. `Print` (rule R173): one `PUTC` for each character in order. -/

namespace Sys2Proof.Machine

theorem answeredOk_iff (s : State) : s.answeredOk = true ↔ s.seq = [] ∧ ∃ d, s.rsp = some ⟨.ok, d⟩ := by
  rw [State.answeredOk, Bool.and_eq_true, State.idle, List.isEmpty_iff]
  refine and_congr_right fun _ => ?_
  cases s.rsp with
  | none => simp
  | some r => cases r; simp

/-- An instruction that is only started has no response yet (log 5). -/
theorem exec_idle_of_rsp {i : Instr} {s t : State} {r : Response} (hs : s.seq = []) (h : exec i s = .next t)
    (hr : t.rsp = some r) : t.seq = [] := by
  rcases exec_idle_cases hs h with ⟨u, r', _, rfl⟩ | ⟨_, rfl⟩
  · rfl
  · cases hr

section FirstCharacter
variable {ch : Byte} {s t : State}

/-- After an `Ok` the text goes on. -/
theorem execPrint_cons_ok (text : List Byte) (hs : s.seq = []) (h : exec (.putc ch) s = .next t)
    (hok : t.answeredOk = true) : execPrint (ch :: text) s = execPrint text t := by
  rw [execPrint_cons ch text s t hs h, if_pos hok]

/-- A failure ends the text. -/
theorem execPrint_cons_failed (text : List Byte) (hs : s.seq = []) (h : exec (.putc ch) s = .next t)
    (hok : t.answeredOk = false) (ht : t.seq = []) : execPrint (ch :: text) s = .next t := by
  have hidle : t.idle = true := by rw [State.idle, ht]; rfl
  rw [execPrint_cons ch text s t hs h, if_neg (by simp [hok]), if_pos hidle]

/-- Where the character only starts, the rest of the text waits (log 22). -/
theorem execPrint_cons_started (text : List Byte) (hs : s.seq = []) (h : exec (.putc ch) s = .next t)
    (ht : t.seq ≠ []) : execPrint (ch :: text) s = .next { t with text := text } := by
  have hidle : ¬ t.idle = true := by rwa [State.idle, List.isEmpty_iff]
  have hok : ¬ t.answeredOk = true := fun hok => ht ((answeredOk_iff t).1 hok).1
  rw [execPrint_cons ch text s t hs h, if_neg hok, if_neg hidle]

end FirstCharacter

/-- The state after a character that needs no newline and no wrap (rules R168, R170). -/
def State.putPlain (s : State) (ch : Byte) (g : Gate) : State :=
  State.complete (((s.accept.gated g).withPos g.reread).wrote true ch) (.printChar ch)

theorem putPlain_trace (s : State) (ch : Byte) (g : Gate) :
    (s.putPlain ch g).trace = s.trace ++ (g.events s.cfg ++ writeEvents s.cfg true ch) :=
  List.append_assoc _ _ _

/-- A character that needs no newline and no wrap, with a gate that opens (rules R168, R170). -/
def PlainItem (cfg : Configuration) (x : Byte × Gate) : Prop :=
  x.1 ≠ cfg.chNewline ∧ wrapCase cfg (currentAddress x.2.reread) = .noWrap ∧ x.2.opens cfg = true

theorem exec_putc_plain {s : State} {ch : Byte} {g : Gate} {rest : List Bool} (hs : s.seq = [])
    (hx : PlainItem s.cfg (ch, g)) (ha : s.answers = script g.bytes ++ rest) :
    exec (.putc ch) s = .next (s.putPlain ch g) := by
  obtain ⟨hc, hw, ho⟩ := hx
  exact exec_done (.putc ch) s _ hs (printChar_plain s.accept ch g rest ha ho hc hw)

/-- Characters that need no newline and no wrap, on the answers of their gates (rule R173). -/
theorem execPrint_plain {s : State} {rest : List Bool} (items : List (Byte × Gate)) (hs : s.seq = [])
    (hitems : ∀ x ∈ items, PlainItem s.cfg x) (ha : s.answers = script (items.flatMap fun x => x.2.bytes) ++ rest) :
    ∃ t, execPrint (items.map Prod.fst) s = .next t ∧ t.seq = [] ∧ t.trace = s.trace ++ printEvents s.cfg items ∧
      t.answers = rest := by
  induction items generalizing s with
  | nil => exact ⟨s, rfl, hs, (List.append_nil _).symm, ha⟩
  | cons x items ih =>
    obtain ⟨ch, g⟩ := x
    obtain ⟨hx, hitems⟩ := List.forall_mem_cons.1 hitems
    rw [List.flatMap_cons, script_append, List.append_assoc] at ha
    have hexec := exec_putc_plain hs hx ha
    have hans := gated_answers s.accept g _ ha
    obtain ⟨t, ht, hseq, htrace, hrest⟩ := ih (s := s.putPlain ch g) rfl hitems hans
    refine ⟨t, ?_, hseq, ?_, hrest⟩
    · rw [List.map_cons, execPrint_cons_ok _ hs hexec rfl, ht]
    · rw [htrace, putPlain_trace, List.append_assoc]
      rfl

/-- Settles O39: the first character by its outcome, the next one by the last response, and plain characters by induction. -/
theorem printSendsCharactersInOrder : Obligations.PrintSendsCharactersInOrder := by
  refine ⟨fun _ => rfl, execPrint_busy, fun ch text s t hs h => ⟨fun ht hok => ?_, fun ⟨d, hd⟩ => ?_, ?_⟩,
    fun s t hs h => (step_running_extends hs h).text, fun s ch text r hs ht hr => ⟨fun hok => ?_, fun hne => ?_⟩,
    fun items s rest hs hitems ha => execPrint_plain items hs hitems ha⟩
  · exact execPrint_cons_ok text hs h ((answeredOk_iff t).2 ⟨ht, hok⟩)
  · have hok : t.answeredOk = false := by simp [State.answeredOk, hd]
    exact execPrint_cons_failed text hs h hok (exec_idle_of_rsp hs h hd)
  · exact execPrint_cons_started text hs h
  · exact step_print s ch text hs ht (by simp [State.answeredOk, State.idle, hs, hr, hok])
  · exact step_print_ends s ch text hs ht (by simp [State.answeredOk, hr, hne])

end Sys2Proof.Machine
end

section
/-! SUPPORT. Encodings (rules R81, R90, R97, R98): the fields of a command word as numbers, what the decoder accepts, and the
fixed bits of the table's rows. -/

namespace Sys2Proof.Machine

/-! ### The fields of a command word (rule R96) -/

section Fields
variable (w : CommandWord)

theorem op_eq : w.op = w.toNat / 0x1000 := by
  have hw := w.isLt
  rw [CommandWord.op, BitVec.extractLsb'_toNat, Nat.shiftRight_eq_div_pow]
  omega

theorem zero_eq_zero_iff : w.zero = 0 ↔ w.toNat / 0x200 % 8 = 0 := by
  rw [CommandWord.zero, ← BitVec.toNat_inj, BitVec.extractLsb'_toNat, Nat.shiftRight_eq_div_pow]
  rfl

theorem row_eq : w.row = w.toNat / 0x100 % 2 := by
  rw [CommandWord.row, BitVec.extractLsb'_toNat, Nat.shiftRight_eq_div_pow]

theorem row_lt : w.row < 2 := by
  rw [row_eq]
  exact Nat.mod_lt _ two_pos

theorem row_ne_zero_iff : w.row ≠ 0 ↔ w.row = 1 := by
  have hrow := row_lt w
  omega

theorem toNat_arg : w.arg.toNat = w.toNat % 0x100 := by
  rw [CommandWord.arg, BitVec.extractLsb'_toNat, Nat.shiftRight_zero]

theorem arg_eq_zero_iff : w.arg = 0 ↔ w.toNat % 0x100 = 0 := by
  rw [← BitVec.toNat_inj, toNat_arg]
  rfl

end Fields

/-- Two words side by side as a sum. -/
theorem toNat_append_eq_add {m n : Nat} (x : BitVec m) (y : BitVec n) : (x ++ y).toNat = x.toNat * 2 ^ n + y.toNat := by
  rw [BitVec.toNat_append, ← Nat.shiftLeft_add_eq_or_of_lt y.isLt, Nat.shiftLeft_eq]

section Assembled
variable {op row : Nat} (arg : Byte)

theorem toNat_commandWord : (commandWord op row arg).toNat = op % 16 * 0x1000 + row % 2 * 0x100 + arg.toNat := by
  simp only [commandWord, toNat_append_eq_add, BitVec.ofNat_eq_ofNat, BitVec.toNat_ofNat]
  omega

@[simp] theorem commandWord_op (h : op < 16) : (commandWord op row arg).op = op := by
  rw [op_eq, toNat_commandWord]
  omega

@[simp] theorem commandWord_zero : (commandWord op row arg).zero = 0 := by
  rw [zero_eq_zero_iff, toNat_commandWord]
  omega

@[simp] theorem commandWord_row (h : row < 2) : (commandWord op row arg).row = row := by
  rw [row_eq, toNat_commandWord]
  omega

@[simp] theorem commandWord_arg : (commandWord op row arg).arg = arg := by
  apply BitVec.eq_of_toNat_eq
  rw [toNat_arg, toNat_commandWord]
  omega

end Assembled

/-- A word whose must-be-zero bits are 0 is assembled from its other fields (rule R96). -/
theorem commandWord_fields {w : CommandWord} (h : w.zero = 0) : commandWord w.op w.row w.arg = w := by
  have hw := w.isLt
  rw [zero_eq_zero_iff] at h
  apply BitVec.eq_of_toNat_eq
  rw [toNat_commandWord, op_eq, row_eq, toNat_arg]
  omega

/-! ### Decoding what was encoded -/

theorem toNat_setDdramPattern (a : Address) : (setDdramPattern a).toNat = 0x80 + a.toNat := toNat_append_eq_add 1 a

/-- Bit 7 of a controller byte is `LCD.SETDDRAM`'s fixed bit (rule R90). -/
theorem decodeLcdi_setDdramPattern (a : Address) : decodeLcdi (setDdramPattern a) = .instr (.lcdSetddram a) := by
  have hbit : (setDdramPattern a).getLsbD 7 = true := by rw [setDdramPattern, BitVec.getLsbD_append]; rfl
  rw [decodeLcdi, if_pos hbit, setDdramPattern, BitVec.extractLsb'_append_eq_right]

theorem decodeLcdi_displayByte (d c b : Bool) : decodeLcdi (displayByte d c b) = .instr (.lcdDisplay d c b) := by
  revert d c b
  decide

/-- Settles O10, by the fields of the assembled word. -/
theorem decodeOfEncodeIsIdentity : Obligations.DecodeOfEncodeIsIdentity := by
  intro i hwf
  cases i with
  | init | putc | wrcmd | wrdata => simp [decode, encode, decodeCommand, decodeWithArg]
  | clear | home | rdstat => simp [decode, encode, decodeCommand, decodePlain]
  | gotoxy col row =>
    have hrow : row < 2 := of_decide_eq_true hwf
    simp [decode, encode, decodeCommand, hrow]
  | busWi | busWd | busRs | busRd | lcdClear | lcdHome | lcdEntry | lcdFunction => rfl
  | lcdDisplay d c b => exact decodeLcdi_displayByte d c b
  | lcdSetddram a => exact decodeLcdi_setDdramPattern a

/-- Settles O13: the words are the encodings of their instructions. -/
theorem wordsDecodeAsWritten : Obligations.WordsDecodeAsWritten := by
  have h := decodeOfEncodeIsIdentity
  exact ⟨h (.init 0x0C) rfl, h .clear rfl, h .home rfl, h (.gotoxy 5 1) rfl, h (.putc 0x41) rfl, h (.wrcmd 1) rfl,
    h (.wrdata 0xFF) rfl, h .rdstat rfl, h (.busWi 0x28) rfl, h (.busWd 0x41) rfl, h .busRs rfl, h .busRd rfl,
    h .lcdClear rfl, h .lcdHome rfl, h .lcdEntry rfl, h (.lcdDisplay true false true) rfl, h .lcdFunction rfl,
    h (.lcdSetddram 0x45) rfl⟩

/-! ### What the decoder accepts -/

section Decoded
variable {w : CommandWord} {i j : Instr} {f : Byte → Instr}

theorem decodeWithArg_eq_instr_iff : decodeWithArg w f = .instr i ↔ w.row = 0 ∧ f w.arg = i := by
  rw [decodeWithArg]
  split <;> simp [*]

theorem decodePlain_eq_instr_iff : decodePlain w j = .instr i ↔ w.row = 0 ∧ w.arg = 0 ∧ j = i := by
  rw [decodePlain]
  split
  · split <;> simp_all
  · simp [*]

theorem decodeWithArg_rejects_iff : (∃ why, decodeWithArg w f = .reject why) ↔ w.row ≠ 0 := by
  rw [decodeWithArg]
  split <;> simp [*]

theorem decodePlain_rejects_iff : (∃ why, decodePlain w j = .reject why) ↔ w.row ≠ 0 ∨ w.arg ≠ 0 := by
  rw [decodePlain]
  split
  · split <;> simp_all
  · simp [*]

/-- The command word of an accepted operation is assembled from the operation and its operands (rules R96, R97). -/
theorem encode_of_decodeCommand (h : decodeCommand w = .instr i) : encode i = .cw w ∧ i.wellFormed = true := by
  rw [decodeCommand] at h
  split at h
  · next hzero =>
      have hw := commandWord_fields hzero
      split at h
      case h_1 hop | h_5 hop | h_6 hop | h_7 hop =>
        obtain ⟨hrow, rfl⟩ := decodeWithArg_eq_instr_iff.1 h
        rw [hop, hrow] at hw
        exact ⟨congrArg _ hw, rfl⟩
      case h_2 hop | h_3 hop | h_8 hop =>
        obtain ⟨hrow, harg, rfl⟩ := decodePlain_eq_instr_iff.1 h
        rw [hop, hrow, harg] at hw
        exact ⟨congrArg _ hw, rfl⟩
      case h_4 hop =>
        cases h
        rw [hop] at hw
        exact ⟨congrArg _ hw, decide_eq_true (row_lt w)⟩
      case h_9 => cases h
  · cases h

/-- A command word is rejected exactly if it is one of the words of rule R98. -/
theorem decodeCommand_rejects_iff : (∃ why, decodeCommand w = .reject why) ↔ reservedWord w := by
  rw [decodeCommand, reservedWord]
  split
  · next hzero =>
      split
      case h_1 hop | h_5 hop | h_6 hop | h_7 hop =>
        rw [decodeWithArg_rejects_iff, row_ne_zero_iff]
        simp [hop, hzero]
      case h_2 hop | h_3 hop | h_8 hop =>
        rw [decodePlain_rejects_iff, row_ne_zero_iff]
        simp [hop, hzero]
      case h_4 hop => simp [hop, hzero]
      case h_9 =>
        have hop : w.op = 0x0 ∨ 0x9 ≤ w.op := by
          simp only [imp_false] at *
          omega
        exact iff_of_true ⟨_, rfl⟩ (hop.imp_right .inl)
  · next hzero => exact iff_of_true ⟨_, rfl⟩ (.inr (.inr (.inl hzero)))

end Decoded

/-- The four cycle kinds (rule R81). -/
theorem cycleKind_cases (kind : BitVec 2) : kind = 0b00 ∨ kind = 0b10 ∨ kind = 0b01 ∨ kind = 0b11 := by
  revert kind
  decide

theorem encode_of_decodeCycle {kind : BitVec 2} {operand : Byte} {i : Instr} (h : decodeCycle kind operand = .instr i) :
    encode i = .cycle kind operand ∧ i.wellFormed = true := by
  rcases cycleKind_cases kind with rfl | rfl | rfl | rfl
  case inl | inr.inl =>
    cases h
    exact ⟨rfl, rfl⟩
  case inr.inr.inl | inr.inr.inr =>
    obtain ⟨rfl, hi⟩ | ⟨_, hi⟩ := ite_eq_iff.1 h <;> cases hi
    exact ⟨rfl, rfl⟩

/-- A byte with bit 7 set is the set-address pattern of its other bits (rule R92). -/
theorem setDdramPattern_of_bit {b : Byte} (h : b.getLsbD 7 = true) : setDdramPattern (b.extractLsb' 0 7) = b := by
  revert b
  decide

/-- A byte whose five high bits are `00001` is the display pattern of its low three (rule R91). -/
theorem displayByte_of_bits {b : Byte} (h : b.extractLsb' 3 5 = 1) :
    displayByte (b.getLsbD 2) (b.getLsbD 1) (b.getLsbD 0) = b := by
  revert b
  decide

theorem encode_of_decodeLcdi {byte : Byte} {i : Instr} (h : decodeLcdi byte = .instr i) :
    encode i = .lcdi byte ∧ i.wellFormed = true := by
  rw [decodeLcdi] at h
  split_ifs at h with h7 hdisplay hclear hhome hentry hfunction <;> cases h
  · exact ⟨congrArg _ (setDdramPattern_of_bit h7), rfl⟩
  · exact ⟨congrArg _ (displayByte_of_bits hdisplay), rfl⟩
  all_goals
    subst byte
    exact ⟨rfl, rfl⟩

/-- Settles O11, format by format. -/
theorem encodeOfDecodeIsIdentity : Obligations.EncodeOfDecodeIsIdentity := by
  intro r i h
  cases r with
  | cw w => exact encode_of_decodeCommand h
  | cycle kind operand => exact encode_of_decodeCycle h
  | lcdi byte => exact encode_of_decodeLcdi h

/-! ### The rows of the table -/

/-- Every instruction has its row (rules R81, R90, R97). -/
theorem encodesRow (i : Instr) : Laws.EncodesRow.Statement i := by
  cases i with
  | init a => exact Laws.EncodesRow.init a
  | clear => exact Laws.EncodesRow.clear
  | home => exact Laws.EncodesRow.home
  | gotoxy col row => exact Laws.EncodesRow.gotoxy col row
  | putc ch => exact Laws.EncodesRow.putc ch
  | wrcmd b => exact Laws.EncodesRow.wrcmd b
  | wrdata b => exact Laws.EncodesRow.wrdata b
  | rdstat => exact Laws.EncodesRow.rdstat
  | busWi b => exact Laws.EncodesRow.busWi b
  | busWd b => exact Laws.EncodesRow.busWd b
  | busRs => exact Laws.EncodesRow.busRs
  | busRd => exact Laws.EncodesRow.busRd
  | lcdClear => exact Laws.EncodesRow.lcdClear
  | lcdHome => exact Laws.EncodesRow.lcdHome
  | lcdEntry => exact Laws.EncodesRow.lcdEntry
  | lcdDisplay d c b => exact Laws.EncodesRow.lcdDisplay d c b
  | lcdFunction => exact Laws.EncodesRow.lcdFunction
  | lcdSetddram a => exact Laws.EncodesRow.lcdSetddram a

theorem hits_iff (row : OpcodeRow) (r : Request) :
    row.hits r = true ↔ r.width = row.width ∧ r.tableBits &&& row.mask = row.value := by
  rw [OpcodeRow.hits, Bool.and_eq_true, beq_iff_eq, beq_iff_eq]

/-- Two rows of a format differ in a bit that both fix. -/
theorem opcodeTable_disjoint : ∀ row ∈ opcodeTable, ∀ row' ∈ opcodeTable, row.width = row'.width →
    row.value &&& row'.mask = row'.value &&& row.mask → row = row' := by
  decide

theorem mnemonic_injOn : ∀ row ∈ opcodeTable, ∀ row' ∈ opcodeTable, row.mnemonic = row'.mnemonic → row = row' := by
  decide

/-- A request has the fixed bits of one row at most. -/
theorem row_unique {r : Request} {row row' : OpcodeRow} (hrow : row ∈ opcodeTable) (hrow' : row' ∈ opcodeTable)
    (h : row.hits r = true) (h' : row'.hits r = true) : row = row' := by
  obtain ⟨hwidth, hbits⟩ := (hits_iff row r).1 h
  obtain ⟨hwidth', hbits'⟩ := (hits_iff row' r).1 h'
  refine opcodeTable_disjoint row hrow row' hrow' (hwidth.symm.trans hwidth') ?_
  rw [← hbits, ← hbits', Nat.and_right_comm]

/-- Settles O12: the row of the instruction's name is hit, and no two rows are. -/
theorem encodingHitsExactlyItsRow : Obligations.EncodingHitsExactlyItsRow := by
  intro i hwf row hrow
  obtain ⟨own, hown, hname, hhits⟩ := encodesRow i hwf
  constructor
  · intro h
    rw [row_unique hrow hown h hhits, hname]
  · intro h
    rwa [mnemonic_injOn row hrow own hown (h.trans hname.symm)]

/-! ### Reserved words (rule R98) -/

/-- The bits a mask of `n` ones above `k` zeros leaves of a number. -/
theorem and_highMask (x k n : Nat) : x &&& (2 ^ n - 1) <<< k = x / 2 ^ k % 2 ^ n * 2 ^ k := by
  rw [← Nat.shiftLeft_eq, ← Nat.shiftRight_eq_div_pow, ← Nat.and_two_pow_sub_one_eq_mod]
  refine Nat.eq_of_testBit_eq fun j => ?_
  simp only [Nat.testBit_and, Nat.testBit_shiftLeft, Nat.testBit_shiftRight, Nat.testBit_two_pow_sub_one]
  by_cases h : k ≤ j <;> simp [h]

/-- The mask of the rows with a byte operand. -/
theorem and_operandMask (x : Nat) : x &&& 0xFF00 = x / 0x100 % 0x100 * 0x100 := and_highMask x 8 8

/-- The mask of `GOTOXY`, whose operands are the line and the column. -/
theorem and_gotoxyMask (x : Nat) : x &&& 0xFE00 = x / 0x200 % 0x80 * 0x200 := and_highMask x 9 7

/-- The mask of the rows without operand. -/
theorem and_fullMask (x : Nat) : x &&& 0xFFFF = x % 0x10000 := Nat.and_two_pow_sub_one_eq_mod x 16

/-- The fixed bits of the eight rows and the fields of rule R98, both as quotients and remainders of the word's number. -/
theorem exists_commandRow_iff (w : CommandWord) :
    (∃ row ∈ commandRows, row.hits (.cw w) = true) ↔ ¬ reservedWord w := by
  have hw := w.isLt
  simp only [commandRows, List.mem_cons, List.not_mem_nil, or_false, exists_eq_or_imp, exists_eq_left, hits_iff,
    Request.width, Request.tableBits, true_and, and_operandMask, and_gotoxyMask, and_fullMask]
  simp only [reservedWord, op_eq, row_eq, ne_eq, zero_eq_zero_iff, arg_eq_zero_iff]
  omega

/-- A rejected request takes its word from the port and is answered `Illegal` with the data 0x00; nothing else changes (rules
R98, R191). -/
theorem step_reject_illegal {s : State} {r : Request} {rest : List Request} {why : DecodeError} (hs : s.seq = [])
    (ht : s.text = []) (hc : s.cmds = r :: rest) (hd : decode r = .reject why) :
    step s = .next { s with cmds := rest, rsp := some ⟨.illegal, 0⟩ } := by
  rw [step_reject s r rest why hs ht hc hd, State.raise, hs]

/-- Settles O9: the decoder and the table agree on the reserved words, and a word that is rejected is answered `Illegal`. -/
theorem reservedWordsAreRefused : Obligations.ReservedWordsAreRefused := by
  refine ⟨fun w => decodeCommand_rejects_iff, fun w => (exists_commandRow_iff w).symm, ?_, rfl⟩
  intro s w rest hs ht hc hw
  obtain ⟨why, hd⟩ := decodeCommand_rejects_iff.2 hw
  exact step_reject_illegal hs ht hc hd

end Sys2Proof.Machine
end

section
/-! SUPPORT. The controller instruction bytes as whole writes (rules R90 to R92), and the set-address byte as a number. -/

namespace Sys2Proof.Machine

/-- An instruction that is one whole write completes with it (rules R90, R120). -/
theorem exec_wrote {i : Instr} {s : State} {rs : Bool} {b : Byte} (hs : s.seq = [])
    (hp : progressOf i s.accept = .done (s.accept.wrote rs b)) (hr : entryRoutine s.cfg i = .writeByte rs b) :
    exec i s = .next ((s.wrote rs b).responded .ok 0) := by
  rw [exec_done i s _ hs hp, hr, State.complete, ← hs]
  rfl

/-- Settles O19: each row is one write, of its byte. -/
theorem controllerBytesAreWritten : Obligations.ControllerBytesAreWritten := by
  intro s hs
  exact ⟨exec_wrote hs rfl rfl, exec_wrote hs rfl rfl, exec_wrote hs rfl rfl, exec_wrote hs rfl rfl,
    fun d c b => exec_wrote hs rfl rfl, fun a => exec_wrote hs rfl rfl⟩

theorem toNat_setAddressByte (cfg : Configuration) (a : Byte) :
    (setAddressByte cfg a).toNat = (cfg.cmdSetDdram.toNat + a.toNat) % 256 :=
  BitVec.toNat_add _ _

theorem toNat_gotoByte (cfg : Configuration) (col : Byte) (row : Nat) :
    (gotoByte cfg col row).toNat = (cfg.cmdSetDdram.toNat + (lineBase cfg row).toNat + col.toNat) % 256 := by
  rw [gotoByte, BitVec.toNat_add, BitVec.toNat_add]
  omega

/-- A 7-bit address keeps its value as a byte. -/
theorem toNat_zeroExtend_address (a : Address) : (a.zeroExtend 8).toNat = a.toNat := by
  rw [BitVec.zeroExtend, BitVec.toNat_setWidth_of_le (by decide)]

/-- Settles O20, as sums of natural numbers modulo 256. -/
theorem setAddressByteIsEightBitSum : Obligations.SetAddressByteIsEightBitSum := by
  refine ⟨toNat_setAddressByte, fun cfg col => ?_, fun a => ?_, rfl⟩
  · rw [toNat_gotoByte, toNat_gotoByte, ← toNat_zeroExtend_address cfg.line1Base,
      ← toNat_zeroExtend_address cfg.line2Base]
    exact ⟨rfl, rfl⟩
  · apply BitVec.eq_of_toNat_eq
    have ha := a.isLt
    have hpattern : ((1 : BitVec 1) ++ a).toNat = 0x80 + a.toNat := toNat_setDdramPattern a
    rw [toNat_setAddressByte, toNat_zeroExtend_address, hpattern]
    exact Nat.mod_eq_of_lt (show 0x80 + a.toNat < 256 by omega)

end Sys2Proof.Machine
end

section
/-! SUPPORT. Responses (rule R99): what an operation answers when it runs at once and when its sequencer ends it. -/

namespace Sys2Proof.Machine

/-! ### Failures need a hardening option -/

/-- One of the two hardening options is on (rules R146, R167). -/
def Hardened (cfg : Configuration) : Prop := cfg.maxPoll ≠ none ∨ cfg.checkBounds = true

/-- If the operation fails, a hardening option is on. -/
def Progress.FailsHardened : Progress → Prop
  | .failed _ t => Hardened t.cfg
  | .done _ | .undetermined => True

theorem andThen_failsHardened {p : Progress} {f : State → Progress} (hp : p.FailsHardened)
    (hf : ∀ t, (f t).FailsHardened) : (p.andThen f).FailsHardened := by
  cases p with
  | done t => exact hf t
  | failed k t => exact hp
  | undetermined => exact True.intro

theorem waitReady_failsHardened (s : State) : (waitReady s).FailsHardened := by
  rcases waitReady_cases s with he | ⟨g, _, _, _, _, _, he⟩ | ⟨polls, _, _, _, _, hmax, he⟩ <;> rw [he]
  · exact True.intro
  · exact True.intro
  · exact .inl (by simp [State.timedOutAfter, hmax])

theorem writeCommand_failsHardened (b : Byte) (s : State) : (writeCommand b s).FailsHardened :=
  andThen_failsHardened (waitReady_failsHardened s) fun _ => True.intro

theorem hardened_of_outOfBounds {cfg : Configuration} {col : Byte} (h : outOfBounds cfg col = true) : Hardened cfg :=
  .inr (Bool.and_eq_true_iff.1 h).1

theorem wrapPath_failsHardened (a : Address) (s : State) : (wrapPath a s).FailsHardened := by
  rw [wrapPath]
  split
  · exact True.intro
  · exact waitReady_failsHardened _
  · exact waitReady_failsHardened _

/-- The two failures of an operation are the timeout and the bounds check (rule R191). -/
theorem progressOf_failsHardened (i : Instr) (s : State) : (progressOf i s).FailsHardened := by
  cases i with
  | init attributes =>
    rw [progressOf, initAll, andThen_done]
    refine andThen_failsHardened (writeCommand_failsHardened _ _) fun t => ?_
    refine andThen_failsHardened (writeCommand_failsHardened _ t) fun t => ?_
    refine andThen_failsHardened (writeCommand_failsHardened _ t) fun t => ?_
    exact writeCommand_failsHardened _ t
  | clear | home | wrcmd => exact writeCommand_failsHardened _ s
  | gotoxy col row =>
    rw [progressOf, gotoXY]
    split
    · next hout => exact hardened_of_outOfBounds hout
    · exact writeCommand_failsHardened _ s
  | putc ch =>
    refine andThen_failsHardened (waitReady_failsHardened s) fun t => ?_
    dsimp only
    split
    · exact writeCommand_failsHardened _ _
    · exact andThen_failsHardened (wrapPath_failsHardened _ _) fun _ => True.intro
  | wrdata b => exact andThen_failsHardened (waitReady_failsHardened s) fun _ => True.intro
  | rdstat => exact waitReady_failsHardened s
  | busWi | busWd | busRs | busRd | lcdClear | lcdHome | lcdEntry | lcdDisplay | lcdFunction | lcdSetddram =>
    exact True.intro

/-! ### The answer of an operation -/

/-- The response the block holds is one that ends an operation of the outermost routine `outer`: `Ok` with its data, or a
failure of a hardening option (rules R99, R191). -/
def State.Answered (t : State) (outer : Routine) : Prop :=
  t.rsp = some ⟨.ok, t.responseData outer⟩ ∨ ∃ k, t.rsp = some ⟨k, 0⟩ ∧ k ≠ .ok ∧ Hardened t.cfg

/-- The data of an answer is the status byte for `RDSTAT` and zero for every other routine (rule R99). -/
theorem responseData_eq (s : State) (r : Routine) : s.responseData r = if r = .readStatus then s.sreg else 0 := by
  cases r <;> rfl

theorem entryRoutine_eq_readStatus_iff (cfg : Configuration) (i : Instr) :
    entryRoutine cfg i = .readStatus ↔ i = .rdstat := by
  cases i <;> simp [entryRoutine]

/-- The data and the code of an answer (rule R99). -/
theorem State.Answered.format {t : State} {outer : Routine} (h : t.Answered outer) :
    ∃ r, t.rsp = some r ∧ r.data = (if outer = .readStatus ∧ r.code = .ok then t.sreg else 0) ∧
      (t.cfg.maxPoll = none → t.cfg.checkBounds = false → r.code = .ok) := by
  rcases h with hok | ⟨k, hrsp, hk, hhard⟩
  · exact ⟨_, hok, by simp [responseData_eq], fun _ _ => rfl⟩
  · refine ⟨_, hrsp, (if_neg fun h => hk h.2).symm, fun hmax hbounds => ?_⟩
    rcases hhard with h | h
    · exact absurd hmax h
    · cases hbounds.symm.trans h

/-- An instruction that has its response was answered (rule R99). -/
theorem exec_answered {i : Instr} {s t : State} {r : Response} (hs : s.seq = []) (h : exec i s = .next t)
    (hr : t.rsp = some r) : t.Answered (entryRoutine s.cfg i) := by
  have hcode := progressOf_failsWithError i s.accept
  have hhard := progressOf_failsHardened i s.accept
  cases hp : progressOf i s.accept with
  | done u =>
    cases (exec_done i s u hs hp).symm.trans h
    exact .inl rfl
  | failed k u =>
    cases (exec_failed i s u k hs hp).symm.trans h
    rw [hp] at hcode hhard
    exact .inr ⟨k, rfl, hcode, hhard⟩
  | undetermined =>
    cases (exec_undetermined i s hs hp).symm.trans h
    cases hr

/-! ### The answer of a step of the sequencer -/

theorem takeResult_responseData (s : State) (g : Frame) (r : Routine) :
    (s.takeResult g).responseData r = s.responseData r := by
  rcases takeResult_cases s g with h | h <;> rw [h]
  rfl

/-- A frame with a further step keeps `SEQ` from being empty. -/
theorem dead_of_unwind_idle {s : State} {f : Frame} {callers : List Frame} (h : (s.unwind f callers).seq = []) :
    f.live s.cfg = false := by
  refine Bool.eq_false_iff.2 fun hlive => ?_
  rw [unwind_live s f callers hlive] at h
  cases h

/-- A return through every frame answers `Ok` for the outermost one (rule R32). -/
theorem unwind_rsp {s : State} {f : Frame} {callers : List Frame} {outer : Routine}
    (houter : ((f :: callers).map Frame.routine).getLast? = some outer) (h : (s.unwind f callers).seq = []) :
    (s.unwind f callers).rsp = some ⟨.ok, s.responseData outer⟩ := by
  have hdead := dead_of_unwind_idle h
  induction callers generalizing s f with
  | nil =>
    cases houter
    rw [unwind_last s f hdead]
    rfl
  | cons g callers ih =>
    rw [unwind_pop s f g callers hdead] at h ⊢
    rw [ih (f := g.next) houter h (dead_of_unwind_idle h), takeResult_responseData]

theorem unwind_answered {s : State} {f : Frame} {callers : List Frame} {outer : Routine}
    (houter : ((f :: callers).map Frame.routine).getLast? = some outer) (h : (s.unwind f callers).seq = []) :
    (s.unwind f callers).Answered outer := by
  refine .inl ?_
  rw [unwind_rsp houter h, responseData_eq, responseData_eq, unwind_sreg]

theorem testBusy_answered {s : State} {f : Frame} {callers : List Frame} {outer : Routine}
    (houter : ((f :: callers).map Frame.routine).getLast? = some outer) (h : (s.testBusy f callers).seq = []) :
    (s.testBusy f callers).Answered outer := by
  rw [State.testBusy] at h ⊢
  split at h
  · split at h
    · next hbusy htimed =>
      rw [if_pos hbusy, if_pos htimed]
      refine .inr ⟨.notReady, rfl, Code.noConfusion, .inl fun hmax => ?_⟩
      simp [State.timedOut, show s.cfg.maxPoll = none from hmax] at htimed
    · next hbusy htimed =>
      rw [if_pos hbusy, if_neg htimed]
      exact unwind_answered houter h
  · next hbusy =>
    rw [if_neg hbusy]
    exact unwind_answered houter h

/-- An action that empties `SEQ` answers for its outermost frame (rules R32, R146, R167). -/
theorem perform_answered {s : State} {a : Action} {f : Frame} {callers : List Frame} {outer : Routine}
    (houter : ((f :: callers).map Frame.routine).getLast? = some outer) (h : (s.perform a f callers).seq = []) :
    (s.perform a f callers).Answered outer := by
  cases a with
  | event | drive | sample | zeroCount | newlineTest | lineTest | wrapTest => exact unwind_answered houter h
  | call r => cases h
  | busyTest => exact testBusy_answered houter h
  | boundsTest col =>
    rw [State.perform] at h ⊢
    split at h
    · next hout =>
      rw [if_pos hout]
      exact .inr ⟨.invalidAddress, rfl, Code.noConfusion, hardened_of_outOfBounds hout⟩
    · next hin =>
      rw [if_neg hin]
      exact unwind_answered houter h

/-- Settles O52: an operation run at once and one that the sequencer ends are answered by the same rule. -/
theorem responsesFollowTheirFormat : Obligations.ResponsesFollowTheirFormat := by
  refine ⟨fun r => ⟨BitVec.extractLsb'_append_eq_left, BitVec.extractLsb'_append_eq_right⟩, ⟨rfl, rfl, rfl, rfl⟩,
    fun i s t r hs h hr => ?_, fun s t hs h ht => ?_, fun _ _ _ _ hs ht hc hd => step_reject_illegal hs ht hc hd⟩
  · obtain ⟨r', hr', hdata, hcode⟩ := (exec_answered hs h hr).format
    cases hr.symm.trans hr'
    rw [(exec_extends h).cfg] at hcode
    simp only [entryRoutine_eq_readStatus_iff] at hdata
    exact ⟨hdata, hcode⟩
  · obtain ⟨f, callers, a, hseq, _, rfl⟩ := step_running_inv hs h
    obtain ⟨outer, hlast⟩ : ∃ outer, (f :: callers).getLast? = some outer :=
      ⟨_, List.getLast?_eq_some_getLast (List.cons_ne_nil f callers)⟩
    have houter : ((f :: callers).map Frame.routine).getLast? = some outer.routine := by
      rw [List.getLast?_map, hlast]
      rfl
    obtain ⟨r, hr, hdata, hcode⟩ := (perform_answered houter ht).format
    rw [(step_running_extends hs h).cfg] at hcode
    exact ⟨r, outer, hr, hseq ▸ hlast, hdata, hcode⟩

end Sys2Proof.Machine
end

section
/-! SUPPORT. The four cycle kinds (rules R120 to R124): a whole write and a whole read run as instructions, and what the strobes
of each show. -/

namespace Sys2Proof.Machine

/-! ### Whole transactions as instructions -/

/-- An instruction that is one whole read completes with it (rule R122). -/
theorem exec_hasRead {i : Instr} {s : State} {rs : Bool} (hs : s.seq = [])
    (hp : progressOf i s.accept = .done (s.accept.hasRead rs s.byteAhead)) (hr : entryRoutine s.cfg i = .readByte rs) :
    exec i s = .next ((s.hasRead rs s.byteAhead).responded .ok 0) := by
  rw [exec_done i s _ hs hp, hr, State.complete, ← hs]
  rfl

/-- Settles O14: each row is one write. -/
theorem writeTransactionsComplete : Obligations.WriteTransactionsComplete :=
  fun _ _ hs => ⟨exec_wrote hs rfl rfl, exec_wrote hs rfl rfl⟩

/-- Settles O16: each row is one read, of the byte ahead. -/
theorem readTransactionsComplete : Obligations.ReadTransactionsComplete :=
  fun _ hs => ⟨exec_hasRead hs rfl rfl, exec_hasRead hs rfl rfl⟩

/-- `BUS.WI` and `BUS.WD` as one statement over the cycle kind. -/
theorem exec_write_cycle {s : State} (hs : s.seq = []) (rs : Bool) (b : Byte) :
    exec (bif rs then .busWd b else .busWi b) s = .next ((s.wrote rs b).responded .ok 0) := by
  obtain ⟨hwi, hwd⟩ := writeTransactionsComplete s b hs
  cases rs with
  | false => exact hwi
  | true => exact hwd

/-- `BUS.RS` and `BUS.RD` as one statement over the cycle kind. -/
theorem exec_read_cycle {s : State} (hs : s.seq = []) (rs : Bool) :
    exec (bif rs then .busRd else .busRs) s = .next ((s.hasRead rs s.byteAhead).responded .ok 0) := by
  obtain ⟨hrs, hrd⟩ := readTransactionsComplete s hs
  cases rs with
  | false => exact hrs
  | true => exact hrd

/-! ### Nibbles as shifts and masks (rule R85) -/

theorem highNibble_eq_shift (b : Byte) : highNibble b = ((b >>> 4) &&& 0xF).setWidth 4 := by
  revert b; decide

theorem lowNibble_eq_mask (b : Byte) : lowNibble b = (b &&& 0xF).setWidth 4 := by
  revert b; decide

theorem joinNibbles_eq_shift (hi lo : Nibble) : joinNibbles hi lo = (hi.setWidth 8 <<< 4 ||| lo.setWidth 8) := by
  revert hi lo; decide

/-! ### The events of a transaction -/

theorem setEvent_ne_lo {p q : Pin} (h : p ≠ q) (v : Bool) : setEvent p v ≠ .lo q := by
  cases v <;> simp [setEvent, h]

section Events
variable (cfg : Configuration) (rs : Bool) (b : Byte)

theorem count_hi_write : (writeEvents cfg rs b).count (.hi .e) = 2 := by
  simp [writeEvents, setEvent_ne_hi]

theorem count_lo_write : (writeEvents cfg rs b).count (.lo .e) = 2 := by
  simp [writeEvents, setEvent_ne_lo]

theorem count_hi_read : (readEvents cfg rs b).count (.hi .e) = 2 := by
  simp [readEvents, setEvent_ne_hi]

theorem count_lo_read : (readEvents cfg rs b).count (.lo .e) = 2 := by
  simp [readEvents, setEvent_ne_lo]

theorem readPinsOf_read : readPinsOf (readEvents cfg rs b) = [.db7, .db6, .db5, .db4, .db7, .db6, .db5, .db4] := by
  cases rs <;> rfl

/-- The only levels a read sets are those of `RS`, `RW` and `E`. -/
theorem setsDataPin_read {ev : Event} (h : ev ∈ readEvents cfg rs b) : ev.setsDataPin = false := by
  have hall : (readEvents cfg rs b).all (fun ev => !ev.setsDataPin) = true := by cases rs <;> rfl
  simpa using List.all_eq_true.mp hall ev h

end Events

/-! ### The strobes of a transaction -/

theorem strobesOf_write (cfg : Configuration) (rs : Bool) (b : Byte) (lat : Bank Level) :
    strobesOf lat (writeEvents cfg rs b) =
      [⟨shownLatches rs (highNibble b) lat, []⟩, ⟨shownLatches rs (lowNibble b) { lat with e := .low }, []⟩] := by
  have h := strobesFrom_write cfg rs b lat []
  rwa [List.append_nil] at h

theorem strobesOf_read (cfg : Configuration) (rs : Bool) (b : Byte) (lat : Bank Level) :
    strobesOf lat (readEvents cfg rs b) =
      [⟨{ lat with rs := levelOf rs, rw := .high },
        [(.db7, b.getLsbD 7), (.db6, b.getLsbD 6), (.db5, b.getLsbD 5), (.db4, b.getLsbD 4)]⟩,
      ⟨{ lat with e := .low, rs := levelOf rs, rw := .high },
        [(.db7, b.getLsbD 3), (.db6, b.getLsbD 2), (.db5, b.getLsbD 1), (.db4, b.getLsbD 0)]⟩] := by
  have h := strobesFrom_read cfg rs b lat []
  rwa [List.append_nil] at h

theorem latchedNibble_shown (rs : Bool) (n : Nibble) (l : Bank Level) :
    latchedNibble (shownLatches rs n l) = some n := by
  simp only [latchedNibble, shownLatches, nibbleLatches, levelOf_bit, nibbleOf_bits]

@[simp] theorem levelOf_beq_high (v : Bool) : (levelOf v == .high) = v := by cases v <;> rfl

/-- The levels a write shows are the bits of its byte (rules R83, R84). -/
theorem shownLevels_write (cfg : Configuration) (rs : Bool) (b : Byte) (lat : Bank Level) :
    shownLevels lat (writeEvents cfg rs b) = bitsOf b := by
  simp [shownLevels, strobesOf_write, shownLatches, nibbleLatches, bitsOf]

/-- The byte ahead of a state that holds its eight answers. -/
theorem byteAhead_of_answers {s : State} {b : Byte} {rest : List Bool} (h : s.answers = bitsOf b ++ rest) :
    s.byteAhead = b :=
  congrArg State.sreg ((readByte_ahead false s).symm.trans (readByte_eq false b rest s h))

/-! ### The properties of `WriteByte` and `ReadByte` (rules R121, R123, R124) -/

/-- Settles O15: the two strobes of a write show the nibbles of its byte. -/
theorem writeByteSplitsItsByte : Obligations.WriteByteSplitsItsByte := by
  intro s rs b hs
  refine ⟨_, writeEvents s.cfg rs b, _, _, exec_write_cycle hs rs b, rfl, count_hi_write _ _ _, count_lo_write _ _ _,
    strobesOf_write s.cfg rs b s.lat, ?_, ?_, rfl, rfl, rfl, rfl, ⟨rfl, rfl, rfl, rfl⟩, ⟨rfl, rfl, rfl, rfl⟩,
    delaySum_write _ _ _⟩
  · rw [latchedNibble_shown, highNibble_eq_shift]
  · rw [latchedNibble_shown, lowNibble_eq_mask]

/-- Settles O17: the byte a read leaves in `SREG` joins the samples of its two strobes. -/
theorem readByteJoinsItsNibbles : Obligations.ReadByteJoinsItsNibbles := by
  intro s rs hs
  refine ⟨_, readEvents s.cfg rs s.byteAhead, _, _, _, _, _, _, _, _, _, _, exec_read_cycle hs rs, rfl,
    count_hi_read _ _ _, count_lo_read _ _ _, readPinsOf_read _ _ _, strobesOf_read s.cfg rs s.byteAhead s.lat, rfl, rfl,
    fun _ => setsDataPin_read _ _ _, rfl, rfl, ?_, delaySum_read _ _ _⟩
  rw [← joinNibbles_eq_shift, joinNibbles_bits]
  rfl

/-- Settles O18: the levels the write shows are the bits of `b`, and a read of them is of the byte they make. -/
theorem loopbackReadReturnsWrittenByte : Obligations.LoopbackReadReturnsWrittenByte := by
  intro s rs b hs
  refine ⟨_, writeEvents s.cfg rs b, exec_write_cycle hs rs b, rfl, fun u rs' rest hu ha => ?_⟩
  rw [shownLevels_write] at ha
  exact ⟨_, exec_read_cycle hu rs', byteAhead_of_answers ha⟩

end Sys2Proof.Machine
end

section
/-! SUPPORT. The gate step by step (rules R140, R143, R147): what the trace ends with at each place of `SEQ`, and that every step
keeps it. -/

namespace Sys2Proof.Machine

/-! ### Calls, by where they stand to the gate -/

/-- A frame at which nothing is asked of the trace: in no gate, in no write, and behind no gate. -/
def Frame.quiet (f : Frame) : Bool :=
  match f.routine with
  | .waitReady => f.step == 0 || f.step == 1
  | .writeByte _ _ | .readByte _ => false
  | .writeCommand _ | .writeData _ | .printChar _ => !f.behindGate
  | .init _ | .clear | .home | .gotoXY _ _ | .readStatus => true

/-- Every call of the step lists: the two reads of a gate; a gate, which a caller stands behind when it returns, or
`ReadStatus` ends with; a write behind the gate; a command write with a gate of its own (rules R143, R148 to R150, R160,
R164 to R171). -/
inductive CallSite (cfg : Configuration) (f : Frame) : Routine → Prop where
  | poll (site : f = ⟨.waitReady, 1⟩) : CallSite cfg f (.readByte false)
  | reread (site : f = ⟨.waitReady, 4⟩) : CallSite cfg f (.readByte false)
  | gate (past : f.next.behindGate = true) (live : f.next.live cfg = true) : CallSite cfg f .waitReady
  | lastGate (past : f.next.quiet = true) : CallSite cfg f .waitReady
  | write (rs : Bool) (b : Byte) (behind : f.behindGate = true) (past : f.next.quiet = true) : CallSite cfg f (.writeByte rs b)
  | command (b : Byte) (past : f.next.quiet = true) : CallSite cfg f (.writeCommand b)

theorem callSite_of_step {cfg : Configuration} {f : Frame} {callee : Routine}
    (h : stepOf cfg f.routine f.step = some (.call callee)) : CallSite cfg f callee := by
  obtain ⟨r, n⟩ := f
  dsimp only at h
  cases r with
  | init attributes =>
    rcases stepOf_init_cases h with ⟨_, ev, _, he⟩ | ⟨m, x, ev, _, _, _, _, he⟩ | ⟨_, b, he⟩ <;> cases he
    exact .command b rfl
  | clear | home =>
    simp only [stepOf] at h
    split at h <;> cases h
    exact .command _ rfl
  | gotoXY col row =>
    simp only [stepOf] at h
    split at h
    · cases h
    · split at h <;> cases h
      exact .command _ rfl
  | printChar ch =>
    simp only [stepOf, printCharStep] at h
    split at h <;> cases h
    case h_1 | h_6 | h_9 => exact .gate rfl rfl
    case h_12 | h_13 => exact .command _ rfl
    all_goals exact .write _ _ rfl rfl
  | writeCommand b | writeData b =>
    simp only [stepOf, gatedWriteStep] at h
    split at h <;> cases h
    · exact .gate rfl rfl
    · exact .write _ _ rfl rfl
  | readStatus =>
    simp only [stepOf] at h
    split at h <;> cases h
    exact .lastGate rfl
  | waitReady =>
    simp only [stepOf, waitReadyStep] at h
    split at h <;> cases h
    · exact .poll rfl
    · exact .reread rfl
  | writeByte rs b =>
    simp only [stepOf, writeByteStep] at h
    split at h <;> cases h
  | readByte rs =>
    simp only [stepOf, readByteStep] at h
    split at h <;> cases h

/-! ### What is asked of the trace, by the frames of `SEQ` -/

/-- What `State.GateOk` asks of the trace where `SEQ` is `q`. -/
def GateClaim (s : State) (q : List Frame) : Prop :=
  match q with
  | ⟨.readByte _, n⟩ :: ⟨.waitReady, 1⟩ :: _ => ∃ before, s.trace = before ++ (readEvents s.cfg false s.sreg).take n
  | ⟨.readByte _, n⟩ :: ⟨.waitReady, 4⟩ :: _ => ∃ before poll, busyFlag poll = false ∧
      s.trace = before ++ readEvents s.cfg false poll ++ [.dly s.cfg.tSettle] ++ (readEvents s.cfg false s.sreg).take n
  | ⟨.waitReady, 2⟩ :: _ => ∃ before, s.trace = before ++ readEvents s.cfg false s.sreg
  | ⟨.waitReady, 3⟩ :: _ => busyFlag s.sreg = false ∧ ∃ before, s.trace = before ++ readEvents s.cfg false s.sreg
  | ⟨.waitReady, 4⟩ :: _ => ∃ before poll, busyFlag poll = false ∧
      s.trace = before ++ readEvents s.cfg false poll ++ [.dly s.cfg.tSettle]
  | ⟨.writeByte rs b, n⟩ :: _ :: _ => ∃ before poll, busyFlag poll = false ∧
      s.trace = before ++ gateEnd s.cfg poll s.sreg ++ (writeEvents s.cfg rs b).take n
  | f :: _ => f.behindGate = true → s.GatePassed
  | [] => True

theorem gateOk_iff (s : State) : s.GateOk ↔ GateClaim s s.seq := by
  constructor
  · intro h
    unfold GateClaim
    split
    · exact h.polling _ _ _ ‹_›
    · exact h.rereading _ _ _ ‹_›
    · exact h.polled _ ‹_›
    · exact h.ready _ ‹_›
    · exact h.settled _ ‹_›
    · exact h.writing _ _ _ _ _ ‹_›
    · exact h.passed _ _ ‹_›
    · exact True.intro
  · intro h
    constructor
    · intro rs n callers hs; rw [hs] at h; exact h
    · intro callers hs; rw [hs] at h; exact h
    · intro callers hs; rw [hs] at h; exact h
    · intro callers hs; rw [hs] at h; exact h
    · intro rs n callers hs; rw [hs] at h; exact h
    · rintro ⟨r, n⟩ callers hs hb
      rw [hs] at h
      cases r with
      | writeCommand | writeData | printChar => exact h hb
      | _ => cases hb
    · intro rs b n caller callers hs; rw [hs] at h; exact h

/-! ### Frames of which nothing is asked -/

theorem gateOk_of_quiet {s : State} {f : Frame} {callers : List Frame} (hs : s.seq = f :: callers) (hq : f.quiet = true) :
    s.GateOk := by
  rw [gateOk_iff, hs]
  obtain ⟨r, n⟩ := f
  cases r with
  | waitReady =>
    obtain rfl | rfl : n = 0 ∨ n = 1 := by simpa [Frame.quiet] using hq
    · exact Bool.noConfusion
    · exact Bool.noConfusion
  | writeByte | readByte => cases hq
  | writeCommand | writeData | printChar => exact fun hb => absurd hb (by simpa [Frame.quiet] using hq)
  | init | clear | home | gotoXY | readStatus => exact Bool.noConfusion

theorem gateOk_of_behindGate {s : State} {f : Frame} {callers : List Frame} (hs : s.seq = f :: callers)
    (hb : f.behindGate = true) (hp : s.GatePassed) : s.GateOk := by
  rw [gateOk_iff, hs]
  obtain ⟨r, n⟩ := f
  cases r with
  | writeCommand | writeData | printChar => exact fun _ => hp
  | _ => cases hb

/-- A frame alone on `SEQ` that is in no gate and behind none: nothing is asked of a write or a read without a caller
(log 7). -/
theorem gateOk_of_alone {s : State} {f : Frame} (hs : s.seq = [f]) (hr : f.routine ≠ .waitReady)
    (hb : f.behindGate = false) : s.GateOk := by
  rw [gateOk_iff, hs]
  obtain ⟨r, n⟩ := f
  cases r with
  | waitReady => exact absurd rfl hr
  | _ => exact fun h => absurd h (by simp [hb])

/-! ### Returns -/

/-- A quiet frame that returns leads to a quiet frame or to `IDLE`. -/
theorem unwind_gateOk_of_quiet {s : State} {f : Frame} {callers : List Frame} (hc : CallChain s.cfg (f :: callers))
    (hq : f.quiet = true) : (s.unwind f callers).GateOk := by
  induction callers generalizing s f with
  | nil =>
    cases hl : f.live s.cfg with
    | true => rw [unwind_live s f [] hl]; exact gateOk_of_quiet rfl hq
    | false => rw [unwind_last s f hl]; exact gateOk_of_idle rfl
  | cons g callers ih =>
    cases hl : f.live s.cfg with
    | true => rw [unwind_live s f _ hl]; exact gateOk_of_quiet rfl hq
    | false =>
      obtain ⟨hcall, hchain⟩ := List.isChain_cons_cons.1 hc
      rw [unwind_pop s f g callers hl]
      refine ih (takeResult_cfg s g ▸ CallChain.of_routine_eq hchain rfl) ?_
      have hsite := callSite_of_step hcall
      obtain ⟨r, n⟩ := f
      cases hsite with
      | poll | reread | write => cases hq
      | gate | lastGate =>
        obtain rfl | rfl : n = 0 ∨ n = 1 := by simpa [Frame.quiet] using hq
        · cases hl
        · cases hl
      | command b past => exact past

/-- A write that returns leads to a quiet frame or to `IDLE`. -/
theorem unwind_gateOk_of_write {s : State} {rs : Bool} {b : Byte} {n : Nat} {callers : List Frame}
    (hc : CallChain s.cfg (⟨.writeByte rs b, n⟩ :: callers)) (hl : Frame.live s.cfg ⟨.writeByte rs b, n⟩ = false) :
    (s.unwind ⟨.writeByte rs b, n⟩ callers).GateOk := by
  cases callers with
  | nil => rw [unwind_last _ _ hl]; exact gateOk_of_idle rfl
  | cons g callers =>
    obtain ⟨hcall, hchain⟩ := List.isChain_cons_cons.1 hc
    rw [unwind_pop _ _ _ _ hl]
    cases callSite_of_step hcall with
    | write _ _ _ past =>
      exact unwind_gateOk_of_quiet (takeResult_cfg s g ▸ CallChain.of_routine_eq hchain rfl) past

/-- A gate that returns leads behind the gate, or to the end of `ReadStatus` (rules R143, R148 to R150). -/
theorem unwind_gateOk_of_gate {s : State} {callers : List Frame} (hc : CallChain s.cfg (⟨.waitReady, 5⟩ :: callers))
    (hp : s.GatePassed) : (s.unwind ⟨.waitReady, 5⟩ callers).GateOk := by
  cases callers with
  | nil => rw [unwind_last _ _ (by rfl)]; exact gateOk_of_idle rfl
  | cons g callers =>
    obtain ⟨hcall, hchain⟩ := List.isChain_cons_cons.1 hc
    rw [unwind_pop _ _ _ _ (by rfl)]
    have hcfg := takeResult_cfg s g
    cases callSite_of_step hcall with
    | gate past live =>
      rw [unwind_live _ _ _ (hcfg ▸ live)]
      refine gateOk_of_behindGate rfl past ?_
      rcases takeResult_cases s g with h | h <;> rw [h] <;> exact hp
    | lastGate past => exact unwind_gateOk_of_quiet (hcfg ▸ CallChain.of_routine_eq hchain rfl) past

/-! ### The events of a read and of a write, one by one -/

theorem writeEvents_take_succ {s : State} {rs : Bool} {b : Byte} {n : Nat} {a : Action} {ev : Event} (hd : s.dreg = b)
    (ha : writeByteStep s.cfg rs n = some a) (he : a.emits s = some ev) :
    (writeEvents s.cfg rs b).take n ++ [ev] = (writeEvents s.cfg rs b).take (n + 1) := by
  subst hd
  have hget : (writeEvents s.cfg rs s.dreg)[n]? = some ev := by
    simp only [writeByteStep] at ha
    split at ha <;> cases ha <;> cases he <;> rfl
  rw [List.take_add_one, hget, Option.toList_some]

theorem withBit_getElem (r : Byte) (i j : Nat) (v : Bool) (hi : i < 8) (hj : j < 8) :
    (withBit r i v)[j] = if j = i then v else r[j] := by
  simpa only [BitVec.getLsbD_eq_getElem hj] using withBit_bit r i j v hi hj

/-- The byte so far decides the events so far: a sample sets its own bit of `SREG` and keeps those sampled before
(rule R126). -/
theorem readEvents_take_succ {s : State} {rs : Bool} {n : Nat} {a : Action} {ev : Event} (f : Frame) (callers : List Frame)
    (ha : readByteStep s.cfg rs n = some a) (he : a.emits s = some ev) :
    (readEvents s.cfg rs s.sreg).take n ++ [ev] = (readEvents s.cfg rs (s.perform a f callers).sreg).take (n + 1) := by
  simp only [readByteStep] at ha
  split at ha <;> cases ha <;> cases he <;>
    simp [readEvents, State.perform, State.advance, withBit_getElem]

/-! ### One action of the sequencer -/

section Perform
variable {s : State} {callers : List Frame} {n : Nat} {a : Action} {ev : Event}

/-- A call: of a write, which stands behind its gate; of a read, of which nothing is shown yet; or of another routine, of which
nothing is asked at its first step. -/
theorem call_gateOk {f : Frame} {r : Routine} (hok : s.GateOk) (hs : s.seq = f :: callers)
    (h : stepOf s.cfg f.routine f.step = some (.call r)) : (s.call r (f :: callers)).GateOk := by
  cases callSite_of_step h with
  | poll site =>
    subst site
    exact (gateOk_iff _).2 ⟨s.trace, (List.append_nil _).symm⟩
  | reread site =>
    subst site
    obtain ⟨before, poll, hpoll, ht⟩ := hok.settled _ hs
    exact (gateOk_iff _).2 ⟨before, poll, hpoll, ht.trans (List.append_nil _).symm⟩
  | gate | lastGate | command => exact gateOk_of_quiet rfl rfl
  | write rs b behind past =>
    obtain ⟨before, poll, hpoll, ht⟩ := hok.passed _ _ hs behind
    exact (gateOk_iff _).2 ⟨before, poll, hpoll, ht.trans (List.append_nil _).symm⟩

/-- A write or a read without a caller goes on alone or ends. -/
theorem unwind_gateOk_of_alone (s : State) {f : Frame} (hr : f.routine ≠ .waitReady) (hb : f.behindGate = false) :
    (s.unwind f []).GateOk := by
  cases hl : f.live s.cfg with
  | true => rw [unwind_live s f [] hl]; exact gateOk_of_alone rfl hr hb
  | false => rw [unwind_last s f hl]; exact gateOk_of_idle rfl

/-- An action that emits an event returns from a state with that event in its trace. -/
theorem perform_eq_unwind (f : Frame) (he : a.emits s = some ev) :
    ∃ u : State, s.perform a f callers = u.unwind f.next callers ∧ u.cfg = s.cfg ∧ u.trace = s.trace ++ [ev] := by
  obtain ⟨u, hu⟩ : ∃ u : State, s.perform a f callers = u.unwind f.next callers := by
    cases a with
    | event | drive | sample => exact ⟨_, rfl⟩
    | call | zeroCount | busyTest | boundsTest | newlineTest | lineTest | wrapTest => cases he
  obtain ⟨hcfg, _, _, htrace⟩ := perform_shows s a f callers
  rw [he, Option.toList_some, hu, unwind_trace] at htrace
  rw [hu, unwind_cfg] at hcfg
  exact ⟨u, hu, hcfg, htrace⟩

/-- A step of a read: one more of its events; after the last the gate is at its busy test, or it has opened. -/
theorem readByte_gateOk {rs : Bool} (hok : s.GateOk) (hs : s.seq = ⟨.readByte rs, n⟩ :: callers)
    (hc : CallChain s.cfg (⟨.readByte rs, n⟩ :: callers)) (ha : readByteStep s.cfg rs n = some a)
    (he : a.emits s = some ev) : (s.perform a ⟨.readByte rs, n⟩ callers).GateOk := by
  have hread := readEvents_take_succ ⟨.readByte rs, n⟩ callers ha he
  obtain ⟨u, hu, hcfg, htrace⟩ := perform_eq_unwind (callers := callers) ⟨.readByte rs, n⟩ he
  rw [hu, unwind_sreg, ← hcfg] at hread
  rw [hu]
  cases callers with
  | nil => exact unwind_gateOk_of_alone u (by simp [Frame.next]) rfl
  | cons g callers =>
    cases callSite_of_step (List.isChain_cons_cons.1 hc).1 with
    | poll site =>
      subst site
      obtain ⟨before, ht⟩ := hok.polling _ _ _ hs
      rw [ht, ← hcfg, List.append_assoc, hread] at htrace
      cases hl : (Frame.next ⟨.readByte false, n⟩).live u.cfg with
      | true =>
        rw [unwind_live _ _ _ hl]
        exact (gateOk_iff _).2 ⟨before, htrace⟩
      | false =>
        rw [List.take_of_length_le (readByte_ends hl)] at htrace
        rw [unwind_pop _ _ _ _ hl, unwind_live _ _ _ (by rfl)]
        exact (gateOk_iff _).2 ⟨before, htrace⟩
    | reread site =>
      subst site
      obtain ⟨before, poll, hpoll, ht⟩ := hok.rereading _ _ _ hs
      rw [ht, ← hcfg, List.append_assoc, hread] at htrace
      cases hl : (Frame.next ⟨.readByte false, n⟩).live u.cfg with
      | true =>
        rw [unwind_live _ _ _ hl]
        exact (gateOk_iff _).2 ⟨before, poll, hpoll, htrace⟩
      | false =>
        rw [List.take_of_length_le (readByte_ends hl)] at htrace
        rw [unwind_pop _ _ _ _ hl]
        have hchain : CallChain u.cfg (⟨.waitReady, 5⟩ :: callers) :=
          hcfg ▸ CallChain.of_routine_eq (List.isChain_cons_cons.1 hc).2 rfl
        exact unwind_gateOk_of_gate (s := u) hchain ⟨before, poll, hpoll, by rw [htrace, gateEnd]; simp⟩

/-- A step of a write behind its gate: one more of its events, of the byte in `DREG` (rule R126). -/
theorem writeByte_trace {rs : Bool} {b : Byte} {caller : Frame} (hok : s.GateOk)
    (hs : s.seq = ⟨.writeByte rs b, n⟩ :: caller :: callers) (hd : s.dreg = b) (ha : writeByteStep s.cfg rs n = some a)
    (he : a.emits s = some ev) : ∃ before poll, busyFlag poll = false ∧
      s.trace ++ [ev] = before ++ gateEnd s.cfg poll s.sreg ++ (writeEvents s.cfg rs b).take (n + 1) := by
  obtain ⟨before, poll, hpoll, ht⟩ := hok.writing _ _ _ _ _ hs
  exact ⟨before, poll, hpoll, by rw [ht, List.append_assoc, writeEvents_take_succ hd ha he]⟩

theorem perform_sreg_of_writeByteStep {rs : Bool} (f : Frame) (ha : writeByteStep s.cfg rs n = some a) :
    (s.perform a f callers).sreg = s.sreg := by
  simp only [writeByteStep] at ha
  split at ha <;> cases ha <;> exact unwind_sreg _ _ _

theorem writeByte_gateOk {rs : Bool} {b : Byte} (hok : s.GateOk) (hs : s.seq = ⟨.writeByte rs b, n⟩ :: callers)
    (hc : CallChain s.cfg (⟨.writeByte rs b, n⟩ :: callers)) (hd : s.dreg = b) (ha : writeByteStep s.cfg rs n = some a)
    (he : a.emits s = some ev) : (s.perform a ⟨.writeByte rs b, n⟩ callers).GateOk := by
  have hsreg := perform_sreg_of_writeByteStep (callers := callers) ⟨.writeByte rs b, n⟩ ha
  obtain ⟨u, hu, hcfg, htrace⟩ := perform_eq_unwind (callers := callers) ⟨.writeByte rs b, n⟩ he
  rw [hu, unwind_sreg] at hsreg
  rw [hu]
  cases callers with
  | nil => exact unwind_gateOk_of_alone u (by simp [Frame.next]) rfl
  | cons g callers =>
    obtain ⟨before, poll, hpoll, ht⟩ := writeByte_trace hok hs hd ha he
    rw [ht, ← hcfg, ← hsreg] at htrace
    cases hl : (Frame.next ⟨.writeByte rs b, n⟩).live u.cfg with
    | true =>
      rw [unwind_live _ _ _ hl]
      exact (gateOk_iff _).2 ⟨before, poll, hpoll, htrace⟩
    | false => exact unwind_gateOk_of_write (hcfg ▸ CallChain.of_routine_eq hc rfl) hl

/-- Steps G0, G2 and G3 of a gate (rules R143, R146). -/
theorem waitReady_gateOk (hok : s.GateOk) (hs : s.seq = ⟨.waitReady, n⟩ :: callers)
    (ha : waitReadyStep s.cfg n = some a) (hcall : ∀ r, a ≠ .call r) : (s.perform a ⟨.waitReady, n⟩ callers).GateOk := by
  simp only [waitReadyStep] at ha
  split at ha <;> cases ha
  case h_1 =>
    rw [State.perform, State.advance, unwind_live _ _ _ (by rfl)]
    exact gateOk_of_quiet rfl rfl
  case h_2 | h_5 => exact absurd rfl (hcall _)
  case h_3 =>
    obtain ⟨before, ht⟩ := hok.polled _ hs
    rw [State.perform]
    cases hb : busyFlag s.sreg with
    | false =>
      rw [testBusy_ready s callers hb]
      exact (gateOk_iff _).2 ⟨hb, before, ht⟩
    | true =>
      cases hto : s.countPoll.timedOut with
      | true => rw [testBusy_timeout s callers hb hto]; exact gateOk_of_idle rfl
      | false => rw [testBusy_again s callers hb hto]; exact gateOk_of_quiet rfl rfl
  case h_4 =>
    obtain ⟨hready, before, ht⟩ := hok.ready _ hs
    rw [State.perform, State.advance, unwind_live _ _ _ (by rfl)]
    exact (gateOk_iff _).2 ⟨before, s.sreg, hready, congrArg (· ++ _) ht⟩

/-- The tests of `PrintChar`: the newline test and the wrap test stay behind the gate, or lead to a gate (rules R168 to
R171). -/
theorem printChar_gateOk {ch : Byte} (hok : s.GateOk) (hs : s.seq = ⟨.printChar ch, n⟩ :: callers)
    (ha : printCharStep s.cfg ch n = some a) (hcall : ∀ r, a ≠ .call r) :
    (s.perform a ⟨.printChar ch, n⟩ callers).GateOk := by
  have hpassed := hok.passed _ _ hs
  have hjump : ∀ m, Frame.live s.cfg ⟨.printChar ch, m⟩ = true →
      (Frame.quiet ⟨.printChar ch, m⟩ = true ∨ (Frame.behindGate ⟨.printChar ch, m⟩ = true ∧ s.GatePassed)) →
      (s.jump ⟨.printChar ch, n⟩ callers m).GateOk := by
    intro m hl hm
    rw [State.jump, unwind_live _ _ _ hl]
    rcases hm with hq | ⟨hb, hp⟩
    · exact gateOk_of_quiet rfl hq
    · exact gateOk_of_behindGate rfl hb hp
  simp only [printCharStep] at ha
  split at ha <;> cases ha
  case h_2 =>
    rw [State.perform]
    split
    · exact hjump 13 rfl (.inl rfl)
    · exact hjump 2 rfl (.inr ⟨rfl, hpassed rfl⟩)
  case h_3 =>
    rw [State.perform]
    cases wrapCase s.cfg (currentAddress s.pos) with
    | noWrap => exact hjump 3 rfl (.inr ⟨rfl, hpassed rfl⟩)
    | endOfLine1 => exact hjump 5 rfl (.inr ⟨rfl, hpassed rfl⟩)
    | endOfLine2 => exact hjump 9 rfl (.inr ⟨rfl, hpassed rfl⟩)
  case h_11 =>
    rw [State.perform]
    split
    · exact hjump 14 rfl (.inl rfl)
    · exact hjump 16 rfl (.inl rfl)
  all_goals exact absurd rfl (hcall _)

/-- One action of the sequencer keeps what the trace says of the gate. -/
theorem perform_gateOk {f : Frame} (hinv : s.Inv) (hok : s.GateOk) (hs : s.seq = f :: callers)
    (ha : stepOf s.cfg f.routine f.step = some a) : (s.perform a f callers).GateOk := by
  obtain ⟨_, hc⟩ := hinv.callChain hs
  have hpins := (pinsOk_cons hs).1 hinv.pins
  by_cases hcall : ∃ r, a = .call r
  · obtain ⟨r, rfl⟩ := hcall
    exact call_gateOk hok hs ha
  have hcall' : ∀ r, a ≠ .call r := fun r hr => hcall ⟨r, hr⟩
  obtain ⟨r, n⟩ := f
  cases r with
  | init attributes =>
    cases he : a.emits s with
    | some ev =>
      obtain ⟨u, hu, hcfg, _⟩ := perform_eq_unwind (callers := callers) ⟨.init attributes, n⟩ he
      rw [hu]
      exact unwind_gateOk_of_quiet (hcfg ▸ CallChain.of_routine_eq hc rfl) rfl
    | none => exact absurd (perform_silent (callers := callers) ha he hcall').1 Bool.noConfusion
  | clear | home | readStatus | writeCommand | writeData =>
    obtain ⟨callee, rfl⟩ := stepOf_onlyCalls rfl ha
    exact absurd rfl (hcall' _)
  | gotoXY col row =>
    have he : a.emits s = none := by
      simp only [stepOf] at ha
      split at ha
      · cases ha; rfl
      · split at ha <;> cases ha
        rfl
    obtain ⟨_, hseq | ⟨m, _, hseq⟩⟩ := perform_silent (callers := callers) ha he hcall'
    · exact gateOk_of_idle hseq
    · exact gateOk_of_quiet hseq rfl
  | printChar ch => exact printChar_gateOk hok hs ha hcall'
  | waitReady => exact waitReady_gateOk hok hs ha hcall'
  | writeByte rs b =>
    cases he : a.emits s with
    | some ev => exact writeByte_gateOk hok hs hc hpins.byte ha he
    | none => exact absurd (perform_silent (callers := callers) ha he hcall').1 Bool.noConfusion
  | readByte rs =>
    cases he : a.emits s with
    | some ev => exact readByte_gateOk hok hs hc ha he
    | none => exact absurd (perform_silent (callers := callers) ha he hcall').1 Bool.noConfusion

end Perform

/-! ### Every step -/

theorem behindGate_zero (r : Routine) : Frame.behindGate ⟨r, 0⟩ = false := by cases r <;> rfl

/-- An instruction on an idle block ends in `IDLE` or starts its sequencer. -/
theorem exec_gateOk {i : Instr} {s t : State} (hs : s.seq = []) (h : exec i s = .next t) : t.GateOk := by
  rcases exec_idle_cases hs h with ⟨u, r, _, rfl⟩ | ⟨_, rfl⟩
  · exact gateOk_of_idle rfl
  · refine gateOk_of_alone (s := s.start _) rfl ?_ (behindGate_zero _)
    cases i <;> exact Routine.noConfusion

theorem step_gateOk {s t : State} (hinv : s.Inv) (hok : s.GateOk) (h : step s = .next t) : t.GateOk := by
  refine (step_keeps (P := fun s => s.Inv ∧ s.GateOk) ?_ ?_ ?_ h ⟨hinv, hok⟩).2
  · rintro s t hs ht hshows ⟨hs', _⟩
    exact ⟨inv_of_shows hs ht hshows hs', gateOk_of_idle ht⟩
  · rintro i s t hs he ⟨hs', _⟩
    exact ⟨exec_inv hs hs' he, exec_gateOk hs he⟩
  · rintro s f callers a hseq ha ⟨hs', hok⟩
    exact ⟨perform_inv hs' hseq ha, perform_gateOk hs' hok hseq ha⟩

/-- An instruction on an idle block leaves at most one frame. -/
theorem exec_no_callers {i : Instr} {s t : State} {f g : Frame} {callers : List Frame}
    (h : exec i s = .next t) (hs : s.seq = []) : t.seq ≠ f :: g :: callers := by
  rcases exec_idle_cases hs h with ⟨u, r, _, rfl⟩ | ⟨_, rfl⟩ <;> simp

/-- A step that comes to the first step of a routine without tests, with a caller under it, is that caller's call
(rule R32). -/
theorem call_of_step {s t : State} {r : Routine} {caller : Frame} {callers : List Frame} (hinv : s.Inv)
    (h : step s = .next t) (ht : t.seq = ⟨r, 0⟩ :: caller :: callers) (hr : r.hasTests = false) :
    s.seq = caller :: callers ∧ stepOf s.cfg caller.routine caller.step = some (.call r) ∧ t.trace = s.trace := by
  rcases step_cases h with ⟨hs, _, _, rfl⟩ | ⟨_, _, _, hs, _, _, _, he⟩ | ⟨_, _, _, _, _, _, _, rfl⟩ | ⟨_, _, hs, _, _, he⟩ |
    ⟨_, _, hs, _, _, rfl⟩ | ⟨f, below, a, hs, ha, rfl⟩
  · cases hs.symm.trans ht
  · exact absurd ht (exec_no_callers he hs)
  · cases ht
  · exact absurd ht (exec_no_callers he hs)
  · cases hs.symm.trans ht
  · have hc := (hinv.callChain hs).2
    by_cases hcall : ∃ r, a = .call r
    · obtain ⟨r', rfl⟩ := hcall
      cases ht
      exact ⟨hs, ha, rfl⟩
    · exfalso
      cases he : a.emits s with
      | some ev =>
        have hret := (perform_emits hc he).2
        rw [ht] at hret
        cases hret
      | none =>
        obtain ⟨htests, hseq | ⟨n, _, hseq⟩⟩ := perform_silent (callers := below) ha he fun r hr => hcall ⟨r, hr⟩
        · cases hseq.symm.trans ht
        · cases hseq.symm.trans ht
          exact absurd htests (by simp [hr])

/-- Settles O57: every action keeps what the trace says of the gate; a write is entered by a call from behind the gate, and each
of its steps adds one of its events. -/
theorem sequencerGatesItsWrites : Obligations.SequencerGatesItsWrites := by
  refine ⟨fun s t hinv hok h => step_gateOk hinv hok h, fun s t rs b caller callers hinv hok h ht => ?_,
    fun s t rs b caller callers hinv hok h hs => ?_⟩
  · obtain ⟨hs, hcall, htrace⟩ := call_of_step hinv h ht rfl
    cases callSite_of_step hcall with
    | write _ _ behind _ => exact ⟨htrace, hok.passed _ _ hs behind⟩
  · have hlast : step s = .next (s.perform (.event (.hi .db4)) ⟨.writeByte rs b, 25⟩ (caller :: callers)) :=
      step_action s _ _ _ hs rfl
    cases hlast.symm.trans h
    have htrace : (s.perform (.event (.hi .db4)) ⟨.writeByte rs b, 25⟩ (caller :: callers)).trace = s.trace ++ [.hi .db4] :=
      (perform_shows s _ _ _).trace
    rw [htrace]
    exact writeByte_trace hok hs ((pinsOk_cons hs).1 hinv.pins).byte rfl rfl

end Sys2Proof.Machine
end

section
/-! SUPPORT. What a command run at once shows the controller: whole transactions, of which every write comes at once behind a gate
that opened (rules R140, R147). -/

namespace Sys2Proof.Machine

/-! ### Rows of transactions -/

/-- What may follow some transactions may follow them if more of the last two reads showed ready. -/
theorem writesGated_mono {last last' before before' : Bool} {ts : List Transaction} (hlast : last = true → last' = true)
    (hbefore : before = true → before' = true) (h : writesGated last before ts = true) :
    writesGated last' before' ts = true := by
  induction ts generalizing last last' before before' with
  | nil => rfl
  | cons x ts ih =>
    cases x with
    | read rs b =>
      obtain ⟨hrs, h⟩ := Bool.and_eq_true_iff.1 h
      exact Bool.and_eq_true_iff.2 ⟨hrs, ih id hlast h⟩
    | write rs b =>
      obtain ⟨hb, h⟩ := Bool.and_eq_true_iff.1 h
      exact Bool.and_eq_true_iff.2 ⟨hbefore hb, h⟩

theorem writesGated_statusReads {last before : Bool} {bytes : List Byte} {ts : List Transaction}
    (h : writesGated false false ts = true) : writesGated last before (statusReads bytes ++ ts) = true := by
  induction bytes generalizing last before with
  | nil => exact writesGated_mono Bool.noConfusion Bool.noConfusion h
  | cons b bytes ih => exact ih

/-- Behind the two last reads of a gate a write may come (rules R140, R143). -/
theorem writesGated_gated_write {last before rs : Bool} {b : Byte} {g : Gate} {ts : List Transaction}
    (hready : busyFlag g.ready = false) (h : writesGated false false ts = true) :
    writesGated last before (statusReads g.bytes ++ .write rs b :: ts) = true := by
  obtain ⟨polls, ready, reread⟩ := g
  induction polls generalizing last before with
  | nil => simpa [Gate.bytes, statusReads, writesGated, hready] using h
  | cons poll polls ih => exact ih hready

/-- Whatever may follow from a start may follow these transactions, and they themselves may. -/
def GatedRow (ts : List Transaction) : Prop :=
  ∀ rest, writesGated false false rest = true → writesGated false false (ts ++ rest) = true

/-! ### What the block shows between two states -/

/-- From `s` to `t` the block shows whole transactions of which every write comes at once behind its gate. -/
def State.ShowsGated (s t : State) : Prop :=
  ∃ evs ts, t.trace = s.trace ++ evs ∧ (∀ rest, busView s.lat (evs ++ rest) = halvesOf ts ++ busView t.lat rest) ∧
    GatedRow ts

section ShowsGated
variable {s t u : State}

theorem State.ShowsGated.refl (s : State) : s.ShowsGated s :=
  ⟨[], [], (List.append_nil _).symm, fun _ => rfl, fun _ h => h⟩

theorem State.ShowsGated.trans (h : s.ShowsGated t) (h' : t.ShowsGated u) : s.ShowsGated u := by
  obtain ⟨evs, ts, ht, hview, hrow⟩ := h
  obtain ⟨evs', ts', hu, hview', hrow'⟩ := h'
  refine ⟨evs ++ evs', ts ++ ts', by rw [hu, ht, List.append_assoc], fun rest => ?_, fun rest hrest => ?_⟩
  · rw [List.append_assoc, hview, hview', ← List.append_assoc, halvesOf_append]
  · rw [List.append_assoc]
    exact hrow _ (hrow' _ hrest)

theorem showsGated_timedOutAfter {polls : List Byte} (hne : polls ≠ []) : s.ShowsGated (s.timedOutAfter polls) :=
  ⟨_, statusReads polls, rfl, fun rest => busView_polls s.cfg polls s.lat rest hne, fun _ => writesGated_statusReads⟩

theorem showsGated_gated (s : State) (g : Gate) : s.ShowsGated (s.gated g) :=
  ⟨_, statusReads g.bytes, rfl, fun rest => busView_gate s.cfg g s.lat rest, fun _ => writesGated_statusReads⟩

theorem showsGated_gated_wrote (s : State) {g : Gate} (hready : busyFlag g.ready = false) (rs : Bool) (b : Byte) :
    s.ShowsGated ((s.gated g).wrote rs b) := by
  refine ⟨g.events s.cfg ++ writeEvents s.cfg rs b, statusReads g.bytes ++ [.write rs b], ?_, fun rest => ?_,
    fun rest hrest => ?_⟩
  · simp [State.wrote, State.gated]
  · rw [List.append_assoc, busView_gate, busView_write, halvesOf_append, List.append_assoc]
    rfl
  · rw [List.append_assoc]
    exact writesGated_gated_write hready hrest

/-- The block stands behind a gate that opened: it may write now, or do nothing. -/
structure State.OpensGate (s t : State) : Prop where
  shown : s.ShowsGated t
  write : ∀ rs b, s.ShowsGated (t.wrote rs b)

theorem State.OpensGate.takePosition (h : s.OpensGate t) : s.OpensGate t.takePosition := ⟨h.shown, h.write⟩

/-! ### Operations -/

/-- A gate, and what follows it if it opens. -/
theorem gate_showsGated {f : State → Progress} (h : s.ShowsGated t)
    (hf : ∀ u, s.OpensGate u → (f u).All s.ShowsGated) : ((waitReady t).andThen f).All s.ShowsGated := by
  rcases waitReady_cases t with he | ⟨g, _, _, _, hready, _, he⟩ | ⟨polls, _, _, hne, _, _, he⟩ <;> rw [he]
  · exact True.intro
  · exact hf _ ⟨h.trans (showsGated_gated t g), fun rs b => h.trans (showsGated_gated_wrote t hready rs b)⟩
  · exact h.trans (showsGated_timedOutAfter hne)

theorem waitReady_showsGated (s : State) : (waitReady s).All s.ShowsGated := by
  have h := gate_showsGated (f := Progress.done) (.refl s) fun u hu => hu.shown
  cases hw : waitReady s <;> rw [hw] at h <;> exact h

theorem writeByte_showsGated (h : s.OpensGate t) (rs : Bool) (b : Byte) : (Progress.done (writeByte rs b t)).All s.ShowsGated := by
  rw [writeByte_eq]
  exact h.write rs b

theorem writeCommand_showsGated (h : s.ShowsGated t) (b : Byte) : (writeCommand b t).All s.ShowsGated :=
  gate_showsGated h fun _ hu => writeByte_showsGated hu false b

theorem writeCommand_andThen_showsGated {f : State → Progress} {b : Byte} (h : s.ShowsGated t)
    (hf : ∀ u, s.ShowsGated u → (f u).All s.ShowsGated) : ((writeCommand b t).andThen f).All s.ShowsGated :=
  andThen_all (writeCommand_showsGated h b) (fun _ => id) hf

theorem initAll_showsGated (attributes : Byte) (s : State) : (initAll attributes s).All s.pinsSetUp.ShowsGated := by
  rw [initAll, andThen_done, initPins_eq]
  refine writeCommand_andThen_showsGated (.refl _) fun _ h => ?_
  refine writeCommand_andThen_showsGated h fun _ h => ?_
  refine writeCommand_andThen_showsGated h fun _ h => ?_
  exact writeCommand_showsGated h attributes

/-- The wrap and the character: each of the writes has its gate (rule R171). -/
theorem wrapPath_showsGated (h : s.OpensGate t) (a : Address) (ch : Byte) :
    ((wrapPath a t).andThen fun u => .done (writeByte true ch u)).All s.ShowsGated := by
  rw [wrapPath]
  split
  · exact writeByte_showsGated h true ch
  all_goals
    rw [writeByte_eq]
    exact gate_showsGated (h.write _ _) fun _ hu => writeByte_showsGated hu true ch

theorem printChar_showsGated (ch : Byte) (s : State) : (printChar ch s).All s.ShowsGated := by
  refine gate_showsGated (.refl s) fun t ht => ?_
  dsimp only
  split
  · exact writeCommand_showsGated ht.takePosition.shown _
  · exact wrapPath_showsGated ht.takePosition _ ch

/-- The pins a command's transactions start from: those before it, or those `INIT` has set up (rule R160). -/
def State.transactionsStart (s : State) : Instr → State
  | .init _ => s.pinsSetUp
  | _ => s

/-- A command gates its writes (rule R140). -/
theorem progressOf_showsGated {i : Instr} {w : CommandWord} (hi : encode i = .cw w) (s : State) :
    (progressOf i s).All (s.transactionsStart i).ShowsGated := by
  cases i with
  | init attributes => exact initAll_showsGated attributes s
  | clear | home | wrcmd => exact writeCommand_showsGated (.refl s) _
  | gotoxy col row =>
    rw [progressOf, gotoXY]
    split
    · exact State.ShowsGated.refl s
    · exact writeCommand_showsGated (.refl s) _
  | putc ch => exact printChar_showsGated ch s
  | wrdata b => exact gate_showsGated (.refl s) fun _ hu => writeByte_showsGated hu true b
  | rdstat => exact waitReady_showsGated s
  | busWi | busWd | busRs | busRd | lcdClear | lcdHome | lcdEntry | lcdDisplay | lcdFunction | lcdSetddram => cases hi

/-- A command run at once shows gated transactions; one that is only started shows nothing. -/
theorem exec_showsGated {i : Instr} {w : CommandWord} {s t : State} (hi : encode i = .cw w) (hs : s.seq = [])
    (h : exec i s = .next t) : (∃ u, (s.accept.transactionsStart i).ShowsGated u ∧ t.trace = u.trace) ∨ t.trace = s.trace := by
  have hall := progressOf_showsGated hi s.accept
  cases hp : progressOf i s.accept with
  | done u =>
    rw [hp] at hall
    cases (exec_done i s u hs hp).symm.trans h
    exact .inl ⟨u, hall, rfl⟩
  | failed k u =>
    rw [hp] at hall
    cases (exec_failed i s u k hs hp).symm.trans h
    exact .inl ⟨u, hall, rfl⟩
  | undetermined =>
    cases (exec_undetermined i s hs hp).symm.trans h
    exact .inr rfl

end ShowsGated

theorem busView_of_showsGated {s t : State} (h : s.ShowsGated t) : ∃ evs ts, t.trace = s.trace ++ evs ∧
    busView s.lat evs = halvesOf ts ∧ writesGated false false ts = true := by
  obtain ⟨evs, ts, ht, hview, hrow⟩ := h
  refine ⟨evs, ts, ht, ?_, by simpa using hrow [] rfl⟩
  simpa [busView_nil] using hview []

/-- Settles O54: the reset half-cycles of `INIT`, and then gated transactions. -/
theorem everyCommandGatesItsWrites : Obligations.EveryCommandGatesItsWrites := by
  intro i w s t evs hi hs h ht
  rcases exec_showsGated hi hs h with ⟨u, hu, htrace⟩ | htrace
  · obtain ⟨evs', ts, hu', hview, hrow⟩ := busView_of_showsGated hu
    rw [htrace, hu'] at ht
    by_cases hinit : ∃ a, i = .init a
    · obtain ⟨a, rfl⟩ := hinit
      obtain rfl : initPinEvents s.cfg ++ evs' = evs :=
        List.append_cancel_left ((List.append_assoc _ _ _).symm.trans ht)
      refine ⟨s.cfg.resetSeq.map fun x => .w false x.1, ts, ?_, hrow, fun h => absurd rfl (h a), ?_, ?_⟩
      · rw [busView_init]
        exact congrArg _ hview
      · rw [List.length_map]
      · intro x hx
        obtain ⟨y, _, rfl⟩ := List.mem_map.1 hx
        exact ⟨y.1, rfl⟩
    · have hstart : s.accept.transactionsStart i = s.accept := by
        cases i with
        | init a => exact absurd ⟨a, rfl⟩ hinit
        | _ => rfl
      rw [hstart] at ht hview
      obtain rfl : evs' = evs := List.append_cancel_left ht
      exact ⟨[], ts, hview, hrow, fun _ => rfl, Nat.zero_le _, fun _ hx => absurd hx (List.not_mem_nil)⟩
  · obtain rfl : evs = [] := List.append_right_eq_self.1 (ht.symm.trans htrace)
    exact ⟨[], [], rfl, rfl, fun _ => rfl, Nat.zero_le _, fun _ hx => absurd hx (List.not_mem_nil)⟩

end Sys2Proof.Machine
end

section
/-! SUPPORT. The busy gate and the gated writes (rules R143 to R152): what a gate comes to, what it shows, and how long it takes. -/

namespace Sys2Proof.Machine

/-! ### One gate -/

/-- Settles O21: the gate opens, and `SREG` holds the byte of the re-read. -/
theorem statusReadReturnsReread : Obligations.StatusReadReturnsReread := by
  intro s g rest hs ha ho
  have hgate : progressOf .rdstat s.accept = .done (s.accept.gated g) := waitReady_opens g rest s.accept ha ho
  rw [exec_done .rdstat s _ hs hgate, State.complete, ← hs]
  rfl

theorem setsDataPin_polls {cfg : Configuration} {bytes : List Byte} {ev : Event} (h : ev ∈ pollEvents cfg bytes) :
    ev.setsDataPin = false := by
  obtain ⟨b, _, hev⟩ := List.mem_flatMap.1 h
  exact setsDataPin_read _ _ _ hev

/-- A gate drives no data pin (rule R144 (c)). -/
theorem setsDataPin_gate {cfg : Configuration} {g : Gate} {ev : Event} (h : ev ∈ g.events cfg) : ev.setsDataPin = false := by
  rw [Gate.events, List.mem_append, List.mem_append] at h
  rcases h with (h | h) | h
  · exact setsDataPin_polls h
  · obtain rfl := List.mem_singleton.1 h
    rfl
  · exact setsDataPin_read _ _ _ h

/-- Every strobe of the trace, from any latches, shows a read: `RW = 1` (rule R144 (d)). -/
def AllReadStrobes (evs : List Event) : Prop := ∀ lat, ∀ x ∈ strobesFrom lat none evs, x.lat.rw = .high

theorem allReadStrobes_read {cfg : Configuration} {rs : Bool} {b : Byte} {evs : List Event} (h : AllReadStrobes evs) :
    AllReadStrobes (readEvents cfg rs b ++ evs) := by
  intro lat x hx
  rw [strobesFrom_read, List.mem_cons, List.mem_cons] at hx
  rcases hx with rfl | rfl | hx
  · rfl
  · rfl
  · exact h _ x hx

theorem allReadStrobes_polls {cfg : Configuration} {bytes : List Byte} {evs : List Event} (h : AllReadStrobes evs) :
    AllReadStrobes (pollEvents cfg bytes ++ evs) := by
  induction bytes with
  | nil => exact h
  | cons b bytes ih =>
    rw [pollEvents, List.flatMap_cons, ← pollEvents, List.append_assoc]
    exact allReadStrobes_read ih

theorem allReadStrobes_gate (cfg : Configuration) (g : Gate) : AllReadStrobes (g.events cfg) := by
  have hreread : AllReadStrobes (readEvents cfg false g.reread ++ []) :=
    allReadStrobes_read fun _ _ hx => absurd hx List.not_mem_nil
  rw [List.append_nil] at hreread
  rw [Gate.events, List.append_assoc]
  exact allReadStrobes_polls hreread

/-- Settles O22: the events of a gate that opens, and what they show, count and leave alone. -/
theorem gateTraceAndResult : Obligations.GateTraceAndResult := by
  intro s g rest ha ho
  have hdelay := delaySum_gate s.cfg g
  refine ⟨s.gated g, g.events s.cfg, waitReady_opens g rest s ha ho, rfl, rfl, busView_gate_last s.cfg g s.lat, ?_,
    length_gateEvents s.cfg g, fun _ => setsDataPin_gate, ⟨rfl, rfl, rfl, rfl⟩, allReadStrobes_gate s.cfg g s.lat, hdelay,
    fun hstrobe hsettle => ?_, rfl⟩
  · rw [Gate.bytes, List.length_append]
    rfl
  · rw [hdelay, hstrobe, hsettle]
    omega

/-- A gate that fails was answered `MAX_POLL` busy polls (rule R146). -/
theorem polls_of_waitReady_failed {s t : State} {k : Code} (h : waitReady s = .failed k t) : ∃ polls rest,
    s.answers = script polls ++ rest ∧ polls.all busyFlag = true ∧ s.cfg.maxPoll = some polls.length := by
  rcases waitReady_cases s with he | ⟨g, _, _, _, _, _, he⟩ | ⟨polls, rest, ha, _, hp, hm, _⟩
  · cases he.symm.trans h
  · cases he.symm.trans h
  · exact ⟨polls, rest, ha, hp, hm⟩

/-- Settles O23: of the three things a gate can do, only the timeout fails, and `MAX_POLL` busy polls lead to it. -/
theorem gateTimesOutExactlyAfterMaxPoll : Obligations.GateTimesOutExactlyAfterMaxPoll := by
  refine ⟨fun s n hm hn => ?_, fun s hm k t h => ?_⟩
  · have htimes : ∀ polls rest, s.answers = script polls ++ rest → polls.length = n → polls.all busyFlag = true →
        waitReady s = .failed .notReady (s.timedOutAfter polls) := by
      rintro polls rest ha rfl hp
      exact waitReady_times_out polls rest s ha hp hm (List.length_pos_iff.1 hn)
    refine ⟨⟨?_, ?_⟩, htimes⟩
    · rintro ⟨k, t, h⟩
      obtain ⟨polls, rest, ha, hp, hm'⟩ := polls_of_waitReady_failed h
      exact ⟨polls, rest, ha, Option.some.inj (hm'.symm.trans hm), hp⟩
    · rintro ⟨polls, rest, ha, hlen, hp⟩
      exact ⟨_, _, htimes polls rest ha hlen hp⟩
  · obtain ⟨polls, _, _, _, hm'⟩ := polls_of_waitReady_failed h
    cases hm.symm.trans hm'

/-! ### Busy polls without a bound -/

/-- Settles O40, by induction on the polls: each leaves the gate at its poll again. -/
theorem busyPollsNeverPassTheGate : Obligations.BusyPollsNeverPassTheGate := by
  intro s polls rest callers hs hm ha hp
  induction polls generalizing s with
  | nil => exact ⟨s, rfl, hs, (List.append_nil _).symm, ha, rfl, rfl⟩
  | cons b polls ih =>
    obtain ⟨hb, hp⟩ := Bool.and_eq_true_iff.1 hp
    have ha' : s.answers = bitsOf b ++ (script polls ++ rest) := by rw [ha, script_cons, List.append_assoc]
    have hto : (s.polledBusy b).timedOut = false := by
      have hm' : (s.polledBusy b).cfg.maxPoll = none := hm
      rw [State.timedOut, hm']
      rfl
    have hrun := run_busyPoll s b _ callers hs ha' hb hto
    have hans : (s.polledBusy b).answers = script polls ++ rest := by
      show s.answers.drop 8 = _
      rw [ha', drop_bitsOf]
    obtain ⟨t, ht, hseq, htrace, hrest, hrsp, hcmds⟩ := ih (s.polledBusy b) hs hm hans hp
    refine ⟨t, ?_, hseq, ?_, hrest, hrsp, hcmds⟩
    · rw [List.length_cons, Nat.mul_succ, Nat.add_comm, run_add 24 _ hrun, ht]
    · have hpoll : (s.polledBusy b).trace = s.trace ++ readEvents s.cfg false b := rfl
      rw [htrace, hpoll, List.append_assoc]
      rfl

/-! ### Gated writes -/

/-- An instruction that is one gated write completes with it (rules R148, R149, R164 to R166). -/
theorem exec_gated_wrote {i : Instr} {s : State} {rs : Bool} {b : Byte} {g : Gate} (hs : s.seq = [])
    (hp : progressOf i s.accept = .done ((s.accept.gated g).wrote rs b)) (hi : endsInRead i = false) :
    exec i s = .next (((s.gated g).wrote rs b).responded .ok 0) := by
  have hdata : State.responseData ((s.accept.gated g).wrote rs b) (entryRoutine s.cfg i) = 0 := by
    cases i with
    | rdstat => cases hi
    | _ => rfl
  rw [exec_done i s _ hs hp, State.complete, hdata, ← hs]
  rfl

/-- Settles O24: the gate opens, and the write follows. -/
theorem gatedWritesComplete : Obligations.GatedWritesComplete := fun s b g rest hs ha ho =>
  ⟨exec_gated_wrote hs (writeCommand_opens b g rest s.accept ha ho) rfl,
    exec_gated_wrote hs (writeData_opens b g rest s.accept ha ho) rfl⟩

/-- Settles O25: the events of the gate and of the write, one after the other. -/
theorem gatedWriteTraceIsCounted : Obligations.GatedWriteTraceIsCounted := by
  intro s rs b g rest hs ha ho
  obtain ⟨hcommand, hdata⟩ := gatedWritesComplete s b g rest hs ha ho
  refine ⟨((s.gated g).wrote rs b).responded .ok 0, g.events s.cfg ++ writeEvents s.cfg rs b, ?_, ?_, ?_, ?_, ?_⟩
  · cases rs with
    | false => exact hcommand
    | true => exact hdata
  · exact List.append_assoc _ _ _
  · rw [busView_gate, busView_write_last, halvesOf_append]
  · rw [List.length_append, length_gateEvents, length_writeEvents]
  · rw [delaySum_append, delaySum_gate, delaySum_write]

end Sys2Proof.Machine
end

section
/-! SUPPORT. Gates that time out (rules R146, R163, R191, R196): how an operation fails, and that the first gate to time out ends
it. -/

namespace Sys2Proof.Machine

/-! ### How an operation fails -/

/-- If the operation fails, its code and the state it fails in have the property. -/
def Progress.Fails (P : Code → State → Prop) : Progress → Prop
  | .failed k t => P k t
  | .done _ | .undetermined => True

section Fails
variable {P : Code → State → Prop}

theorem andThen_fails {p : Progress} {f : State → Progress} (hp : p.Fails P) (hf : ∀ t, (f t).Fails P) :
    (p.andThen f).Fails P := by
  cases p with
  | done t => exact hf t
  | failed k t => exact hp
  | undetermined => exact True.intro

/-- An operation fails at a gate or at the bounds check, and nowhere else (rules R146, R167, R191). -/
theorem progressOf_fails (hgate : ∀ s, (waitReady s).Fails P)
    (hbounds : ∀ s col, outOfBounds s.cfg col = true → P .invalidAddress s) (i : Instr) (s : State) :
    (progressOf i s).Fails P := by
  have hcommand : ∀ b s, (writeCommand b s).Fails P := fun b s => andThen_fails (hgate s) fun _ => True.intro
  cases i with
  | init attributes =>
    rw [progressOf, initAll, andThen_done]
    refine andThen_fails (hcommand _ _) fun t => ?_
    refine andThen_fails (hcommand _ t) fun t => ?_
    refine andThen_fails (hcommand _ t) fun t => ?_
    exact hcommand _ t
  | clear | home | wrcmd => exact hcommand _ s
  | gotoxy col row =>
    rw [progressOf, gotoXY]
    split
    · exact hbounds s col ‹_›
    · exact hcommand _ s
  | putc ch =>
    refine andThen_fails (hgate s) fun t => ?_
    dsimp only
    split
    · exact hcommand _ _
    · refine andThen_fails ?_ fun _ => True.intro
      rw [wrapPath]
      split
      · exact True.intro
      · exact hgate _
      · exact hgate _
  | wrdata b => exact andThen_fails (hgate s) fun _ => True.intro
  | rdstat => exact hgate s
  | busWi | busWd | busRs | busRd | lcdClear | lcdHome | lcdEntry | lcdDisplay | lcdFunction | lcdSetddram =>
    exact True.intro

end Fails

/-- A failure with `NotReady` leaves the state of a gate that timed out (rule R146). -/
def EndsInTimeout (k : Code) (t : State) : Prop :=
  k = .notReady → ∃ (u : State) (polls : List Byte), t = u.timedOutAfter polls

theorem waitReady_endsInTimeout (s : State) : (waitReady s).Fails EndsInTimeout := by
  rcases waitReady_cases s with he | ⟨g, _, _, _, _, _, he⟩ | ⟨polls, _, _, _, _, _, he⟩ <;> rw [he]
  · exact True.intro
  · exact True.intro
  · exact fun _ => ⟨s, polls, rfl⟩

theorem timedOut_of_failed {i : Instr} {s t : State} (h : progressOf i s = .failed .notReady t) :
    ∃ (u : State) (polls : List Byte), t = u.timedOutAfter polls := by
  have hfails := progressOf_fails waitReady_endsInTimeout (fun _ _ _ hk => Code.noConfusion hk) i s
  rw [h] at hfails
  exact hfails rfl

/-- `INIT` has made the control pins outputs before its first gate (rule R160). -/
theorem initAll_extends_pinsSetUp (attributes : Byte) (s : State) : (initAll attributes s).Extends s.pinsSetUp := by
  rw [initAll, andThen_done, initPins_eq]
  refine andThen_extends (writeCommand_extends _ _) fun _ h => extends_of_extends h ?_
  refine andThen_extends (writeCommand_extends _ _) fun _ h => extends_of_extends h ?_
  refine andThen_extends (writeCommand_extends _ _) fun _ h => extends_of_extends h ?_
  exact writeCommand_extends _ _

theorem failed_control {i : Instr} {s t : State} {k : Code} (h : progressOf i s = .failed k t)
    (hout : (∃ a, i = .init a) ∨ (s.dir.e = .out ∧ s.dir.rs = .out ∧ s.dir.rw = .out)) :
    t.dir.e = .out ∧ t.dir.rs = .out ∧ t.dir.rw = .out := by
  rcases hout with ⟨a, rfl⟩ | ⟨he, hrs, hrw⟩
  · have hext := initAll_extends_pinsSetUp a s
    rw [show initAll a s = .failed k t from h] at hext
    exact ⟨hext.enable rfl, hext.select rfl, hext.readWrite rfl⟩
  · have hext := progressOf_extends i s
    rw [h] at hext
    exact ⟨hext.enable he, hext.select hrs, hext.readWrite hrw⟩

/-- An operation with a failure for its answer failed, with that code and no data (rule R191). -/
theorem failed_of_rsp {i : Instr} {s t : State} {k : Code} {d : Byte} (hs : s.seq = []) (h : exec i s = .next t)
    (hrsp : t.rsp = some ⟨k, d⟩) (hk : k ≠ .ok) : d = 0 ∧ ∃ u, progressOf i s.accept = .failed k u ∧ t = u.raise k := by
  cases hp : progressOf i s.accept with
  | done u =>
    cases (exec_done i s u hs hp).symm.trans h
    cases hrsp
    exact absurd rfl hk
  | failed k' u =>
    cases (exec_failed i s u k' hs hp).symm.trans h
    cases hrsp
    exact ⟨rfl, u, rfl, rfl⟩
  | undetermined =>
    cases (exec_undetermined i s hs hp).symm.trans h
    cases hrsp

/-- Settles O36: `NotReady` is a gate's timeout, and its last poll leaves the pins of a read. -/
theorem notReadyLeavesPinsReadIdle : Obligations.NotReadyLeavesPinsReadIdle := by
  intro i s t d hs hout h hrsp
  obtain ⟨rfl, u, hu, rfl⟩ := failed_of_rsp hs h hrsp Code.noConfusion
  have hcontrol := failed_control hu hout
  obtain ⟨v, polls, rfl⟩ := timedOut_of_failed hu
  exact ⟨⟨hcontrol, ⟨rfl, rfl, rfl, rfl⟩, rfl, rfl⟩, rfl, rfl, rfl⟩

/-! ### The first gate to time out -/

/-- A gate answered these polls times out at the last of them (rule R146). -/
structure TimesOut (cfg : Configuration) (polls : List Byte) : Prop where
  maxPoll : cfg.maxPoll = some polls.length
  nonempty : polls ≠ []
  busy : polls.all busyFlag = true

section TimesOut
variable {s : State} {polls : List Byte} {rest : List Bool}

theorem TimesOut.waitReady (h : TimesOut s.cfg polls) (ha : s.answers = script polls ++ rest) :
    Machine.waitReady s = .failed .notReady (s.timedOutAfter polls) :=
  waitReady_times_out polls rest s ha h.busy h.maxPoll h.nonempty

theorem TimesOut.writeCommand (h : TimesOut s.cfg polls) (ha : s.answers = script polls ++ rest) (b : Byte) :
    Machine.writeCommand b s = .failed .notReady (s.timedOutAfter polls) := by
  rw [Machine.writeCommand, h.waitReady ha, andThen_failed]

/-- An instruction on an idle block whose gate times out in `u`, which is `v` but for `SEQ` and the response. -/
theorem exec_timedOut {i : Instr} {u v : State} (hs : s.seq = []) (hp : progressOf i s.accept = .failed .notReady u)
    (huv : { u with seq := s.seq, rsp := v.rsp } = v) : exec i s = .next (v.responded .notReady 0) := by
  rw [exec_failed i s u .notReady hs hp, ← huv, hs]
  rfl

theorem andThen_done_right (p : Progress) : p.andThen .done = p := by cases p <;> rfl

/-- The instructions that wait at a gate first (rules R148 to R150, R164 to R168). -/
theorem progressOf_gatedFirst {i : Instr} (hi : gatedFirst i = true) (hb : passesBounds s.cfg i = true) :
    ∃ f, progressOf i s = (waitReady s).andThen f := by
  cases i with
  | clear | home | wrcmd | wrdata | putc => exact ⟨_, rfl⟩
  | gotoxy col row =>
    rw [progressOf, gotoXY, if_neg (by simpa [passesBounds] using hb)]
    exact ⟨_, rfl⟩
  | rdstat => exact ⟨_, (andThen_done_right _).symm⟩
  | init | busWi | busWd | busRs | busRd | lcdClear | lcdHome | lcdEntry | lcdDisplay | lcdFunction | lcdSetddram => cases hi

end TimesOut

/-! ### Command writes in a row -/

/-- Gated command writes one after the other, as `INIT` makes them (rule R160). -/
def commandRow : List Byte → State → Progress
  | [], s => .done s
  | b :: bytes, s => (writeCommand b s).andThen (commandRow bytes)

/-- The state after gated command writes whose gates opened. -/
def State.wroteRow (s : State) (items : List (Gate × Byte)) : State :=
  items.foldl (fun s x => (s.gated x.1).wrote false x.2) s

theorem andThen_congr {p : Progress} {f f' : State → Progress} (h : ∀ t, p = .done t → f t = f' t) :
    p.andThen f = p.andThen f' := by
  cases p with
  | done t => exact h t rfl
  | failed | undetermined => rfl

/-- `INIT` is its pin set-up and four gated command writes; none of them changes the configured bytes. -/
theorem initAll_eq (attributes : Byte) (s : State) : initAll attributes s =
    commandRow [s.cfg.cmdFunction, s.cfg.cmdClear, s.cfg.cmdEntry, attributes] s.pinsSetUp := by
  rw [initAll, andThen_done, initPins_eq]
  refine andThen_congr fun t ht => ?_
  have hcfg : t.cfg = s.cfg := writeCommand_cfg (s := s.pinsSetUp) ht
  rw [hcfg]
  refine andThen_congr fun u hu => ?_
  rw [(writeCommand_cfg hu).trans hcfg]
  exact andThen_congr fun v _ => (andThen_done_right _).symm

/-- A gate that times out ends a row of command writes there (rule R163). -/
theorem commandRow_timedOut {items : List (Gate × Byte)} {polls : List Byte} {rest : List Bool} {s : State}
    (hout : TimesOut s.cfg polls) (b : Byte) (more : List Byte) (hopen : ∀ x ∈ items, x.1.opens s.cfg = true)
    (ha : s.answers = script (items.flatMap fun x => x.1.bytes) ++ (script polls ++ rest)) :
    commandRow (items.map Prod.snd ++ b :: more) s = .failed .notReady ((s.wroteRow items).timedOutAfter polls) := by
  induction items generalizing s with
  | nil => exact congrArg (Progress.andThen · _) (hout.writeCommand ha b)
  | cons x items ih =>
    obtain ⟨hx, hopen⟩ := List.forall_mem_cons.1 hopen
    rw [List.flatMap_cons, script_append, List.append_assoc] at ha
    rw [List.map_cons, List.cons_append, commandRow, writeCommand_opens x.2 x.1 _ s ha hx, andThen_done]
    exact ih (s := (s.gated x.1).wrote false x.2) hout hopen (gated_answers s x.1 _ ha)

/-- `INIT` ends at the first of its gates that times out. -/
theorem exec_init_timedOut {attributes b : Byte} {items : List (Gate × Byte)} {more polls : List Byte} {rest : List Bool}
    {s : State} (hs : s.seq = []) (hout : TimesOut s.cfg polls)
    (hrow : [s.cfg.cmdFunction, s.cfg.cmdClear, s.cfg.cmdEntry, attributes] = items.map Prod.snd ++ b :: more)
    (hopen : ∀ x ∈ items, x.1.opens s.cfg = true)
    (ha : s.answers = script (items.flatMap fun x => x.1.bytes) ++ (script polls ++ rest)) {v : State}
    (hv : { (s.accept.pinsSetUp.wroteRow items).timedOutAfter polls with seq := s.seq, rsp := v.rsp } = v) :
    exec (.init attributes) s = .next (v.responded .notReady 0) := by
  refine exec_timedOut hs ?_ hv
  rw [progressOf, initAll_eq]
  exact (congrArg (commandRow · _) hrow).trans (commandRow_timedOut (s := s.accept.pinsSetUp) hout b more hopen ha)

/-- Settles O37: the gate fails before anything that follows it. -/
theorem firstGateTimeoutEndsOperation : Obligations.FirstGateTimeoutEndsOperation := by
  intro s polls rest hs hm hne hp ha
  have hout : TimesOut s.cfg polls := ⟨hm, hne, hp⟩
  refine ⟨fun i hi hb => ?_, fun a => ?_⟩
  · obtain ⟨f, hf⟩ := progressOf_gatedFirst (s := s.accept) hi hb
    rw [TimesOut.waitReady (s := s.accept) hout ha, andThen_failed] at hf
    exact exec_timedOut hs hf rfl
  · exact exec_init_timedOut (items := []) hs hout rfl (fun _ hx => absurd hx List.not_mem_nil) ha rfl

/-! ### A later gate that times out -/

section LaterGate
variable {s : State} {polls : List Byte} {g : Gate} {rest : List Bool}

/-- The second gate of the newline (rule R169). -/
theorem printChar_newline_timedOut (ha : s.answers = script (g.bytes ++ polls) ++ rest) (ho : g.opens s.cfg = true)
    (hout : TimesOut s.cfg polls) : printChar s.cfg.chNewline s =
      .failed .notReady (((s.gated g).withPos g.reread).timedOutAfter polls) := by
  rw [script_append, List.append_assoc] at ha
  rw [printChar, waitReady_opens g _ s ha ho, andThen_done]
  dsimp only
  rw [if_pos (by rfl), newlinePath]
  exact TimesOut.writeCommand (s := (s.gated g).withPos g.reread) hout (gated_answers s g _ ha) _

/-- The second gate of the wrap, behind its set-address (rule R171). -/
theorem printChar_wrap_timedOut {ch : Byte} {row : Nat} (ha : s.answers = script (g.bytes ++ polls) ++ rest)
    (ho : g.opens s.cfg = true) (hout : TimesOut s.cfg polls) (hc : ch ≠ s.cfg.chNewline)
    (hw : wrapCase s.cfg (currentAddress g.reread) = .endOfLine1 ∧ row = 1 ∨
      wrapCase s.cfg (currentAddress g.reread) = .endOfLine2 ∧ row = 0) :
    printChar ch s = .failed .notReady ((((s.gated g).withPos g.reread).wrote false
      (setAddressByte s.cfg (lineBase s.cfg row))).timedOutAfter polls) := by
  rw [script_append, List.append_assoc] at ha
  have hgate : ∀ b, (waitReady (writeByte false b (s.gated g).takePosition)).andThen
      (fun u => .done (writeByte true ch u)) =
        .failed .notReady ((((s.gated g).withPos g.reread).wrote false b).timedOutAfter polls) := by
    intro b
    rw [writeByte_eq, TimesOut.waitReady (s := (s.gated g).takePosition.wrote false b) hout (gated_answers s g _ ha)]
    rfl
  have hcase : wrapCase (s.gated g).takePosition.cfg (currentAddress (s.gated g).takePosition.pos) =
      wrapCase s.cfg (currentAddress g.reread) := rfl
  rw [printChar, waitReady_opens g _ s ha ho, andThen_done]
  dsimp only
  rw [if_neg (by exact hc), wrapPath, hcase]
  rcases hw with ⟨hw, rfl⟩ | ⟨hw, rfl⟩
  · rw [hw]; exact hgate _
  · rw [hw]; exact hgate _

end LaterGate

/-- Settles O38: the later gates of `INIT` end its row of command writes, those of `PUTC` its newline or its wrap. -/
theorem laterGateTimeoutEndsOperation : Obligations.LaterGateTimeoutEndsOperation := by
  intro s polls g1 g2 g3 rest hs hm hne hp ho1 ho2 ho3
  have hout : TimesOut s.cfg polls := ⟨hm, hne, hp⟩
  refine ⟨fun ha => ⟨fun a => ?_, ?_, fun ch hc hw => ⟨fun h1 => ?_, fun h1 h2 => ?_⟩⟩, fun ha a => ?_, fun ha a => ?_⟩
  · exact exec_init_timedOut (items := [(g1, s.cfg.cmdFunction)]) hs hout rfl (by simpa using ho1) (by simpa using ha) rfl
  · exact exec_timedOut hs (printChar_newline_timedOut (s := s.accept) ha ho1 hout) rfl
  · exact exec_timedOut hs (printChar_wrap_timedOut (s := s.accept) ha ho1 hout hc
      (.inl ⟨wrapCase_line1 _ _ hw h1, rfl⟩)) rfl
  · exact exec_timedOut hs (printChar_wrap_timedOut (s := s.accept) ha ho1 hout hc
      (.inr ⟨wrapCase_line2 _ _ hw h1 h2, rfl⟩)) rfl
  · exact exec_init_timedOut (items := [(g1, s.cfg.cmdFunction), (g2, s.cfg.cmdClear)]) hs hout rfl
      (by simpa using ⟨ho1, ho2⟩) (by simpa using ha) rfl
  · exact exec_init_timedOut (items := [(g1, s.cfg.cmdFunction), (g2, s.cfg.cmdClear), (g3, s.cfg.cmdEntry)]) hs hout rfl
      (by simpa using ⟨ho1, ho2, ho3⟩) (by simpa using ha) rfl

end Sys2Proof.Machine
end

section
/-! SUPPORT. The operations of the text interface (rules R160 to R174): how each completes where its gates open, what it shows the
controller, and how many events it is. -/

namespace Sys2Proof.Machine

/-! ### Completion -/

/-- An instruction on an idle block that ran to its end in `u`, which is `v` but for `SEQ` and the response. -/
theorem exec_completed {i : Instr} {s u v : State} (hs : s.seq = []) (hi : endsInRead i = false)
    (hp : progressOf i s.accept = .done u) (huv : { u with seq := s.seq, rsp := v.rsp } = v) :
    exec i s = .next (v.responded .ok 0) := by
  have hdata : u.responseData (entryRoutine s.cfg i) = 0 := by
    cases i with
    | rdstat => cases hi
    | _ => rfl
  rw [exec_done i s u hs hp, State.complete, hdata, ← huv, hs]
  rfl

/-! ### `CLEAR`, `HOME` and `GOTOXY` -/

/-- Settles O26: each is one gated write, of its configured byte. -/
theorem clearAndHomeComplete : Obligations.ClearAndHomeComplete := fun s g rest hs ha ho =>
  ⟨exec_gated_wrote hs (writeCommand_opens s.cfg.cmdClear g rest s.accept ha ho) rfl,
    exec_gated_wrote hs (writeCommand_opens s.cfg.cmdHome g rest s.accept ha ho) rfl⟩

theorem outOfBounds_iff {cfg : Configuration} {col : Byte} :
    outOfBounds cfg col = true ↔ cfg.checkBounds = true ∧ cfg.lineLength ≤ col.toNat := by
  rw [outOfBounds, Bool.and_eq_true, decide_eq_true_iff]

/-- `GOTOXY` with a column that the bounds check lets pass (rules R166, R167). -/
theorem exec_gotoxy {s : State} {col : Byte} {g : Gate} {rest : List Bool} (hs : s.seq = [])
    (ha : s.answers = script g.bytes ++ rest) (ho : g.opens s.cfg = true) (hb : outOfBounds s.cfg col = false) (row : Nat) :
    exec (.gotoxy col row) s = .next (((s.gated g).wrote false (gotoByte s.cfg col row)).responded .ok 0) :=
  exec_gated_wrote hs (gotoXY_sends s.accept col row g rest ha ho hb) rfl

/-- Settles O27: the gated write of `GOTOXY`, with the base of either line. -/
theorem gotoxySendsBasePlusColumn : Obligations.GotoxySendsBasePlusColumn := by
  intro s col g rest hs ha ho hin
  have hb : outOfBounds s.cfg col = false := by
    rw [← Bool.not_eq_true, outOfBounds_iff]
    rintro ⟨hcheck, hlen⟩
    rcases hin with hoff | hlt
    · exact Bool.noConfusion (hoff.symm.trans hcheck)
    · exact absurd hlen (Nat.not_le.2 hlt)
  exact ⟨exec_gotoxy hs ha ho hb 0, exec_gotoxy hs ha ho hb 1⟩

/-- `GOTOXY` fails with `InvalidAddress` only at its bounds check: its gate fails with `NotReady`. -/
theorem outOfBounds_of_invalidAddress {col : Byte} {row : Nat} {s t : State}
    (h : gotoXY col row s = .failed .invalidAddress t) : outOfBounds s.cfg col = true := by
  by_contra hb
  rw [gotoXY, if_neg hb] at h
  exact Code.noConfusion (writeCommand_failed h)

/-- Settles O28: the check fails before the gate, a word's row is in range as its instruction is, and without the option no
column is out of bounds. -/
theorem gotoxyBoundsCheck : Obligations.GotoxyBoundsCheck := by
  refine ⟨fun s col row hs hcheck hlen => ?_, fun s t col row d hs h hrsp => ?_, fun s col row g rest hs hoff ha ho => ?_,
    fun r col row h => ?_, rfl⟩
  · have hfail : gotoXY col row s.accept = .failed .invalidAddress s.accept :=
      if_pos (outOfBounds_iff.2 ⟨hcheck, hlen⟩)
    rw [exec_failed (.gotoxy col row) s _ _ hs hfail, State.raise, ← hs]
    rfl
  · obtain ⟨_, u, hu, _⟩ := failed_of_rsp hs h hrsp Code.noConfusion
    exact outOfBounds_iff.1 (outOfBounds_of_invalidAddress (s := s.accept) hu)
  · have hb : outOfBounds s.cfg col = false := by rw [outOfBounds, hoff, Bool.false_and]
    exact exec_gotoxy hs ha ho hb row
  · obtain ⟨_, hrow⟩ := encodeOfDecodeIsIdentity r _ h
    exact of_decide_eq_true hrow

/-! ### `PUTC` -/

/-- Settles O29: the character's gate and its write. -/
theorem putcWritesPlainCharacter : Obligations.PutcWritesPlainCharacter := fun s ch g rest hs ha ho hc hw =>
  exec_completed hs rfl (printChar_plain s.accept ch g rest ha ho hc (wrapCase_none s.cfg _ hw)) rfl

theorem newlineByte_eq (cfg : Configuration) (a : Address) : newlineByte cfg a =
    cfg.cmdSetDdram + (if a.toNat < cfg.line2Base.toNat then cfg.line2Base else cfg.line1Base).setWidth 8 := by
  by_cases ha : a.toNat < cfg.line2Base.toNat
  · rw [newlineByte, beforeLine2, decide_eq_true ha, if_pos ha]
    rfl
  · rw [newlineByte, beforeLine2, decide_eq_false ha, if_neg ha]
    rfl

/-- Settles O30: the gate, the second gate and the set-address that the address of the re-read selects. -/
theorem putcNewlineTogglesLine : Obligations.PutcNewlineTogglesLine := by
  intro s g g' rest hs ha ho ho'
  rw [← newlineByte_eq]
  exact exec_completed hs rfl (printChar_newline s.accept g g' rest ha ho ho') rfl

/-- Settles O31: the wrap of each boundary, the second only where the first is not met. -/
theorem putcWrapsAtLineEnd : Obligations.PutcWrapsAtLineEnd := by
  intro s ch g g' rest hs ha ho ho' hc hw
  refine ⟨fun h1 => ?_, fun h1 h2 => ?_⟩
  · exact exec_completed hs rfl (printChar_wrap s.accept ch g g' rest 1 ha ho ho' hc
      (.inl ⟨wrapCase_line1 _ _ hw h1, rfl⟩)) rfl
  · exact exec_completed hs rfl (printChar_wrap s.accept ch g g' rest 0 ha ho ho' hc
      (.inr ⟨wrapCase_line2 _ _ hw h1 h2, rfl⟩)) rfl

/-! ### What gates and writes in a row show -/

/-- From `s` to `t` the block emits these events and shows these whole transactions. -/
structure State.Transacts (s t : State) (evs : List Event) (ts : List Transaction) : Prop where
  trace : t.trace = s.trace ++ evs
  view : ∀ rest, busView s.lat (evs ++ rest) = halvesOf ts ++ busView t.lat rest

section Transacts
variable {s t u : State} {evs evs' : List Event} {ts ts' : List Transaction}

theorem State.Transacts.refl (s : State) : s.Transacts s [] [] := ⟨(List.append_nil _).symm, fun _ => rfl⟩

theorem State.Transacts.trans (h : s.Transacts t evs ts) (h' : t.Transacts u evs' ts') :
    s.Transacts u (evs ++ evs') (ts ++ ts') where
  trace := by rw [h'.trace, h.trace, List.append_assoc]
  view rest := by rw [List.append_assoc, h.view, h'.view, halvesOf_append, List.append_assoc]

theorem State.Transacts.withPos (h : s.Transacts t evs ts) (b : Byte) : s.Transacts (t.withPos b) evs ts :=
  ⟨h.trace, h.view⟩

theorem State.Transacts.busView (h : s.Transacts t evs ts) : Machine.busView s.lat evs = halvesOf ts := by
  simpa [busView_nil] using h.view []

theorem transacts_gated (s : State) (g : Gate) : s.Transacts (s.gated g) (g.events s.cfg) (statusReads g.bytes) :=
  ⟨rfl, busView_gate s.cfg g s.lat⟩

theorem transacts_wrote (s : State) (rs : Bool) (b : Byte) :
    s.Transacts (s.wrote rs b) (writeEvents s.cfg rs b) [.write rs b] :=
  ⟨rfl, busView_write s.cfg rs b s.lat⟩

end Transacts

/-! ### The table of `PUTC` (rule R172) -/

/-- `PUTC` completes with these transactions in so many events: a row of the table of rule R172. -/
def PutcRow (s : State) (ch : Byte) (ts : List Transaction) (n : Nat) : Prop :=
  ∃ t evs, exec (.putc ch) s = .next t ∧ t.trace = s.trace ++ evs ∧ busView s.lat evs = halvesOf ts ∧ evs.length = n

section PutcRow
variable {s : State} {ch : Byte} {g g' : Gate}

theorem putcRow_of_transacts {t : State} {evs : List Event} {ts : List Transaction} {n : Nat}
    (h : exec (.putc ch) s = .next (t.responded .ok 0)) (ht : s.Transacts t evs ts) (hn : evs.length = n) :
    PutcRow s ch ts n :=
  ⟨_, evs, h, ht.trace, ht.busView, hn⟩

/-- One gate and the data write: 71 events, and 22 more for each busy poll. -/
theorem putcRow_plain {b : Byte} (h : exec (.putc ch) s = .next ((((s.gated g).withPos b).wrote true ch).responded .ok 0)) :
    PutcRow s ch (statusReads g.bytes ++ [.write true ch]) (71 + 22 * g.polls.length) := by
  refine putcRow_of_transacts h (((transacts_gated s g).withPos b).trans (transacts_wrote _ true ch)) ?_
  rw [List.length_append, length_gateEvents, length_writeEvents]
  omega

/-- Two gates and the set-address: 116 events, and 22 more for each busy poll. -/
theorem putcRow_newline {b b' : Byte}
    (h : exec (.putc ch) s = .next (((((s.gated g).withPos b).gated g').wrote false b').responded .ok 0)) :
    PutcRow s ch (statusReads g.bytes ++ statusReads g'.bytes ++ [.write false b'])
      (116 + 22 * (g.polls.length + g'.polls.length)) := by
  refine putcRow_of_transacts h
    ((((transacts_gated s g).withPos b).trans (transacts_gated _ g')).trans (transacts_wrote _ false b')) ?_
  rw [List.length_append, List.length_append, length_gateEvents, length_gateEvents, length_writeEvents]
  omega

/-- A gate, the set-address, a gate and the data write: 142 events, and 22 more for each busy poll. -/
theorem putcRow_wrap {b b' : Byte}
    (h : exec (.putc ch) s =
      .next ((((((s.gated g).withPos b).wrote false b').gated g').wrote true ch).responded .ok 0)) :
    PutcRow s ch (statusReads g.bytes ++ [.write false b'] ++ statusReads g'.bytes ++ [.write true ch])
      (142 + 22 * (g.polls.length + g'.polls.length)) := by
  refine putcRow_of_transacts h (((((transacts_gated s g).withPos b).trans (transacts_wrote _ false b')).trans
    (transacts_gated _ g')).trans (transacts_wrote _ true ch)) ?_
  rw [List.length_append, List.length_append, List.length_append, length_gateEvents, length_gateEvents,
    length_writeEvents, length_writeEvents]
  omega

end PutcRow

section DefaultGeometry
variable {cfg : Configuration} {wrap : Bool} {a : Address}

theorem atLine1End_iff (hcfg : cfg = defaultWithWrap wrap) :
    a.toNat = cfg.line1Base.toNat + cfg.lineLength ↔ a = 0x10 := by
  rw [hcfg]
  exact BitVec.toNat_inj (y := 0x10)

theorem atLine2End_iff (hcfg : cfg = defaultWithWrap wrap) :
    a.toNat = cfg.line2Base.toNat + cfg.lineLength ↔ a = 0x50 := by
  rw [hcfg]
  exact BitVec.toNat_inj (y := 0x50)

/-- The wrap test finds no boundary where neither row of the table with a wrap applies. -/
theorem noBoundary_default (hcfg : cfg = defaultWithWrap wrap) (h1 : ¬ (wrap = true ∧ a = 0x10))
    (h2 : ¬ (wrap = true ∧ a = 0x50)) : cfg.wrap = false ∨
      a.toNat ≠ cfg.line1Base.toNat + cfg.lineLength ∧ a.toNat ≠ cfg.line2Base.toNat + cfg.lineLength := by
  rw [ne_eq, ne_eq, atLine1End_iff hcfg, atLine2End_iff hcfg]
  cases wrap with
  | false => exact .inl (congrArg Configuration.wrap hcfg)
  | true => exact .inr ⟨fun h => h1 ⟨rfl, h⟩, fun h => h2 ⟨rfl, h⟩⟩

/-- The set-address bytes of the two lines. -/
theorem setLine_default (hcfg : cfg = defaultWithWrap wrap) : cfg.cmdSetDdram + cfg.line1Base.setWidth 8 = 0x80 ∧
    cfg.cmdSetDdram + cfg.line2Base.setWidth 8 = 0xC0 := by
  rw [hcfg]
  exact ⟨rfl, rfl⟩

/-- The set-address byte of the newline. -/
theorem newline_default (hcfg : cfg = defaultWithWrap wrap) :
    cfg.cmdSetDdram + (if a.toNat < cfg.line2Base.toNat then cfg.line2Base else cfg.line1Base).setWidth 8 =
      if a.toNat < 0x40 then 0xC0 else 0x80 := by
  obtain ⟨hline1, hline2⟩ := setLine_default hcfg
  have hbase : cfg.line2Base.toNat = 0x40 := by rw [hcfg]; rfl
  rw [apply_ite (BitVec.setWidth 8), apply_ite (cfg.cmdSetDdram + ·), hline1, hline2, hbase]

end DefaultGeometry

/-- Settles O32: with the default geometry the boundaries are 0x10 and 0x50, and each row is one of the completions of `PUTC`. -/
theorem putcFollowsItsTable : Obligations.PutcFollowsItsTable := by
  intro s wrap ch g g' rest hs hcfg ha ho ho'
  have hnewline : s.cfg.chNewline = 0x0A := by rw [hcfg]; rfl
  obtain ⟨hline1, hline2⟩ := setLine_default hcfg
  by_cases hc : ch = 0x0A
  · have h := putcNewlineTogglesLine s g g' rest hs ha ho ho'
    rw [hnewline, ← hc, newline_default hcfg] at h
    rw [if_pos hc, if_pos hc]
    exact putcRow_newline h
  rw [if_neg hc, if_neg hc]
  have hc' : ch ≠ s.cfg.chNewline := by rwa [hnewline]
  have hwraps := fun hw : wrap = true =>
    putcWrapsAtLineEnd s ch g g' rest hs ha ho ho' hc' ((congrArg Configuration.wrap hcfg).trans hw)
  rw [atLine1End_iff hcfg, atLine2End_iff hcfg, hline1, hline2] at hwraps
  by_cases h1 : wrap = true ∧ currentAddress g.reread = 0x10
  · obtain ⟨hw, h10⟩ := h1
    rw [if_pos ⟨hw, h10⟩, if_pos ⟨hw, .inl h10⟩]
    exact putcRow_wrap ((hwraps hw).1 h10)
  rw [if_neg h1]
  by_cases h2 : wrap = true ∧ currentAddress g.reread = 0x50
  · obtain ⟨hw, h50⟩ := h2
    rw [if_pos ⟨hw, h50⟩, if_pos ⟨hw, .inr h50⟩]
    exact putcRow_wrap ((hwraps hw).2 (fun h10 => h1 ⟨hw, (atLine1End_iff hcfg).1 h10⟩) h50)
  have hnone : ¬ (wrap = true ∧ (currentAddress g.reread = 0x10 ∨ currentAddress g.reread = 0x50)) := by
    rw [and_or_left]
    exact not_or.2 ⟨h1, h2⟩
  rw [script_append, List.append_assoc] at ha
  rw [if_neg h2, if_neg hnone]
  exact putcRow_plain (putcWritesPlainCharacter s ch g _ hs ha ho hc' (noBoundary_default hcfg h1 h2))

/-! ### `INIT` -/

/-- Gated command writes in a row run to their end where all the gates open (rule R160). -/
theorem commandRow_opens {items : List (Gate × Byte)} {rest : List Bool} {s : State}
    (hopen : ∀ x ∈ items, x.1.opens s.cfg = true) (ha : s.answers = script (items.flatMap fun x => x.1.bytes) ++ rest) :
    commandRow (items.map Prod.snd) s = .done (s.wroteRow items) := by
  induction items generalizing s with
  | nil => rfl
  | cons x items ih =>
    obtain ⟨hx, hopen⟩ := List.forall_mem_cons.1 hopen
    rw [List.flatMap_cons, script_append, List.append_assoc] at ha
    rw [List.map_cons, commandRow, writeCommand_opens x.2 x.1 _ s ha hx, andThen_done]
    exact ih (s := (s.gated x.1).wrote false x.2) hopen (gated_answers s x.1 _ ha)

/-- `INIT` completes where all its gates open, in `v` but for the response. -/
theorem exec_init_opens {attributes : Byte} {items : List (Gate × Byte)} {rest : List Bool} {s v : State}
    (hs : s.seq = []) (hrow : [s.cfg.cmdFunction, s.cfg.cmdClear, s.cfg.cmdEntry, attributes] = items.map Prod.snd)
    (hopen : ∀ x ∈ items, x.1.opens s.cfg = true) (ha : s.answers = script (items.flatMap fun x => x.1.bytes) ++ rest)
    (hv : { s.accept.pinsSetUp.wroteRow items with seq := s.seq, rsp := v.rsp } = v) :
    exec (.init attributes) s = .next (v.responded .ok 0) := by
  refine exec_completed hs rfl ?_ hv
  rw [progressOf, initAll_eq]
  exact (congrArg (commandRow · _) hrow).trans (commandRow_opens (s := s.accept.pinsSetUp) hopen ha)

/-- Settles O33: the pin set-up and a row of four command writes whose gates open. -/
theorem initRunsFourGatedCommands : Obligations.InitRunsFourGatedCommands := by
  intro s a g1 g2 g3 g4 rest hs ha ho1 ho2 ho3 ho4
  exact exec_init_opens (items := [(g1, s.cfg.cmdFunction), (g2, s.cfg.cmdClear), (g3, s.cfg.cmdEntry), (g4, a)]) hs rfl
    (by simpa using ⟨ho1, ho2, ho3, ho4⟩) (by simpa using ha) rfl

/-- The events of gated command writes in a row. -/
def rowEvents (cfg : Configuration) (items : List (Gate × Byte)) : List Event :=
  items.flatMap fun x => x.1.events cfg ++ writeEvents cfg false x.2

/-- The transactions of gated command writes in a row. -/
def rowTransactions (items : List (Gate × Byte)) : List Transaction :=
  items.flatMap fun x => statusReads x.1.bytes ++ [.write false x.2]

theorem transacts_wroteRow (items : List (Gate × Byte)) (s : State) :
    s.Transacts (s.wroteRow items) (rowEvents s.cfg items) (rowTransactions items) := by
  induction items generalizing s with
  | nil => exact .refl s
  | cons x items ih =>
    have hx := (transacts_gated s x.1).trans (transacts_wrote (s.gated x.1) false x.2)
    exact hx.trans (ih ((s.gated x.1).wrote false x.2))

/-- A gated command write of a ready controller is 71 events (rule R162). -/
theorem length_rowEvents_ready {cfg : Configuration} {items : List (Gate × Byte)} (h : ∀ x ∈ items, x.1.polls = []) :
    (rowEvents cfg items).length = 71 * items.length := by
  induction items with
  | nil => rfl
  | cons x items ih =>
    obtain ⟨hx, h⟩ := List.forall_mem_cons.1 h
    rw [rowEvents, List.flatMap_cons, ← rowEvents, List.length_append, List.length_append, length_gateEvents,
      length_writeEvents, hx, ih h, List.length_cons, List.length_nil]
    omega

/-- The delays of a gated command write of a ready controller: three transactions and the settle (rules R162, R250). -/
theorem delaySum_rowEvents_ready {cfg : Configuration} {items : List (Gate × Byte)} (h : ∀ x ∈ items, x.1.polls = []) :
    delaySum (rowEvents cfg items) = (12 * cfg.tStrobe + cfg.tSettle) * items.length := by
  induction items with
  | nil => rfl
  | cons x items ih =>
    obtain ⟨hx, h⟩ := List.forall_mem_cons.1 h
    rw [rowEvents, List.flatMap_cons, ← rowEvents, delaySum_append, delaySum_append, delaySum_gate, delaySum_write, hx,
      ih h, List.length_cons, List.length_nil]
    ring

/-- What `INIT` emits and shows where all its gates open (rules R160, R161). -/
theorem exec_init_shows {attributes : Byte} {items : List (Gate × Byte)} {rest : List Bool} {s : State}
    (hs : s.seq = []) (hrow : [s.cfg.cmdFunction, s.cfg.cmdClear, s.cfg.cmdEntry, attributes] = items.map Prod.snd)
    (hopen : ∀ x ∈ items, x.1.opens s.cfg = true) (ha : s.answers = script (items.flatMap fun x => x.1.bytes) ++ rest) :
    ∃ t, exec (.init attributes) s = .next t ∧
      t.trace = s.trace ++ (initPinEvents s.cfg ++ rowEvents s.cfg items) ∧
      busView s.lat (initPinEvents s.cfg ++ rowEvents s.cfg items) =
        (s.cfg.resetSeq.map fun x => .w false x.1) ++ halvesOf (rowTransactions items) := by
  have hexec := exec_init_opens (v := { s.accept.pinsSetUp.wroteRow items with seq := s.seq, rsp := none }) hs hrow hopen
    ha rfl
  have hshown := transacts_wroteRow items s.accept.pinsSetUp
  refine ⟨_, hexec, ?_, ?_⟩
  · exact hshown.trace.trans (List.append_assoc _ _ _)
  · rw [busView_init]
    exact congrArg _ hshown.busView

theorem readyGate_opens_default {poll : Byte} (reread : Byte) (h : busyFlag poll = false) :
    (readyGate poll reread).opens Config.default = true :=
  (gate_opens_iff _ _).2 ⟨fun _ hb => absurd hb List.not_mem_nil, h, fun _ hn => nomatch hn⟩

/-- The default pin set-up is 47 events, and each of the four commands 71 (rule R162). -/
theorem length_init_ready {items : List (Gate × Byte)} (h : ∀ x ∈ items, x.1.polls = []) (hlen : items.length = 4) :
    (initPinEvents Config.default ++ rowEvents Config.default items).length = 331 := by
  have hpins : (initPinEvents Config.default).length = 47 := rfl
  rw [List.length_append, length_rowEvents_ready h, hlen, hpins]

/-- The default pin set-up waits 19408 microseconds, and each of the four commands 14 (rule R162). -/
theorem delaySum_init_ready {items : List (Gate × Byte)} (h : ∀ x ∈ items, x.1.polls = []) (hlen : items.length = 4) :
    delaySum (initPinEvents Config.default ++ rowEvents Config.default items) = 19464 := by
  have hpins : delaySum (initPinEvents Config.default) = 19408 := rfl
  rw [delaySum_append, delaySum_rowEvents_ready h, hlen, hpins]
  rfl

/-- Settles O34: the default pin set-up, and four gated command writes of a ready controller. -/
theorem initOnReadyController : Obligations.InitOnReadyController := by
  intro s a p1 r1 p2 r2 p3 r3 p4 r4 rest hs hcfg ha hp1 hp2 hp3 hp4
  obtain ⟨t, ht, htrace, hview⟩ := exec_init_shows (attributes := a)
    (items := [(readyGate p1 r1, 0x28), (readyGate p2 r2, 0x01), (readyGate p3 r3, 0x06), (readyGate p4 r4, a)]) hs
    (by rw [hcfg]; rfl) (by simp [hcfg, readyGate_opens_default, hp1, hp2, hp3, hp4]) ha
  rw [hcfg] at htrace hview
  refine ⟨t, _, ht, htrace, hview, length_init_ready (by simp [readyGate]) rfl,
    delaySum_init_ready (by simp [readyGate]) rfl, fun n hn => ?_⟩
  rw [hview] at hn
  simp [Config.default, Config.defaultResetSeq, halvesOf, rowTransactions, Gate.bytes, readyGate, statusReads,
    Transaction.halves] at hn

end Sys2Proof.Machine
end

section
/-! SUPPORT. Every step answers a next state: an operation always, and the sequencer at each frame of the invariant. -/

namespace Sys2Proof.Machine

/-- No operation stops the block: each failure is a next state with its code (rule R191). -/
theorem exec_answers (i : Instr) (s : State) : ∃ t, exec i s = .next t := by
  rw [exec_eq]
  rcases operate_cases s (entryRoutine s.cfg i) (progressOf i) with
    ⟨_, h⟩ | ⟨_, _, _, h⟩ | ⟨_, _, _, _, h⟩ | ⟨_, _, h⟩ <;> exact ⟨_, h⟩

theorem live_iff (cfg : Configuration) (f : Frame) : f.live cfg = true ↔ ∃ a, stepOf cfg f.routine f.step = some a :=
  Option.isSome_iff_exists

/-- A step answers a next state where the top frame, if there is one, stands at a step of its routine. -/
theorem step_answers {s : State} (hlive : ∀ f callers, s.seq = f :: callers → f.live s.cfg = true) :
    ∃ t, step s = .next t := by
  cases hs : s.seq with
  | cons f callers =>
    obtain ⟨a, ha⟩ := (live_iff _ _).1 (hlive f callers hs)
    exact ⟨_, step_action s f callers a hs ha⟩
  | nil =>
    cases ht : s.text with
    | cons ch rest =>
      cases ho : s.answeredOk with
      | true => exact step_print s ch rest hs ht ho ▸ exec_answers _ _
      | false => exact ⟨_, step_print_ends s ch rest hs ht ho⟩
    | nil =>
      cases hc : s.cmds with
      | nil => exact ⟨_, step_idle s hs ht hc⟩
      | cons r rest =>
        cases hd : decode r with
        | instr i => exact step_instr s r rest i hs ht hc hd ▸ exec_answers _ _
        | reject why => exact ⟨_, step_reject s r rest why hs ht hc hd⟩

/-- A run from a state of a set that no step stops in and every step stays in goes on for ever. -/
theorem runsForever_of_invariant {P : State → Prop} (hnext : ∀ s, P s → ∃ t, step s = .next t)
    (hkeeps : ∀ s t, P s → step s = .next t → P t) {s : State} (hs : P s) : s.RunsForever := by
  intro k
  induction k generalizing s with
  | zero => exact ⟨s, run_zero s⟩
  | succ k ih =>
    obtain ⟨t, ht⟩ := hnext s hs
    rw [run_succ k ht]
    exact ih (hkeeps s t hs ht)

/-- Settles O44: the invariant, which every step keeps, has the top frame at a step of its routine. -/
theorem invariantStatesRunForever : Obligations.InvariantStatesRunForever := fun _ hinv =>
  runsForever_of_invariant (fun _ h => step_answers fun _ _ hs => (h.callChain hs).1) stepKeepsInvariant hinv

/-- Settles O5: with `SEQ`, the text and the port empty there is nothing to run and nothing to accept. -/
theorem idleBlockHoldsState : Obligations.IdleBlockHoldsState := step_idle

end Sys2Proof.Machine
end

section
/-! SUPPORT. Who drives the data wires inside a strobe (rule R234). -/

namespace Sys2Proof.Machine

/-- `RW` is at level `l`, and the four data pins have direction `d`. -/
def State.DataWires (s : State) (l : Level) (d : Dir) : Prop :=
  s.lat.rw = l ∧ s.dir.db7 = d ∧ s.dir.db6 = d ∧ s.dir.db5 = d ∧ s.dir.db4 = d

theorem WritePins.dataWires {s : State} {rs : Bool} {b : Byte} {n : Nat} (h : WritePins s rs b n) (hn : 6 ≤ n) :
    s.DataWires .low .out :=
  ⟨h.rw (by omega), h.out7 (by omega), h.out6 (by omega), h.out5 (by omega), h.out4 hn⟩

theorem ReadPins.dataWires {s : State} {rs : Bool} {n : Nat} (h : ReadPins s rs n) (hn : 6 ≤ n) :
    s.DataWires .high .inp :=
  ⟨h.rw hn, h.in7 (by omega), h.in6 (by omega), h.in5 (by omega), h.in4 (by omega)⟩

theorem InitPins.dataWires {s : State} {n : Nat} (h : InitPins s n) (hn : 10 ≤ n) : s.DataWires .low .out :=
  ⟨h.rw hn, h.out7 (by omega), h.out6 (by omega), h.out5 (by omega), h.out4 (by omega)⟩

/-- `WriteByte`, `ReadByte` and the reset half-cycles of `Initialize` set `RW` and the directions before their first
`Hi(E)`; no other routine has a strobe of its own. -/
theorem Frame.PinsOk.dataWires {s : State} {f : Frame} (hpins : f.PinsOk s) (hin : f.inStrobe s.cfg = true) :
    s.DataWires .high .inp ∨ s.DataWires .low .out := by
  obtain ⟨r, n⟩ := f
  cases r with
  | init attributes =>
    simp only [Frame.inStrobe, Bool.and_eq_true, decide_eq_true_eq] at hin
    obtain ⟨⟨hfrom, hto⟩, -⟩ := hin
    exact .inr (InitPins.dataWires (n := n) (hpins hto.le) (by omega))
  | writeByte rs b =>
    simp only [Frame.inStrobe, Bool.or_eq_true, beq_iff_eq] at hin
    exact .inr (WritePins.dataWires (n := n) hpins (by omega))
  | readByte rs =>
    simp only [Frame.inStrobe, Bool.and_eq_true, Bool.or_eq_true, decide_eq_true_eq] at hin
    exact .inl (ReadPins.dataWires (n := n) hpins (by omega))
  | clear | home | gotoXY | printChar | writeCommand | writeData | readStatus | waitReady => cases hin

/-- Settles O47: `E` is high only while the top frame stands inside a strobe, and there its pins are set. -/
theorem blockNeverDrivesAgainstController : Obligations.BlockNeverDrivesAgainstController := by
  intro s hinv hhigh
  have hstrobe : s.inStrobe = true := hinv.enable.1 hhigh
  cases hs : s.seq with
  | nil =>
    rw [State.inStrobe, hs] at hstrobe
    cases hstrobe
  | cons f callers =>
    rw [State.inStrobe, hs] at hstrobe
    exact ((pinsOk_cons hs).1 hinv.pins).dataWires hstrobe

end Sys2Proof.Machine
end
